-- ==== Sys2Proof/Word.lean ====
section
/-! DEFINITION. The machine's word types (spec/00_scope.md R16, spec/20_memory.md R80, spec/30_encoding.md R120). -/

namespace Sys2Proof

/-- A 64-bit word: every register, every bus datum, every binary64 pattern (R16, R120). -/
abbrev Word := BitVec 64

/-- A byte of the host window (R86). -/
abbrev Byte := BitVec 8

/-- A byte offset from BASE into the 2^28-byte host window (R80). -/
abbrev Offset := BitVec 28

/-- A 16-bit sample component, `s16` in two's complement (R16). -/
abbrev S16 := BitVec 16

/-- One I/Q pair: in-phase and quadrature parts (R125, R126). -/
structure IQ where
  i : S16
  q : S16
deriving DecidableEq, Repr

end Sys2Proof
end

