-- ==== Sys2Proof/Config.lean ====
section
/-! DEFINITION. What an implementation fixes (the parameters of spec/00_scope.md R7 to R11) and the values the spec
leaves open. A value left open is an opaque constant without a body: no proof can see what it is, so a claim holds
whatever it is. The functions the machine calls, with the properties the spec names, are built over these in
Machine/Numeric.lean and Machine/Ops.lean. -/

namespace Sys2Proof

/-- The implementation parameters that are readable in registers (R7, R8, R9; R52, R53, R54). -/
structure Params where
  /-- `BLOCK_LEN`: I/Q pairs in one SampleBlock (R7). -/
  blockLen : Nat
  /-- `SAMPLE_BYTES`: the transport's bytes per sample (R8). -/
  sampleBytes : Nat
  /-- `NMAX`: entries of the window and spectrum RAMs (R9). -/
  nmax : Nat
deriving DecidableEq, Repr

/-- The bounds the spec puts on the parameters: BLOCK_LEN even and in 2..2^24 (R7), SAMPLE_BYTES at least 1 (R8) and,
being shown in a 64-bit register (R53), below 2^64 (DEDUCED, log 4), NMAX in 2..2^21 (R9). -/
abbrev Params.Legal (p : Params) : Prop :=
  p.blockLen % 2 = 0 ∧ 2 ≤ p.blockLen ∧ p.blockLen ≤ 2 ^ 24 ∧
  1 ≤ p.sampleBytes ∧ p.sampleBytes < 2 ^ 64 ∧ 2 ≤ p.nmax ∧ p.nmax ≤ 2 ^ 21

/-- Which BLOCK_LEN this implementation has: open (R7; log 4). -/
opaque Config.blockLenSeed : Nat
/-- Which SAMPLE_BYTES this implementation has: open (R8; log 4). -/
opaque Config.sampleBytesSeed : Nat
/-- Which NMAX this implementation has: open (R9; log 4). -/
opaque Config.nmaxSeed : Nat
/-- Which 256 MiB page the platform puts the window at: open (R10; log 18). -/
opaque Config.baseSeed : Nat

/-- This implementation's parameters: some legal ones, no more is known. Every legal triple is the value for some seeds. -/
def Config.params : Params where
  blockLen := 2 * (1 + Config.blockLenSeed % 2 ^ 23)
  sampleBytes := 1 + Config.sampleBytesSeed % (2 ^ 64 - 1)
  nmax := 2 + Config.nmaxSeed % (2 ^ 21 - 1)

/-- `BASE`, the bus address of the window, aligned to 2^28 (R10). The block itself only sees offsets (R80). -/
def Config.base : Nat := Config.baseSeed * 2 ^ 28

/-- The bus address at which an offset of the window is reached (R10, R80). -/
def Config.busAddress (a : Offset) : Nat := Config.base + a.toNat

/-- A transport configuration, "rf_bandwidth_hz, local_oscillator_hz, rf_port and whatever else the transport's
`configure(stream_cfg)` consumes" (R14): bytes nobody here interprets (log 9). -/
abbrev StreamCfg := List Byte

/-- `STREAM_CFG`, "opaque value given to the transport": a parameter of XPORT, open, which the block never reads (R14). -/
opaque Config.streamCfg : StreamCfg

/-- cos64 away from the zeros (R11, D6, R241). -/
opaque Config.cosFree : Word → Word
/-- sin64 away from the zeros (R11, D6, R241). -/
opaque Config.sinFree : Word → Word
/-- Which zero sin64 gives at −0.0: open (log 6). -/
opaque Config.sinZeroSign : Bool
/-- log10_64 of an operand that is not a NaN (R11, R217). -/
opaque Config.log10Free : Word → Word
/-- cabs64 away from its stated cases (R11, R216, property CABS0). -/
opaque Config.cabsSeed : Word → Word → Nat
/-- dft64 away from its stated cases: entry `k` of the transform of `N` points with real and imaginary inputs (R11, R214). -/
opaque Config.dftFree : Nat → List Word → List Word → Nat → Word × Word
/-- The signs of the zeros of property DFT_ZERO, "all `+0.0` or `−0.0` output" (R214). -/
opaque Config.dftZeroSigns : Nat → List Word → List Word → Nat → Bool × Bool

/-- The arithmetic operations whose result can be a NaN. -/
inductive NanSource where
  | add | sub | mul | div | cabsRe | log10
deriving DecidableEq, Repr

/-- Which NaN an operation makes of its operands: no rule states the pattern (log 7). A function of the operands, so that
the datapath stays deterministic (R11, R220). -/
opaque Config.nanSeed : NanSource → Word → Word → Word

/-- The `k`-th draw (R17), "any value of the stated type, under no law". -/
opaque Config.drawWord : Nat → Word

/-- The arbitrary image RAM holds after the `k`-th reset, byte by byte of the window (R352). -/
opaque Config.ramImage : Nat → Nat → Byte

end Sys2Proof
end

