-- ==== Sys2Proof/Syntax.lean ====
section
/-! DEFINITION. The instructions of spectrum-core: one constructor of `Instr` per row of spec/opcode_table.json
(commands R154 to R159 and R123, bus accesses R151, R152, R163 to R165, transport requests R129), and the forms they
are carried in (spec/30_encoding.md R120, R133). -/

namespace Sys2Proof

/-- The registers of the map of spec/20_memory.md R81. -/
inductive Reg where
  | ctrl | cmd | status | fftSize | sampleRate | toneA | toneF1 | toneF2 | dbFloor | phase | phaseInc
  | rxCount | txCount | cycleCount | lastTxBytes | lastRxBytes | specSeq | exitStatus | blockLen | sampleBytes | nmax
deriving DecidableEq, Repr

/-- The registers the host may write in IDLE (R89, R164). -/
inductive ConfigReg where
  | ctrl | fftSize | sampleRate | toneA | toneF1 | toneF2 | dbFloor | phase
deriving DecidableEq, Repr

/-- The place of a configuration register in the register map (R81). -/
def ConfigReg.toReg : ConfigReg → Reg
  | .ctrl => .ctrl
  | .fftSize => .fftSize
  | .sampleRate => .sampleRate
  | .toneA => .toneA
  | .toneF1 => .toneF1
  | .toneF2 => .toneF2
  | .dbFloor => .dbFloor
  | .phase => .phase

/-- A 64-bit word of a host-writable RAM region: the 2^24-byte WIN region has 2^21 words (R82), the 2^26-byte RXBUF
region 2^23 (R83). -/
inductive RamWord where
  | win (j : BitVec 21)
  | rxbuf (m : BitVec 23)
deriving DecidableEq, Repr

/-- The command opcodes of R122. -/
inductive CmdOp where
  | nop | start | cancel | wgen | analyze | synth
deriving DecidableEq, Repr

/-- The transport requests of R62 and R129; `none` is the empty port. -/
inductive TReq where
  | none | configure | push | refill | releaseTx | releaseRx | close
deriving DecidableEq, Repr

/-- The instructions: one constructor per row of the opcode table. -/
inductive Instr where
  /-- NOP (R154). -/
  | nop
  /-- START (R155). -/
  | start
  /-- CANCEL (R156). -/
  | cancel
  /-- WGEN (R157). -/
  | wgen
  /-- ANALYZE (R158). -/
  | analyze
  /-- SYNTH (R159). -/
  | synth
  /-- RESERVED_CMD: a command word that names no command (R123). -/
  | reservedCmd (w : Word)
  /-- RD: a host read of `width` bits at an offset (R151). -/
  | rd (a : Offset) (width : Nat)
  /-- WR: a host write of `width` bits at an offset (R152). -/
  | wr (a : Offset) (width : Nat) (d : Word)
  /-- WR.STATUS (R163). -/
  | wrStatus (d : Word)
  /-- WR.CONFIG (R164). -/
  | wrConfig (r : ConfigReg) (d : Word)
  /-- WR.RAM (R165). -/
  | wrRam (t : RamWord) (d : Word)
  /-- TREQ.CONFIGURE (R129, R261). -/
  | treqConfigure
  /-- TREQ.PUSH (R129, R261). -/
  | treqPush
  /-- TREQ.REFILL (R129, R261). -/
  | treqRefill
  /-- TREQ.RELEASE_TX (R129, R261). -/
  | treqReleaseTx
  /-- TREQ.RELEASE_RX (R129, R261). -/
  | treqReleaseRx
  /-- TREQ.CLOSE (R129, R261). -/
  | treqClose
deriving DecidableEq, Repr

/-- A host bus transaction: "its list of bus transactions `(W|R, offset, data)`" (R133), with the width of the access,
which R87 judges. A width is a number of bits (log 19). -/
inductive BusAccess where
  | read (a : Offset) (width : Nat)
  | write (a : Offset) (width : Nat) (d : Word)
deriving DecidableEq, Repr

/-- What carries an instruction: a bus transaction to the block, or a word on the transport port (R129). -/
inductive Packet where
  | bus (b : BusAccess)
  | port (w : Word)
deriving DecidableEq, Repr

end Sys2Proof
end

