-- ==== Sys2Proof/Machine/AddressMap.lean ====
section
/-! DEFINITION. The address map of the host window (spec/20_memory.md R81 to R85): where every register and every RAM
entry stands, what an offset names, and the command words written to CMD (spec/30_encoding.md R122). -/

namespace Sys2Proof

/-- The offset of a register (the table of R81). -/
def Reg.offset : Reg → Nat
  | .ctrl => 0x000
  | .cmd => 0x008
  | .status => 0x010
  | .fftSize => 0x018
  | .sampleRate => 0x020
  | .toneA => 0x028
  | .toneF1 => 0x030
  | .toneF2 => 0x038
  | .dbFloor => 0x040
  | .phase => 0x048
  | .phaseInc => 0x050
  | .rxCount => 0x058
  | .txCount => 0x060
  | .cycleCount => 0x068
  | .lastTxBytes => 0x070
  | .lastRxBytes => 0x078
  | .specSeq => 0x080
  | .exitStatus => 0x088
  | .blockLen => 0x090
  | .sampleBytes => 0x098
  | .nmax => 0x0A0

/-- The registers in the order of the map (R81). -/
def Reg.all : List Reg :=
  [.ctrl, .cmd, .status, .fftSize, .sampleRate, .toneA, .toneF1, .toneF2, .dbFloor, .phase, .phaseInc,
   .rxCount, .txCount, .cycleCount, .lastTxBytes, .lastRxBytes, .specSeq, .exitStatus, .blockLen, .sampleBytes, .nmax]

/-- The register at an offset, if one stands there (R81). -/
def regAt (a : Nat) : Option Reg := Reg.all.find? fun r => r.offset == a

/-- The configuration register a register is, if it is one (R89). -/
def Reg.config? : Reg → Option ConfigReg
  | .ctrl => some .ctrl
  | .fftSize => some .fftSize
  | .sampleRate => some .sampleRate
  | .toneA => some .toneA
  | .toneF1 => some .toneF1
  | .toneF2 => some .toneF2
  | .dbFloor => some .dbFloor
  | .phase => some .phase
  | .cmd | .status | .phaseInc | .rxCount | .txCount | .cycleCount | .lastTxBytes | .lastRxBytes | .specSeq
  | .exitStatus | .blockLen | .sampleBytes | .nmax => none

/-- First offset of the WIN region (R82). -/
def winBase : Nat := 0x01000000
/-- First offset of the SPEC region (R85). -/
def specBase : Nat := 0x02000000
/-- First offset of the RXBUF region (R83). -/
def rxBase : Nat := 0x04000000
/-- First offset of the TXBUF region (R84). -/
def txBase : Nat := 0x08000000
/-- First offset past the TXBUF region; from here on nothing stands (R84). -/
def mapEnd : Nat := 0x0C000000

/-- Offset of `WIN[j]` (R82). -/
def winAddr (j : Nat) : Nat := winBase + 8 * j
/-- Offset of `SPEC[k]`, frequency word first (R85, R128). -/
def specAddr (k : Nat) : Nat := specBase + 16 * k
/-- Offset of the pair `RXBUF[n]` (R83, R125). -/
def rxAddr (n : Nat) : Nat := rxBase + 4 * n
/-- Offset of the pair `TXBUF[n]` (R84, R125). -/
def txAddr (n : Nat) : Nat := txBase + 4 * n

/-- The word of a RAM region a host write aims at, as an offset (R82, R83). -/
def RamWord.offset : RamWord → Nat
  | .win j => winBase + 8 * j.toNat
  | .rxbuf m => rxBase + 8 * m.toNat

/-- What a legal access names: a register, or a 64-bit word of a RAM (two pairs `2m`, `2m+1` in a sample buffer). -/
inductive Target where
  | reg (r : Reg)
  | win (j : Nat)
  | specFreq (k : Nat)
  | specMag (k : Nat)
  | rxbuf (m : Nat)
  | txbuf (m : Nat)
deriving DecidableEq, Repr

/-- What an offset names in an implementation with these parameters, none for a misaligned offset or one that holds
nothing (R81 to R85, R87). -/
def targetOf (p : Params) (a : Nat) : Option Target :=
  if a % 8 ≠ 0 then none
  else if a < winBase then (regAt a).map .reg
  else if a < specBase then
    if (a - winBase) / 8 < p.nmax then some (.win ((a - winBase) / 8)) else none
  else if a < rxBase then
    if (a - specBase) / 16 < p.nmax then
      if a % 16 = 0 then some (.specFreq ((a - specBase) / 16)) else some (.specMag ((a - specBase) / 16))
    else none
  else if a < txBase then
    if (a - rxBase) / 8 < p.blockLen / 2 then some (.rxbuf ((a - rxBase) / 8)) else none
  else if a < mapEnd then
    if (a - txBase) / 8 < p.blockLen / 2 then some (.txbuf ((a - txBase) / 8)) else none
  else none

/-- The target of an access of `width` bits at an offset, none where the access is illegal: "legal only if it is 64 bits
wide, its offset is a multiple of 8, and the offset is one that … holds a word" (R87). -/
def legalTarget (p : Params) (a : Offset) (width : Nat) : Option Target :=
  if width = 64 then targetOf p a.toNat else none

/-- The offset of a target (R81 to R85). -/
def Target.offset : Target → Nat
  | .reg r => r.offset
  | .win j => winBase + 8 * j
  | .specFreq k => specBase + 16 * k
  | .specMag k => specBase + 16 * k + 8
  | .rxbuf m => rxBase + 8 * m
  | .txbuf m => txBase + 8 * m

/-- Which write of a bus transaction a 64-bit aligned offset selects, by the offset alone (R152): the command register,
STATUS, a configuration register, a word of a host-writable RAM region, or any other. -/
inductive WriteClass where
  | command
  | status
  | config (r : ConfigReg)
  | ram (t : RamWord)
  | other
deriving DecidableEq, Repr

/-- The class of a write of `width` bits at an offset (R152). Whether the RAM word exists is judged when it runs (R87). -/
def writeClass (a : Offset) (width : Nat) : WriteClass :=
  if width ≠ 64 ∨ a.toNat % 8 ≠ 0 then .other
  else if a.toNat < winBase then
    match regAt a.toNat with
    | some .cmd => .command
    | some .status => .status
    | some r => match r.config? with
      | some c => .config c
      | none => .other
    | none => .other
  else if a.toNat < specBase then .ram (.win (BitVec.ofNat 21 ((a.toNat - winBase) / 8)))
  else if rxBase ≤ a.toNat ∧ a.toNat < txBase then .ram (.rxbuf (BitVec.ofNat 23 ((a.toNat - rxBase) / 8)))
  else .other

/-- The command word of an opcode: `zext_64(OP)` (R122). -/
def CmdOp.word : CmdOp → Word
  | .nop => 0x00
  | .start => 0x01
  | .cancel => 0x02
  | .wgen => 0x10
  | .analyze => 0x11
  | .synth => 0x12

/-- The command words of R122. -/
def CmdOp.words : List Word :=
  [CmdOp.nop.word, CmdOp.start.word, CmdOp.cancel.word, CmdOp.wgen.word, CmdOp.analyze.word, CmdOp.synth.word]

end Sys2Proof
end

