-- ==== Sys2Proof/WellFormed.lean ====
section
/-! DEFINITION. Which terms of `Instr` stand for something the hardware can be given. Two rows of the opcode table
are "everything else" rows, and a term of theirs must not be one that another row names: RESERVED_CMD holds no command
word of R122, and WR no write that WR.STATUS, WR.CONFIG, WR.RAM or a command row names (log 12). Every other term is
well formed by its types: offsets have 28 bits, RAM words the bits of their region. -/

namespace Sys2Proof

/-- Well-formedness of an instruction. -/
def Instr.wellFormed : Instr → Bool
  | .reservedCmd w => !CmdOp.words.contains w
  | .wr a width _ => writeClass a width == .other
  | .nop | .start | .cancel | .wgen | .analyze | .synth | .rd _ _ | .wrStatus _ | .wrConfig _ _ | .wrRam _ _
  | .treqConfigure | .treqPush | .treqRefill | .treqReleaseTx | .treqReleaseRx | .treqClose => true

end Sys2Proof
end

