-- ==== Sys2Proof/Decode.lean ====
section
/-! DEFINITION. The decoders, total on every word and every bus transaction (spec/30_encoding.md R123, R129, R131,
spec/40_host_commands.md R152), and after them the encoder, from the same tables. -/

namespace Sys2Proof

/-- The opcode table of R122: the value of OP and its mnemonic. -/
def opTable : List (BitVec 8 × CmdOp) :=
  [(0x00, .nop), (0x01, .start), (0x02, .cancel), (0x10, .wgen), (0x11, .analyze), (0x12, .synth)]

/-- "`decode(w) = mnemonic(OP)` if `w[63:8] = 0` and `w[7:0]` is in the table of rule R122, else `RESERVED`" (R131);
none is RESERVED. -/
def decodeOp (w : Word) : Option CmdOp :=
  if w.extractLsb' 8 56 = 0 then opTable.lookup (w.extractLsb' 0 8) else none

/-- The instruction a command word is (R131). -/
def decodeCmd (w : Word) : Instr :=
  match decodeOp w with
  | some .nop => .nop
  | some .start => .start
  | some .cancel => .cancel
  | some .wgen => .wgen
  | some .analyze => .analyze
  | some .synth => .synth
  | none => .reservedCmd w

/-- The instruction a bus transaction is (R151, R152): every transaction is one. -/
def decodeBus : BusAccess → Instr
  | .read a width => .rd a width
  | .write a width d =>
    match writeClass a width with
    | .command => decodeCmd d
    | .status => .wrStatus d
    | .config r => .wrConfig r d
    | .ram t => .wrRam t d
    | .other => .wr a width d

/-- Why a word on the transport port is no request (R129). -/
inductive Reject where
  /-- TOP is 0: NONE, the port is empty. -/
  | noRequest
  /-- TOP is 7, which is "never issued". -/
  | topNeverIssued
  /-- A bit of 63:3 is set, which is "always 0". -/
  | upperBitsSet
deriving DecidableEq, Repr

/-- The instruction a word on the transport port is (the table of R129), or why it is none. -/
def decodePort (w : Word) : Except Reject Instr :=
  if w.extractLsb' 3 61 ≠ 0 then .error .upperBitsSet
  else match w.extractLsb' 0 3 with
    | 1#3 => .ok .treqConfigure
    | 2#3 => .ok .treqPush
    | 3#3 => .ok .treqRefill
    | 4#3 => .ok .treqReleaseTx
    | 5#3 => .ok .treqReleaseRx
    | 6#3 => .ok .treqClose
    | 0#3 => .error .noRequest
    | _ => .error .topNeverIssued

/-- The instruction a packet carries, or why it carries none. -/
def decode : Packet → Except Reject Instr
  | .bus b => .ok (decodeBus b)
  | .port w => decodePort w

/-- The TREQ word of a request (R129); 0 for the empty port. -/
def TReq.word : TReq → Word
  | .none => 0
  | .configure => 1
  | .push => 2
  | .refill => 3
  | .releaseTx => 4
  | .releaseRx => 5
  | .close => 6

/-- The request an instruction of the transport port is. -/
def Instr.request? : Instr → Option TReq
  | .treqConfigure => some .configure
  | .treqPush => some .push
  | .treqRefill => some .refill
  | .treqReleaseTx => some .releaseTx
  | .treqReleaseRx => some .releaseRx
  | .treqClose => some .close
  | .nop | .start | .cancel | .wgen | .analyze | .synth | .reservedCmd _ | .rd _ _ | .wr _ _ _ | .wrStatus _
  | .wrConfig _ _ | .wrRam _ _ => none

/-- A 64-bit write of a word to a register. -/
def writeReg (r : Reg) (d : Word) : BusAccess := .write (BitVec.ofNat 28 r.offset) 64 d

/-- The packet that carries an instruction: a command word is written to CMD (R121, R153), a bus access is its own
transaction (R133), a request is its TREQ word (R129). -/
def encode : Instr → Packet
  | .nop => .bus (writeReg .cmd CmdOp.nop.word)
  | .start => .bus (writeReg .cmd CmdOp.start.word)
  | .cancel => .bus (writeReg .cmd CmdOp.cancel.word)
  | .wgen => .bus (writeReg .cmd CmdOp.wgen.word)
  | .analyze => .bus (writeReg .cmd CmdOp.analyze.word)
  | .synth => .bus (writeReg .cmd CmdOp.synth.word)
  | .reservedCmd w => .bus (writeReg .cmd w)
  | .rd a width => .bus (.read a width)
  | .wr a width d => .bus (.write a width d)
  | .wrStatus d => .bus (writeReg .status d)
  | .wrConfig r d => .bus (writeReg r.toReg d)
  | .wrRam t d => .bus (.write (BitVec.ofNat 28 t.offset) 64 d)
  | .treqConfigure => .port TReq.configure.word
  | .treqPush => .port TReq.push.word
  | .treqRefill => .port TReq.refill.word
  | .treqReleaseTx => .port TReq.releaseTx.word
  | .treqReleaseRx => .port TReq.releaseRx.word
  | .treqClose => .port TReq.close.word

/-- The instruction a word of the opcode table is. The table gives words of 64 bits to two ports, command words to CMD and
requests to the transport port, and a bare word does not say which port carries it (log 10): it is read as the command it
names, else as the request it names, else as a reserved command word. A bit above the format's 64 is no word of the table. -/
def decodeTableWord (nbits w : Nat) : Option Instr :=
  if nbits = 64 ∧ w < 2 ^ 64 then
    match decodeOp (BitVec.ofNat 64 w), decodePort (BitVec.ofNat 64 w) with
    | some _, _ => some (decodeCmd (BitVec.ofNat 64 w))
    | none, .ok i => some i
    | none, .error _ => some (decodeCmd (BitVec.ofNat 64 w))
  else none

end Sys2Proof
end

