-- ==== Sys2Proof/Machine/State.lean ====
section
/-! DEFINITION. The state of spectrum-core (spec/10_state.md R30 to R63), its value right after reset (R68), and the
reasons the machine can stop. Beside the block's state stand eight fields of the model's own, said as such. -/

namespace Sys2Proof.Machine

/-- STATUS.STATE (R42). -/
inductive TopState where
  | idle | init | streaming | shuttingDown | terminated | diag
deriving DecidableEq, Repr

/-- The (STATE, SUB) pairs of R43, the pending SEQ step each; "Other (STATE, SUB) pairs are never held". -/
inductive SeqPos where
  | idle
  | initCheck | initCfgWait | initBuild
  | strCk | strPushWait | strRefillWait | strAnalyze | strCount | strSynth
  | sdReleaseLocal | sdRelTxWait | sdRelRxWait | sdCloseWait
  | terminated
  | diagWgen | diagAnalyze | diagSynth
deriving DecidableEq, Repr

/-- The state a position belongs to (R43). -/
def SeqPos.state : SeqPos → TopState
  | .idle => .idle
  | .initCheck | .initCfgWait | .initBuild => .init
  | .strCk | .strPushWait | .strRefillWait | .strAnalyze | .strCount | .strSynth => .streaming
  | .sdReleaseLocal | .sdRelTxWait | .sdRelRxWait | .sdCloseWait => .shuttingDown
  | .terminated => .terminated
  | .diagWgen | .diagAnalyze | .diagSynth => .diag

/-- STATUS.ERR, the fatal error kinds (R44). -/
inductive ErrKind where
  | none | configuration | divideByZero | transportWrite | transportRead
deriving DecidableEq, Repr

/-- STATUS.CMDERR_CAUSE (R48). -/
inductive CmdCause where
  | none | reserved | state | config | divzero
deriving DecidableEq, Repr

/-- What the host bus last answered (R151, R152, R328; log 8). -/
inductive BusResp where
  /-- No access has been answered since reset. -/
  | none
  /-- A legal read returned these 64 bits. -/
  | data (v : Word)
  /-- A legal write was completed (taken, refused with ACCERR, or a command executed or rejected). -/
  | ack
  /-- BUS_ERR: the access was illegal. -/
  | err
deriving DecidableEq, Repr

/-- An operation of a host program, in the order HOST issues them (R95, R133, R134). -/
inductive HostOp where
  /-- One bus transaction. -/
  | access (b : BusAccess)
  /-- "repeat `rd` until `(v & mask) = value`" (R134): one read in each turn of HOST, until one returns such a `v`. -/
  | poll (a : Offset) (mask value : Word)
deriving DecidableEq, Repr

/-- A turn of one agent (R3, R18). -/
inductive Event where
  /-- HOST goes on with its program. -/
  | host
  /-- SEQ takes the pending step, if it is enabled (R260). -/
  | seq
  /-- XPORT answers the outstanding request, if there is one (R261). -/
  | xport
  /-- RESET takes its step (R350). -/
  | reset
deriving DecidableEq, Repr

/-- The contents of the RAMs: (offset, byte) pairs, offsets strictly rising. An offset that is not listed has not been
written since reset, and reads as the reset image (R352; log 3). -/
abbrev Memory := List Host.Cell

structure State where
  /-- BLOCK_LEN, SAMPLE_BYTES, NMAX: the constant registers (R52, R53, R54). -/
  par : Params
  /-- CTRL.WRAP (R31). -/
  ctrlWrap : Bool
  /-- FFT_SIZE (R33). -/
  fftSize : Word
  /-- SAMPLE_RATE (R34). -/
  sampleRate : Word
  /-- TONE_A (R35). -/
  toneA : Word
  /-- TONE_F1 (R36). -/
  toneF1 : Word
  /-- TONE_F2 (R37). -/
  toneF2 : Word
  /-- DB_FLOOR (R38). -/
  dbFloor : Word
  /-- PHASE (R39). -/
  phase : Word
  /-- PHASE_INC (R40). -/
  phaseInc : Word
  /-- STATUS.STATE and STATUS.SUB (R42, R43). -/
  seq : SeqPos
  /-- STATUS.ERR (R44). -/
  err : ErrKind
  /-- STATUS.CANCEL (R45). -/
  cancel : Bool
  /-- STATUS.TXOWN (R46). -/
  txOwn : Bool
  /-- STATUS.RXOWN (R46). -/
  rxOwn : Bool
  /-- STATUS.PLAN_VALID (R63). -/
  planValid : Bool
  /-- STATUS.XPORT_OPEN (R63). -/
  xportOpen : Bool
  /-- STATUS.SINK_OPEN (R63). -/
  sinkOpen : Bool
  /-- STATUS.CMDERR (R48). -/
  cmdErr : Bool
  /-- STATUS.CMDERR_CAUSE (R48). -/
  cmdErrCause : CmdCause
  /-- STATUS.ACCERR (R49). -/
  accErr : Bool
  /-- RX_COUNT (R50). -/
  rxCount : Word
  /-- TX_COUNT (R50). -/
  txCount : Word
  /-- CYCLE_COUNT (R51). -/
  cycleCount : Word
  /-- LAST_TX_BYTES (R55). -/
  lastTxBytes : Word
  /-- LAST_RX_BYTES (R55). -/
  lastRxBytes : Word
  /-- SPEC_SEQ (R56). -/
  specSeq : Word
  /-- XREQ, the request issued and not yet answered (R62). -/
  xreq : TReq
  /-- XRESP, the answer delivered and not yet consumed (R62). -/
  xresp : Option Word
  /-- The RAMs WIN, SPEC, RXBUF and TXBUF (R58 to R61). -/
  mem : Memory
  /-- The model's own: how many resets there have been, which selects the image unwritten RAM reads as (R352; log 3). -/
  ramEpoch : Nat
  /-- The model's own: the last answer of the host bus (log 8). -/
  bus : BusResp
  /-- The model's own: draws (R17) whose values are already fixed, the next first (log 2). -/
  oracle : List Word
  /-- The model's own: how many draws have been taken (R17; log 2). -/
  drawn : Nat
  /-- The model's own: the outgoing block the transport took at the last PUSH (R261; log 9). -/
  sent : List IQ
  /-- The model's own: the configuration the transport took at the last CONFIGURE (R14, R261; log 9). -/
  configured : Option StreamCfg
  /-- The model's own: the operations HOST has still to perform, the next first (R95; log 13). -/
  program : List HostOp
  /-- The model's own: the agents' turns still to come, the next first; where it ends, SEQ and XPORT go on by themselves
  (R18, R364; log 1, log 21). -/
  agenda : List Event
deriving DecidableEq, Repr

/-- Why the machine can stop with a fault. -/
inductive Fault where
  /-- A SEQ step would issue a transport request while another request or answer is outstanding, which is "undefined per
  the transport contract" (R274, 93 item 1). Raised by `issue` (Machine/Ops.lean). Safe: the block never does so
  (R262), and no state that meets the invariant of Safety.lean reaches it (log 11). -/
  | requestOutstanding
deriving DecidableEq, Repr

/-- Why the machine can refuse. -/
inductive Refusal where
  /-- The instruction has no meaning in this model. Raised by exec's arm of such an instruction (there is none). Safe. -/
  | notModelled (mnemonic : String)
deriving DecidableEq, Repr

/-- The result of an agent's step. -/
abbrev Res := Host.Outcome State Fault Refusal

/-- The machine right after reset (R68, R354): in IDLE, every register at its reset value, the transport port empty,
nothing written to RAM. The parameters are this implementation's (R351). The model's own fields start empty (log 17). -/
def State.reset : State where
  par := Config.params
  ctrlWrap := false
  fftSize := 0
  sampleRate := 0
  toneA := 0
  toneF1 := 0
  toneF2 := 0
  dbFloor := 0xC072C00000000000
  phase := 0
  phaseInc := 0
  seq := .idle
  err := .none
  cancel := false
  txOwn := false
  rxOwn := false
  planValid := false
  xportOpen := false
  sinkOpen := false
  cmdErr := false
  cmdErrCause := .none
  accErr := false
  rxCount := 0
  txCount := 0
  cycleCount := 0
  lastTxBytes := 0
  lastRxBytes := 0
  specSeq := 0
  xreq := .none
  xresp := none
  mem := []
  ramEpoch := 0
  bus := .none
  oracle := []
  drawn := 0
  sent := []
  configured := none
  program := []
  agenda := []

end Sys2Proof.Machine
end

