-- ==== Sys2Proof/Machine/Flags.lean ====
section
/-! DEFINITION. STATUS: the codes of its fields (spec/10_state.md R42 to R44, R48), its assembly at a read (R41, R47) and
its write-one-to-clear bits (spec/40_host_commands.md R163). spectrum-core has no arithmetic flags (R66). -/

namespace Sys2Proof.Machine

/-- The value of STATUS.STATE (R42). -/
def TopState.code : TopState → BitVec 3
  | .idle => 0
  | .init => 1
  | .streaming => 2
  | .shuttingDown => 3
  | .terminated => 4
  | .diag => 5

/-- The value of STATUS.SUB (R43). -/
def SeqPos.sub : SeqPos → BitVec 3
  | .idle | .initCheck | .strCk | .sdReleaseLocal | .terminated | .diagWgen => 0
  | .initCfgWait | .strPushWait | .sdRelTxWait | .diagAnalyze => 1
  | .initBuild | .strRefillWait | .sdRelRxWait | .diagSynth => 2
  | .strAnalyze | .sdCloseWait => 3
  | .strCount => 4
  | .strSynth => 5

/-- The value of STATUS.ERR (R44). -/
def ErrKind.code : ErrKind → BitVec 3
  | .none => 0
  | .configuration => 1
  | .divideByZero => 2
  | .transportWrite => 3
  | .transportRead => 4

/-- The value of STATUS.CMDERR_CAUSE (R48). -/
def CmdCause.code : CmdCause → BitVec 3
  | .none => 0
  | .reserved => 1
  | .state => 2
  | .config => 3
  | .divzero => 4

/-- STATUS.XBUSY "reads `(XREQ ≠ NONE) or (XRESP ≠ none)`" (R47). -/
def State.xbusy (s : State) : Bool := s.xreq != .none || s.xresp.isSome

/-- One flag as a number. -/
def flag (b : Bool) : Nat := if b then 1 else 0

/-- STATUS "assembled from its fields at the time of the read" (R88): each field at the lowest bit the layout of R41 gives
it; the reserved bits 3, 7, 11, 19, 23:22 and 63:27 read 0. -/
def State.statusWord (s : State) : Word :=
  BitVec.ofNat 64 (
    s.seq.state.code.toNat
    + 2 ^ 4 * s.seq.sub.toNat
    + 2 ^ 8 * s.err.code.toNat
    + 2 ^ 12 * flag s.cancel
    + 2 ^ 13 * flag s.txOwn
    + 2 ^ 14 * flag s.rxOwn
    + 2 ^ 15 * flag s.planValid
    + 2 ^ 16 * flag s.xportOpen
    + 2 ^ 17 * flag s.sinkOpen
    + 2 ^ 18 * flag s.xbusy
    + 2 ^ 20 * flag s.cmdErr
    + 2 ^ 21 * flag s.accErr
    + 2 ^ 24 * s.cmdErrCause.code.toNat)

/-- The write-one-to-clear of STATUS: bit 20 clears CMDERR and CMDERR_CAUSE, bit 21 clears ACCERR, "every other bit of d is
ignored" (R163). -/
def State.statusW1C (s : State) (d : Word) : State :=
  { s with
    cmdErr := if d.getLsbD 20 then false else s.cmdErr
    cmdErrCause := if d.getLsbD 20 then .none else s.cmdErrCause
    accErr := if d.getLsbD 21 then false else s.accErr }

end Sys2Proof.Machine
end

