-- ==== Sys2Proof/Machine/Float.lean ====
section
/-! DEFINITION. Binary64 arithmetic on bit patterns (spec/00_scope.md R11, R16, spec/30_encoding.md R127): each
operation takes the exact values of its operands, computes the exact result, and rounds once to nearest, ties to even.

A finite pattern's value is an integer times 2^-1074; `scaled` is that integer, so sums, products and quotients of finite
values are exact integer or rational expressions and one function rounds them all. -/

namespace Sys2Proof.Machine

/-- Bit 63: the sign (R127). -/
def F64.sign (x : Word) : Bool := x.toNat / 2 ^ 63 = 1

/-- Bits 62:52: the biased exponent (R127). -/
def F64.biasedExp (x : Word) : Nat := x.toNat / 2 ^ 52 % 2 ^ 11

/-- Bits 51:0: the fraction (R127). -/
def F64.frac (x : Word) : Nat := x.toNat % 2 ^ 52

/-- `isFinite`: neither an infinity nor a NaN. -/
def F64.isFinite (x : Word) : Bool := F64.biasedExp x != 2047

/-- `isNaN`. -/
def F64.isNaN (x : Word) : Bool := F64.biasedExp x == 2047 && F64.frac x != 0

/-- An infinity of either sign. -/
def F64.isInf (x : Word) : Bool := F64.biasedExp x == 2047 && F64.frac x == 0

/-- A zero of either sign: IEEE equality with 0.0 (R217). -/
def F64.isZero (x : Word) : Bool := F64.biasedExp x == 0 && F64.frac x == 0

/-- `x > 0` for a finite or infinite `x`: not a NaN, not a zero, sign clear. -/
def F64.isPos (x : Word) : Bool := !F64.isNaN x && !F64.isZero x && !F64.sign x

/-- The magnitude of a finite value as a multiple of 2^-1074. -/
def F64.mag (x : Word) : Nat :=
  if F64.biasedExp x = 0 then F64.frac x else (2 ^ 52 + F64.frac x) * 2 ^ (F64.biasedExp x - 1)

/-- The value of a finite pattern as a multiple of 2^-1074. -/
def F64.scaled (x : Word) : Int := if F64.sign x then -(F64.mag x : Int) else (F64.mag x : Int)

/-- The value 1 as a multiple of 2^-1074. -/
def F64.unit : Nat := 2 ^ 1074

/-- The step of the greatest finite values, `2^971`, as a multiple of 2^-1074. -/
def F64.topStep : Nat := 2 ^ 2045

/-- A pattern from its sign and its low 63 bits. -/
def F64.pack (sign : Bool) (low : Nat) : Word := BitVec.ofNat 64 ((if sign then 2 ^ 63 else 0) + low)

/-- The low 63 bits of infinity. -/
def F64.infLow : Nat := 2047 * 2 ^ 52

/-- An infinity. -/
def F64.inf (sign : Bool) : Word := F64.pack sign F64.infLow

/-- A zero. -/
def F64.zero (sign : Bool) : Word := F64.pack sign 0

/-- The NaN an operation makes: any NaN pattern, which one is open (log 7). -/
def F64.nan (op : NanSource) (a b : Word) : Word :=
  F64.pack (F64.sign (Config.nanSeed op a b)) (F64.infLow + 1 + (Config.nanSeed op a b).toNat % (2 ^ 52 - 1))

/-- The quotient of naturals `n / d` rounded to the nearest integer, ties to even. -/
def roundDiv (n d : Nat) : Nat :=
  let q := n / d
  let r := n % d
  if 2 * r > d ∨ (2 * r = d ∧ q % 2 = 1) then q + 1 else q

/-- The exponent step of the binary64 values around `n / d` (in multiples of 2^-1074): those values are multiples of
`2 ^ roundShift n d`. Zero for subnormals and the smallest normals. -/
def roundShift (n d : Nat) : Nat := Nat.log2 (n / d) - 52

/-- The low 63 bits of the binary64 value nearest to `n / d` multiples of 2^-1074, ties to even, infinity on overflow
(R11). With `E` the step exponent the significand is `n / (d·2^E)` rounded, and `E·2^52` plus the significand is the
pattern, a carry out of the significand moving into the exponent as it should. -/
def roundLow (n d : Nat) : Nat :=
  let e := roundShift n d
  min (e * 2 ^ 52 + roundDiv n (d * 2 ^ e)) F64.infLow

/-- The binary64 value nearest to plus or minus `n / d` multiples of 2^-1074. -/
def F64.round (sign : Bool) (n d : Nat) : Word := F64.pack sign (roundLow n d)

/-- The binary64 value nearest to an integer multiple of 2^-1074; `zeroSign` is the sign an exact zero takes. -/
def F64.roundInt (zeroSign : Bool) (v : Int) : Word :=
  if v = 0 then F64.zero zeroSign else F64.round (decide (v < 0)) v.natAbs 1

/-- Change the sign. -/
def F64.neg (x : Word) : Word := F64.pack (!F64.sign x) (x.toNat % 2 ^ 63)

/-- Addition of values that are not NaNs; `op` and the operands name the NaN of an invalid sum. -/
def F64.addCore (op : NanSource) (a b a0 b0 : Word) : Word :=
  if F64.isInf a then
    if F64.isInf b && (F64.sign a != F64.sign b) then F64.nan op a0 b0 else a
  else if F64.isInf b then b
  else F64.roundInt (F64.sign a && F64.sign b) (F64.scaled a + F64.scaled b)

/-- `fl(a + b)`. -/
def F64.add (a b : Word) : Word :=
  if F64.isNaN a || F64.isNaN b then F64.nan .add a b else F64.addCore .add a b a b

/-- `fl(a - b)`. -/
def F64.sub (a b : Word) : Word :=
  if F64.isNaN a || F64.isNaN b then F64.nan .sub a b else F64.addCore .sub a (F64.neg b) a b

/-- `fl(a * b)`. -/
def F64.mul (a b : Word) : Word :=
  let s := F64.sign a != F64.sign b
  if F64.isNaN a || F64.isNaN b then F64.nan .mul a b
  else if F64.isInf a || F64.isInf b then
    if F64.isZero a || F64.isZero b then F64.nan .mul a b else F64.inf s
  else if F64.isZero a || F64.isZero b then F64.zero s
  else F64.round s (F64.mag a * F64.mag b) F64.unit

/-- `fl(a / b)`. -/
def F64.div (a b : Word) : Word :=
  let s := F64.sign a != F64.sign b
  if F64.isNaN a || F64.isNaN b then F64.nan .div a b
  else if F64.isInf a then
    if F64.isInf b then F64.nan .div a b else F64.inf s
  else if F64.isInf b then F64.zero s
  else if F64.isZero b then
    if F64.isZero a then F64.nan .div a b else F64.inf s
  else if F64.isZero a then F64.zero s
  else F64.round s (F64.mag a * F64.unit) (F64.mag b)

/-- `real(i)`: the binary64 value of an integer, "exact for `|i| <= 2^53`" (R16). -/
def F64.ofInt (i : Int) : Word := F64.roundInt false (i * F64.unit)

/-- `trunc(x)`: "the integer part of a finite real `x` rounded toward zero" (R16). -/
def F64.trunc (x : Word) : Int :=
  let t : Int := (F64.mag x / F64.unit : Nat)
  if F64.sign x then -t else t

end Sys2Proof.Machine
end

