-- ==== Sys2Proof/Machine/Numeric.lean ====
section
/-! DEFINITION. The numeric parameters of the datapath, cos64, sin64, log10_64, cabs64 and dft64 (spec/00_scope.md R11):
total deterministic functions of which the spec gives named properties (spec/92_eei_decisions.md D6) and a few stated
cases. Each is its stated cases over an opaque constant of Config, so every function that has the properties is one of
these and a claim about the machine holds for all of them (log 5, log 6). -/

namespace Sys2Proof.Machine

/-- The binary64 value 1.0. -/
def F64.one : Word := 0x3FF0000000000000

/-- `cos64`; COS0: "`cos64(+0.0) = 1.0`" (D6), and 1.0 at −0.0 too, which R241 states through "`t = 0` gives ... `2A`" and
"`f1 = f2 = 0.0`, any `t`", since the argument is then a zero of either sign (log 6). -/
def cos64 (x : Word) : Word := if F64.isZero x then F64.one else Config.cosFree x

/-- `sin64`; SIN0: "`sin64(+0.0) = +0.0`" (D6); at −0.0 a zero, of an open sign, as the same lines of R241 need (log 6). -/
def sin64 (x : Word) : Word :=
  if x = 0 then 0 else if F64.isZero x then F64.zero Config.sinZeroSign else Config.sinFree x

/-- `log10_64`; a NaN gives a NaN ("`m_k` NaN → NaN", R217; log 6). -/
def log10_64 (x : Word) : Word := if F64.isNaN x then F64.nan .log10 x 0 else Config.log10Free x

/-- `cabs64`; CABS0: `+0.0` exactly when both parts are zeros (D6, R216); "an infinite part gives `+∞`; a NaN part with no
infinite part gives NaN" (R216; log 6). Elsewhere any pattern but `+0.0`. -/
def cabs64 (re im : Word) : Word :=
  if F64.isInf re || F64.isInf im then F64.inf false
  else if F64.isNaN re || F64.isNaN im then F64.nan .cabsRe re im
  else if F64.isZero re && F64.isZero im then 0
  else BitVec.ofNat 64 (1 + Config.cabsSeed re im % (2 ^ 64 - 1))

/-- Entry `k` of `dft64(N, xr, xi)`: "`N = 1` gives `X[0] = x[0]`" (R214), DFT_ZERO "all-zero input gives all `+0.0` or
`−0.0` output" (R214, D6); elsewhere open. Determinism (DFT_DET) is its being a function. -/
def dft64 (n : Nat) (xr xi : List Word) (k : Nat) : Word × Word :=
  if n = 1 then (xr.headD 0, xi.headD 0)
  else if xr.all F64.isZero && xi.all F64.isZero then
    (F64.zero (Config.dftZeroSigns n xr xi k).1, F64.zero (Config.dftZeroSigns n xr xi k).2)
  else Config.dftFree n xr xi k

end Sys2Proof.Machine
end

