-- ==== Sys2Proof/Machine/Memory.lean ====
section
/-! DEFINITION. The RAMs as a list of (offset, byte) pairs in one canonical form (offsets strictly rising), and the
accesses to them: bytes, little-endian groups of bytes (spec/20_memory.md R86), and runs of equal entries. -/

namespace Sys2Proof.Machine

/-- Every listed offset lies above `lo` and the offsets rise strictly. -/
def Memory.risesFrom : Nat → Memory → Bool
  | _, [] => true
  | lo, (a, _) :: rest => decide (lo ≤ a) && Memory.risesFrom (a + 1) rest

/-- The canonical form: offsets strictly rising. An unlisted offset reads as "not written", so no entry can equal what an
unlisted offset reads as, and equal memories are equal lists (log 3). -/
def Memory.wf (m : Memory) : Bool := Memory.risesFrom 0 m

/-- The byte written at an offset, none if nothing has been written there since reset. -/
def Memory.get : Memory → Nat → Option Byte
  | [], _ => none
  | (a, b) :: rest, x => if x = a then some b else Memory.get rest x

/-- Write one byte. -/
def Memory.set : Memory → Nat → Byte → Memory
  | [], x, v => [(x, v)]
  | (a, b) :: rest, x, v =>
    if x < a then (x, v) :: (a, b) :: rest
    else if x = a then (x, v) :: rest
    else (a, b) :: Memory.set rest x v

/-- Write the `n` low bytes of a number from an offset on, least significant first (R86). -/
def Memory.writeLE (m : Memory) (a : Nat) : Nat → Nat → Memory
  | 0, _ => m
  | n + 1, v => Memory.writeLE (Memory.set m a (BitVec.ofNat 8 v)) (a + 1) n (v / 256)

/-- The number that `n` bytes from an offset on hold, least significant first (R86). -/
def readLE (byteAt : Nat → Byte) (a : Nat) : Nat → Nat
  | 0 => 0
  | n + 1 => (byteAt a).toNat + 256 * readLE byteAt (a + 1) n

/-- Write entries `0 .. n-1` of a run of `size`-byte entries from an offset on: "for j in 0 .. n-1: M[j] <- val j". -/
def Memory.fill (m : Memory) (base size : Nat) (val : Nat → Nat) : Nat → Memory
  | 0 => m
  | n + 1 => Memory.writeLE (Memory.fill m base size val n) (base + size * n) size (val n)

end Sys2Proof.Machine
end

