-- ==== Sys2Proof/Machine/Operands.lean ====
section
/-! DEFINITION. Operand forms: the RAM entries as the spec names them, WIN[j], SPEC[k], RXBUF[n], TXBUF[n]
(spec/10_state.md R58 to R61, spec/30_encoding.md R125, R127, R128), and 64-bit words of the window. -/

namespace Sys2Proof.Machine

/-- The byte RAM holds at an offset: the one written last, or the reset image's (R352; log 3). -/
def State.byteAt (s : State) (a : Nat) : Byte := (s.mem.get a).getD (Config.ramImage s.ramEpoch a)

/-- The 64-bit word at an offset, little-endian (R86). -/
def State.wordAt (s : State) (a : Nat) : Word := BitVec.ofNat 64 (readLE s.byteAt a 8)

/-- `WIN[j]` (R58, R82). -/
def State.win (s : State) (j : Nat) : Word := s.wordAt (winAddr j)

/-- `SPEC[k].freq` (R59, R128). -/
def State.specFreq (s : State) (k : Nat) : Word := s.wordAt (specAddr k)

/-- `SPEC[k].mag` (R59, R128). -/
def State.specMag (s : State) (k : Nat) : Word := s.wordAt (specAddr k + 8)

/-- The I/Q pair in 32 bits: I in bits 15:0, Q in bits 31:16 (R125). -/
def pairOfBits (w : BitVec 32) : IQ := { i := w.extractLsb' 0 16, q := w.extractLsb' 16 16 }

/-- The 32 bits of an I/Q pair (R125). -/
def pairBits (p : IQ) : BitVec 32 := BitVec.ofNat 32 (p.i.toNat + 2 ^ 16 * p.q.toNat)

/-- The pair at an offset of a sample buffer (R125). -/
def State.pairAt (s : State) (a : Nat) : IQ := pairOfBits (BitVec.ofNat 32 (readLE s.byteAt a 4))

/-- `RXBUF[n]` (R60, R83). -/
def State.rxbuf (s : State) (n : Nat) : IQ := s.pairAt (rxAddr n)

/-- `TXBUF[n]` (R61, R84). -/
def State.txbuf (s : State) (n : Nat) : IQ := s.pairAt (txAddr n)

/-- The SAMPLE2 word of two pairs (R125). -/
def sample2 (p0 p1 : IQ) : Word := BitVec.ofNat 64 ((pairBits p0).toNat + 2 ^ 32 * (pairBits p1).toNat)

/-- Write a 64-bit word at an offset (R86). -/
def Memory.writeWord (m : Memory) (a : Nat) (w : Word) : Memory := m.writeLE a 8 w.toNat

/-- "for j in 0 .. n-1: WIN[j] <- val j". -/
def Memory.fillWin (m : Memory) (val : Nat → Word) (n : Nat) : Memory := m.fill winBase 8 (fun j => (val j).toNat) n

/-- "for k in 0 .. n-1: SPEC[k].freq <- freq k; SPEC[k].mag <- mag k", the two words of a SPECENT (R128). -/
def Memory.fillSpec (m : Memory) (freq mag : Nat → Word) (n : Nat) : Memory :=
  m.fill specBase 16 (fun k => (freq k).toNat + 2 ^ 64 * (mag k).toNat) n

/-- "for i in 0 .. n-1: TXBUF[i] <- val i". -/
def Memory.fillTx (m : Memory) (val : Nat → IQ) (n : Nat) : Memory := m.fill txBase 4 (fun i => (pairBits (val i)).toNat) n

/-- "for n in 0 .. len-1: RXBUF[n] <- val n". -/
def Memory.fillRx (m : Memory) (val : Nat → IQ) (n : Nat) : Memory := m.fill rxBase 4 (fun i => (pairBits (val i)).toNat) n

end Sys2Proof.Machine
end

