-- ==== Sys2Proof/Machine/Ops.lean ====
section
/-! DEFINITION. The operations the instructions and the sequencer's steps share (the primitives of spec/00_scope.md R17):
draws, bus answers, reading a register, `goto`, `cmderr`, `accerr`, `raise` (the fatal-error entry) and `issue`. -/

namespace Sys2Proof.Machine

/-- The value of the `k`-th draw from now: "any value of the stated type, under no law" (R17); one the oracle has fixed
already, else a free value (log 2). -/
def State.draw (s : State) (k : Nat) : Word := (s.oracle[k]?).getD (Config.drawWord (s.drawn + k))

/-- The state after `n` draws have been taken. -/
def State.consume (s : State) (n : Nat) : State := { s with oracle := s.oracle.drop n, drawn := s.drawn + n }

/-- The bus answers the HOST (R151, R152). -/
def State.respond (s : State) (r : BusResp) : State := { s with bus := r }

/-- `goto (STATE, SUB)` (R17). -/
def State.goto (s : State) (p : SeqPos) : State := { s with seq := p }

/-- `cmderr(cause)`: a rejected command; "nothing else changes" (R326). -/
def State.cmderr (s : State) (c : CmdCause) : State := { s with cmdErr := true, cmdErrCause := c }

/-- `accerr()`: a refused write; every other state element keeps its value (R327). -/
def State.accerr (s : State) : State := { s with accErr := true }

/-- `raise E`, the fatal-error entry: "`STATUS.ERR <- code(E)`, `goto (SHUTTING_DOWN, RELEASE_LOCAL)`"; "It saves nothing
else" (R322). There is no return from it (R333): the only way back to IDLE is reset. -/
def State.raise (s : State) (e : ErrKind) : State := { s with err := e, seq := .sdReleaseLocal }

/-- `issue(op)` and the `goto` that follows it in every step that issues: `XREQ <- op`, "only when XREQ = NONE and XRESP =
none" (R262). A second request before the first completes is undefined (R274): a fault (log 11). -/
def State.issue (s : State) (op : TReq) (p : SeqPos) : Res :=
  if s.xreq = .none ∧ s.xresp = none then .next { s with xreq := op, seq := p } else .fault .requestOutstanding

/-- The value of a register at a read (R81, R88): CMD reads 0 (R32), EXIT_STATUS reads 0 "in every state" (R57), CTRL reads
WRAP in bit 0 and 0 elsewhere (R31), STATUS is assembled (R88). -/
def State.readReg (s : State) : Reg → Word
  | .ctrl => if s.ctrlWrap then 1 else 0
  | .cmd => 0
  | .status => s.statusWord
  | .fftSize => s.fftSize
  | .sampleRate => s.sampleRate
  | .toneA => s.toneA
  | .toneF1 => s.toneF1
  | .toneF2 => s.toneF2
  | .dbFloor => s.dbFloor
  | .phase => s.phase
  | .phaseInc => s.phaseInc
  | .rxCount => s.rxCount
  | .txCount => s.txCount
  | .cycleCount => s.cycleCount
  | .lastTxBytes => s.lastTxBytes
  | .lastRxBytes => s.lastRxBytes
  | .specSeq => s.specSeq
  | .exitStatus => 0
  | .blockLen => BitVec.ofNat 64 s.par.blockLen
  | .sampleBytes => BitVec.ofNat 64 s.par.sampleBytes
  | .nmax => BitVec.ofNat 64 s.par.nmax

/-- Write a configuration register: CTRL keeps only bit 0, the others take all 64 bits (R164). -/
def State.setConfig (s : State) (r : ConfigReg) (d : Word) : State :=
  match r with
  | .ctrl => { s with ctrlWrap := d.getLsbD 0 }
  | .fftSize => { s with fftSize := d }
  | .sampleRate => { s with sampleRate := d }
  | .toneA => { s with toneA := d }
  | .toneF1 => { s with toneF1 := d }
  | .toneF2 => { s with toneF2 := d }
  | .dbFloor => { s with dbFloor := d }
  | .phase => { s with phase := d }

/-- The value a legal read returns where it is no draw (R88). -/
def State.valueAt (s : State) : Target → Word
  | .reg r => s.readReg r
  | .win j => s.win j
  | .specFreq k => s.specFreq k
  | .specMag k => s.specMag k
  | .rxbuf m => s.wordAt (rxBase + 8 * m)
  | .txbuf m => s.wordAt (txBase + 8 * m)

/-- SPEC_SEQ is odd: a publication is in progress (R56). -/
def State.publishing (s : State) : Bool := s.specSeq.getLsbD 0

/-- A read of this target overlaps the block writing it, so it returns a draw (the list of R88). -/
def State.readIsDraw (s : State) : Target → Bool
  | .reg .phase => s.seq == .strSynth || s.seq == .diagSynth
  | .reg _ => false
  | .win _ => s.seq.state == .init || s.seq == .diagWgen
  | .specFreq _ | .specMag _ => s.publishing
  | .rxbuf _ => s.rxOwn
  | .txbuf _ => s.seq == .initBuild || s.seq == .strSynth || s.seq == .diagSynth

/-- `N`, the value of FFT_SIZE (R19). -/
abbrev State.n (s : State) : Nat := s.fftSize.toNat

/-- `1 <= N <= min(NMAX, BLOCK_LEN)` (R265, R158). -/
def State.sizeLegal (s : State) : Bool :=
  !(s.n == 0 || decide (min s.par.nmax s.par.blockLen < s.n))

/-- `isFinite(fs) and fs > 0` (R265). -/
def State.rateLegal (s : State) : Bool := F64.isFinite s.sampleRate && F64.isPos s.sampleRate

/-- TONE_A, TONE_F1 and TONE_F2 are finite (R265). -/
def State.tonesLegal (s : State) : Bool := F64.isFinite s.toneA && F64.isFinite s.toneF1 && F64.isFinite s.toneF2

/-- SPEC_SEQ <- SPEC_SEQ + 1 mod 2^64 (R56). -/
def State.bumpSpecSeq (s : State) : State := { s with specSeq := s.specSeq + 1 }

/-- The response `r < 0`, as an s64 (R130). -/
def respNegative (r : Word) : Bool := r.msb

end Sys2Proof.Machine
end

