-- ==== Sys2Proof/Machine/Commands.lean ====
section
/-! DEFINITION. The commands (spec/40_host_commands.md R153 to R159), each as the effect of a write of its word to CMD. The
bus acknowledges the write whether the command is executed or rejected (log 8). -/

namespace Sys2Proof.Machine

/-- The common rejection of R153: START, WGEN, ANALYZE and SYNTH outside IDLE are rejected with cause STATE. -/
def State.inIdleElse (s : State) (run : State) : State := if s.seq = .idle then run else s.cmderr .state

/-- NOP: nothing (R154). -/
def execNop (s : State) : Res := .next (s.respond .ack)

/-- START: in IDLE, clear CANCEL and ERR and go to (INIT, CHECK) (R155). -/
def execStart (s : State) : Res :=
  .next ((s.inIdleElse { s with cancel := false, err := .none, seq := .initCheck }).respond .ack)

/-- CANCEL: set STATUS.CANCEL in any state (R156). -/
def execCancel (s : State) : Res := .next (State.respond { s with cancel := true } .ack)

/-- WGEN: in IDLE, CONFIG for `N = 0` or `N > NMAX`, DIVZERO for `N = 1`, else go to (DIAG, WGEN) (R157). -/
def execWgen (s : State) : Res :=
  .next ((s.inIdleElse
    (if s.n = 0 ∨ s.par.nmax < s.n then s.cmderr .config
     else if s.n = 1 then s.cmderr .divzero
     else s.goto .diagWgen)).respond .ack)

/-- ANALYZE: in IDLE, CONFIG for an illegal size or rate, else the publication begins (SPEC_SEQ odd) and the sequencer goes
to (DIAG, ANALYZE) (R158). -/
def execAnalyze (s : State) : Res :=
  .next ((s.inIdleElse
    (if s.sizeLegal && s.rateLegal then s.bumpSpecSeq.goto .diagAnalyze else s.cmderr .config)).respond .ack)

/-- SYNTH: in IDLE, CONFIG for an illegal rate or tone, else go to (DIAG, SYNTH) (R159). -/
def execSynth (s : State) : Res :=
  .next ((s.inIdleElse
    (if s.rateLegal && s.tonesLegal then s.goto .diagSynth else s.cmderr .config)).respond .ack)

/-- A reserved command word: CMDERR with cause RESERVED, no other effect, in any state (R123, R153). The word itself is
recorded nowhere (R321). -/
def execReservedCmd (_w : Word) (s : State) : Res := .next ((s.cmderr .reserved).respond .ack)

/-- `execute_command(d)` (R153): RESERVED is decided first, then the command's own rule. -/
def executeCommand (d : Word) (s : State) : Res :=
  match decodeOp d with
  | none => execReservedCmd d s
  | some .nop => execNop s
  | some .start => execStart s
  | some .cancel => execCancel s
  | some .wgen => execWgen s
  | some .analyze => execAnalyze s
  | some .synth => execSynth s

end Sys2Proof.Machine
end

