-- ==== Sys2Proof/Machine/Bus.lean ====
section
/-! DEFINITION. The host's bus accesses (spec/40_host_commands.md R151, R152, R163 to R165; spec/20_memory.md R87 to R89).
An illegal access is answered with a bus error and changes nothing else (spec/60_exceptions.md R328; log 8). -/

namespace Sys2Proof.Machine

/-- RD (R151): a bus error for an illegal access, else the target's value, or a draw where R88 says so. -/
def execRd (a : Offset) (width : Nat) (s : State) : Res :=
  match legalTarget s.par a width with
  | none => .next (s.respond .err)
  | some t =>
    if s.readIsDraw t then .next ((s.consume 1).respond (.data (s.draw 0)))
    else .next (s.respond (.data (s.valueAt t)))

/-- WR.STATUS (R163); never refused. -/
def execWrStatus (d : Word) (s : State) : Res := .next ((s.statusW1C d).respond .ack)

/-- WR.CONFIG (R164): refused with ACCERR outside IDLE. -/
def execWrConfig (r : ConfigReg) (d : Word) (s : State) : Res :=
  .next ((if s.seq = .idle then s.setConfig r d else s.accerr).respond .ack)

/-- A write of a RAM word at an offset: refused with ACCERR outside IDLE (R165). -/
def State.ramWrite (s : State) (a : Nat) (d : Word) : State :=
  if s.seq = .idle then { s with mem := s.mem.writeWord a d } else s.accerr

/-- The word exists in this implementation: `j < NMAX` (R82), `m < BLOCK_LEN / 2` (R83). -/
def State.ramWordExists (s : State) : RamWord → Bool
  | .win j => decide (j.toNat < s.par.nmax)
  | .rxbuf m => decide (m.toNat < s.par.blockLen / 2)

/-- WR.RAM (R165): a bus error where the offset holds nothing (R87), else the word is written or refused. -/
def execWrRam (t : RamWord) (d : Word) (s : State) : Res :=
  if s.ramWordExists t then .next ((s.ramWrite t.offset d).respond .ack) else .next (s.respond .err)

/-- WR (R152), for every offset and width: a bus error for an illegal access, else by its target the command, the STATUS
write, the configuration write, the RAM write, or ACCERR for a read-only word. -/
def execWr (a : Offset) (width : Nat) (d : Word) (s : State) : Res :=
  match legalTarget s.par a width with
  | none => .next (s.respond .err)
  | some (.reg .cmd) => executeCommand d s
  | some (.reg .status) => .next ((s.statusW1C d).respond .ack)
  | some (.reg r) =>
    match r.config? with
    | some c => .next ((if s.seq = .idle then s.setConfig c d else s.accerr).respond .ack)
    | none => .next (s.accerr.respond .ack)
  | some (.win j) => .next ((s.ramWrite (winAddr j) d).respond .ack)
  | some (.rxbuf m) => .next ((s.ramWrite (rxBase + 8 * m) d).respond .ack)
  | some (.specFreq _) | some (.specMag _) | some (.txbuf _) => .next (s.accerr.respond .ack)

end Sys2Proof.Machine
end

