-- ==== Sys2Proof/Machine/Transport.lean ====
section
/-! DEFINITION. The transport's side of a request: what carrying out a TREQ word does (spec/44_coordinator.md R261). The
sequencer's side, where each request is issued and its answer consumed, is Machine/Sequencer.lean (log 9). -/

namespace Sys2Proof.Machine

/-- "`r <- draw()`; `XRESP <- r`; `XREQ <- NONE`" (R261). -/
def State.answer (s : State) : State := { s.consume 1 with xresp := some (s.draw 0), xreq := .none }

/-- The pair the transport leaves in RXBUF[n]: a draw of its own, "any (s16, s16) pair" (R261). The answer is draw 0. -/
def State.refilled (s : State) (n : Nat) : IQ := pairOfBits ((s.draw (1 + n)).setWidth 32)

/-- CONFIGURE, "`configure(stream_cfg)` with the parameter STREAM_CFG" (R129): the transport takes STREAM_CFG, its operand,
and answers with any s64 (R261). -/
def execTreqConfigure (s : State) : Res := .next { s.answer with configured := some Config.streamCfg }

/-- PUSH, `push(outgoing)` of TXBUF (R129): the transport takes the block it sees in TXBUF, which it only reads, and answers
with any s64 (R261). -/
def execTreqPush (s : State) : Res := .next { s.answer with sent := (List.range s.par.blockLen).map s.txbuf }

/-- REFILL, `refill(incoming)` of RXBUF (R129): every pair of RXBUF is drawn whatever the answer is (R261). -/
def execTreqRefill (s : State) : Res :=
  .next { s.consume (1 + s.par.blockLen) with
    mem := s.mem.fillRx s.refilled s.par.blockLen
    xresp := some (s.draw 0)
    xreq := .none }

/-- RELEASE_TX, the release of the outgoing transport buffer (R129): answered with any s64 (R261). -/
def execTreqReleaseTx (s : State) : Res := .next s.answer

/-- RELEASE_RX, the release of the incoming transport buffer (R129): answered with any s64 (R261). -/
def execTreqReleaseRx (s : State) : Res := .next s.answer

/-- CLOSE, `close()` of the transport context (R129): answered with any s64 (R261). -/
def execTreqClose (s : State) : Res := .next s.answer

end Sys2Proof.Machine
end

