-- ==== Sys2Proof/Machine/Dispatch.lean ====
section
/-! DEFINITION. The meaning of every instruction, one arm per constructor of Instr. -/

namespace Sys2Proof.Machine

def exec (i : Instr) (s : State) : Host.Outcome State Fault Refusal :=
  match i with
  -- the commands (R154 to R159, R123)
  | .nop => Sys2Proof.Machine.execNop s
  | .start => Sys2Proof.Machine.execStart s
  | .cancel => Sys2Proof.Machine.execCancel s
  | .wgen => Sys2Proof.Machine.execWgen s
  | .analyze => Sys2Proof.Machine.execAnalyze s
  | .synth => Sys2Proof.Machine.execSynth s
  | .reservedCmd w => Sys2Proof.Machine.execReservedCmd w s
  -- the bus accesses (R151, R152, R163 to R165)
  | .rd a width => Sys2Proof.Machine.execRd a width s
  | .wr a width d => Sys2Proof.Machine.execWr a width d s
  | .wrStatus d => Sys2Proof.Machine.execWrStatus d s
  | .wrConfig r d => Sys2Proof.Machine.execWrConfig r d s
  | .wrRam t d => Sys2Proof.Machine.execWrRam t d s
  -- the transport requests (R129, R261)
  | .treqConfigure => Sys2Proof.Machine.execTreqConfigure s
  | .treqPush => Sys2Proof.Machine.execTreqPush s
  | .treqRefill => Sys2Proof.Machine.execTreqRefill s
  | .treqReleaseTx => Sys2Proof.Machine.execTreqReleaseTx s
  | .treqReleaseRx => Sys2Proof.Machine.execTreqReleaseRx s
  | .treqClose => Sys2Proof.Machine.execTreqClose s

end Sys2Proof.Machine
end

