-- ==== Sys2Proof/Machine/Spectral.lean ====
section
/-! DEFINITION. The Spectral Engine (spec/42_spectral.md R210 to R222): windowing, the forward DFT, magnitude to dB with
the zero floor, and bin frequencies. -/

namespace Sys2Proof.Machine

/-- The real part of the windowed sample: "`xr[n] <- fl(real(I_n) * WIN[n])`" (R212). -/
def State.windowedRe (s : State) (n : Nat) : Word := F64.mul (F64.ofInt (s.rxbuf n).i.toInt) (s.win n)

/-- The imaginary part of the windowed sample: "`xi[n] <- fl(real(Q_n) * WIN[n])`" (R212). -/
def State.windowedIm (s : State) (n : Nat) : Word := F64.mul (F64.ofInt (s.rxbuf n).q.toInt) (s.win n)

/-- The binary64 value 20.0. -/
def F64.twenty : Word := 0x4034000000000000

/-- Magnitude to dB: the floor for a zero magnitude, else "`fl(20.0 * log10_64(m_k))`" (R217). -/
def magToDb (floor m : Word) : Word := if F64.isZero m then floor else F64.mul F64.twenty (log10_64 m)

/-- "`freq_k <- fl(fl(real(k) / real(N)) * fs)`" (R218). -/
def binFreq (n : Nat) (fs : Word) (k : Nat) : Word :=
  F64.mul (F64.div (F64.ofInt (k : Int)) (F64.ofInt (n : Int))) fs

/-- The bin `(Xr[k], Xi[k])` of the windowed first `N` samples (R211, R214). -/
def State.bin (s : State) (k : Nat) : Word × Word :=
  dft64 s.n ((List.range s.n).map s.windowedRe) ((List.range s.n).map s.windowedIm) k

/-- The dB value of bin `k` (R216, R217). -/
def State.binDb (s : State) (k : Nat) : Word := magToDb s.dbFloor (cabs64 (s.bin k).1 (s.bin k).2)

/-- `spectrum_fn(N, fs, DB_FLOOR)`: writes SPEC[0..N-1] (R222). -/
def State.spectrumFn (s : State) : State :=
  { s with mem := s.mem.fillSpec (fun k => binFreq s.n s.sampleRate k) s.binDb s.n }

end Sys2Proof.Machine
end

