-- ==== Sys2Proof/Machine/Window.lean ====
section
/-! DEFINITION. The Window Generator (spec/41_window.md R190 to R194). -/

namespace Sys2Proof.Machine

/-- "the binary64 nearest 2π" (R191). -/
def twoPi : Word := 0x401921FB54442D18

/-- The binary64 value 0.5. -/
def F64.half : Word := 0x3FE0000000000000

/-- `hann64(j, N)`, evaluated in the order of R191. -/
def hann64 (j n : Nat) : Word :=
  let a := F64.mul twoPi (F64.ofInt j)
  let b := F64.div a (F64.ofInt (n - 1))
  let c := cos64 b
  F64.mul F64.half (F64.sub F64.one c)

/-- "for j in 0 .. N-1: WIN[j] <- hann64(j, N)" (R160, R267). -/
def State.buildWindow (s : State) : State := { s with mem := s.mem.fillWin (fun j => hann64 j s.n) s.n }

end Sys2Proof.Machine
end

