-- ==== Sys2Proof/Machine/Synth.lean ====
section
/-! DEFINITION. The Waveform Synthesizer and the quantiser (spec/43_synth.md R240 to R246). -/

namespace Sys2Proof.Machine

/-- The integer clamped to the s16 range (R244). -/
def clamp16 (v : Int) : Int := max (-32768) (min v 32767)

/-- `quant(x)`: NaN to 0, infinities to the extremes, else truncation toward zero and then saturation (WRAP = 0) or the
low 16 bits (WRAP = 1) (R244). -/
def quant (wrap : Bool) (x : Word) : S16 :=
  if F64.isNaN x then 0
  else if F64.isInf x then (if F64.sign x then BitVec.ofInt 16 (-32768) else BitVec.ofInt 16 32767)
  else if wrap then BitVec.ofInt 16 ((F64.trunc x + 32768) % 65536 - 32768)
  else BitVec.ofInt 16 (clamp16 (F64.trunc x))

/-- The phase of a tone: "`fl(fl(TWO_PI * f) * t)`" (R241). Where `fl(TWO_PI * f)` overflows and `t = 0` this is a NaN, although
R241 says what its `t = 0` gives: the model follows the pseudocode (DESIGN CHOICE, log 24). -/
def tonePhase (f t : Word) : Word := F64.mul (F64.mul twoPi f) t

/-- The in-phase value before quantisation (R241). -/
def State.synthI (s : State) (t : Word) : Word :=
  F64.add (F64.mul s.toneA (cos64 (tonePhase s.toneF1 t))) (F64.mul s.toneA (cos64 (tonePhase s.toneF2 t)))

/-- The quadrature value before quantisation (R241). -/
def State.synthQ (s : State) (t : Word) : Word :=
  F64.add (F64.mul s.toneA (sin64 (tonePhase s.toneF1 t))) (F64.mul s.toneA (sin64 (tonePhase s.toneF2 t)))

/-- `synth_fn(t)` (R241). -/
def State.synthFn (s : State) (t : Word) : IQ where
  i := quant s.ctrlWrap (s.synthI t)
  q := quant s.ctrlWrap (s.synthQ t)

/-- The accumulator after `i` additions of the increment: "`t <- fl(t + PHASE_INC)`" (R245). -/
def phaseAfter (t inc : Word) : Nat → Word
  | 0 => t
  | i + 1 => F64.add (phaseAfter t inc i) inc

/-- `synth_block_fn()`: sample `i` uses the accumulator after `i` additions, PHASE ends after BLOCK_LEN of them (R245). -/
def State.synthBlock (s : State) : State :=
  { s with
    mem := s.mem.fillTx (fun i => s.synthFn (phaseAfter s.phase s.phaseInc i)) s.par.blockLen
    phase := phaseAfter s.phase s.phaseInc s.par.blockLen }

/-- "`PHASE_INC <- fl(1.0 / fs)`" (R246). -/
def State.setPhaseInc (s : State) : State := { s with phaseInc := F64.div F64.one s.sampleRate }

end Sys2Proof.Machine
end

