-- ==== Sys2Proof/Machine/Sequencer.lean ====
section
/-! DEFINITION. The Stream Coordinator's steps (spec/44_coordinator.md R265 to R273, R277 to R280) and the diagnostic steps
(spec/40_host_commands.md R160 to R162), one definition each, and the turn of agent SEQ (R260). -/

namespace Sys2Proof.Machine

/-- (INIT, CHECK): the static checks, then CONFIGURE (R265). -/
def seqInitCheck (s : State) : Res :=
  if s.sizeLegal && s.rateLegal && s.tonesLegal then s.issue .configure .initCfgWait
  else .next (s.raise .configuration)

/-- (INIT, CFG_WAIT): consume the CONFIGURE response (R266). -/
def seqInitCfgWait (r : Word) (s : State) : Res :=
  .next (if respNegative r then { s with xresp := none }.raise .configuration
    else { s with xresp := none, xportOpen := true, seq := .initBuild })

/-- The zeroing of StreamState and the building of window, plan, sink and first outgoing block (R267, the case `N >= 2`). -/
def State.build (s : State) : State :=
  { s.buildWindow with
    planValid := true
    sinkOpen := true
    rxCount := 0
    txCount := 0
    cycleCount := 0
    lastTxBytes := 0
    lastRxBytes := 0
    phase := 0
    phaseInc := F64.div F64.one s.sampleRate
    mem := s.buildWindow.mem.fillTx (fun _ => { i := 0, q := 0 }) s.par.blockLen
    seq := .strCk }

/-- (INIT, BUILD): DIVIDE_BY_ZERO for `N < 2`, else build (R267). -/
def seqInitBuild (s : State) : Res :=
  .next (if s.n < 2 then s.raise .divideByZero else s.build)

/-- (STREAMING, CK): the cancellation checkpoint, then the push (R268). -/
def seqStrCk (s : State) : Res :=
  if s.cancel then .next (s.goto .sdReleaseLocal) else State.issue { s with txOwn := true } .push .strPushWait

/-- (STREAMING, PUSH_WAIT): consume the PUSH response, then the refill (R269). -/
def seqStrPushWait (r : Word) (s : State) : Res :=
  if respNegative r then .next ({ s with xresp := none, txOwn := false, lastTxBytes := r }.raise .transportWrite)
  else State.issue { s with xresp := none, txOwn := false, lastTxBytes := r, rxOwn := true } .refill .strRefillWait

/-- (STREAMING, REFILL_WAIT): consume the REFILL response; the publication begins (R270). -/
def seqStrRefillWait (r : Word) (s : State) : Res :=
  .next (if respNegative r then { s with xresp := none, rxOwn := false, lastRxBytes := r }.raise .transportRead
    else { s.bumpSpecSeq with xresp := none, rxOwn := false, lastRxBytes := r, seq := .strAnalyze })

/-- (STREAMING, ANALYZE): run the engine; the publication ends (R271). -/
def seqStrAnalyze (s : State) : Res := .next (s.spectrumFn.bumpSpecSeq.goto .strCount)

/-- The samples a byte count is: `bytes div SAMPLE_BYTES`, for a non-negative byte count (R272; log 15). -/
def State.samplesOf (s : State) (bytes : Word) : Word := BitVec.ofNat 64 (bytes.toNat / s.par.sampleBytes)

/-- (STREAMING, COUNT): the cumulative counters (R272). -/
def seqStrCount (s : State) : Res :=
  .next { s with
    rxCount := s.rxCount + s.samplesOf s.lastRxBytes
    txCount := s.txCount + s.samplesOf s.lastTxBytes
    cycleCount := s.cycleCount + 1
    seq := .strSynth }

/-- (STREAMING, SYNTH): the next outgoing block (R273). -/
def seqStrSynth (s : State) : Res := .next (s.synthBlock.goto .strCk)

/-- (SHUTTING_DOWN, RELEASE_LOCAL): release plan and sink, then the transport if it is open (R277). -/
def seqSdReleaseLocal (s : State) : Res :=
  if s.xportOpen then State.issue { s with planValid := false, sinkOpen := false } .releaseTx .sdRelTxWait
  else .next { s with planValid := false, sinkOpen := false, seq := .terminated }

/-- (SHUTTING_DOWN, REL_TX_WAIT): the response is ignored; release the incoming buffer (R278). -/
def seqSdRelTxWait (s : State) : Res := State.issue { s with xresp := none } .releaseRx .sdRelRxWait

/-- (SHUTTING_DOWN, REL_RX_WAIT): the response is ignored; close the transport (R279). -/
def seqSdRelRxWait (s : State) : Res := State.issue { s with xresp := none } .close .sdCloseWait

/-- (SHUTTING_DOWN, CLOSE_WAIT): the response is ignored; TERMINATED (R280). -/
def seqSdCloseWait (s : State) : Res := .next { s with xresp := none, xportOpen := false, seq := .terminated }

/-- (DIAG, WGEN) (R160). -/
def seqDiagWgen (s : State) : Res := .next (s.buildWindow.goto .idle)

/-- (DIAG, ANALYZE) (R161). -/
def seqDiagAnalyze (s : State) : Res := .next (s.spectrumFn.bumpSpecSeq.goto .idle)

/-- (DIAG, SYNTH) (R162). -/
def seqDiagSynth (s : State) : Res := .next (s.setPhaseInc.synthBlock.goto .idle)

/-- A wait step: enabled only when there is a response to consume (R260); otherwise SEQ takes no step. -/
def onResponse (s : State) (run : Word → State → Res) : Res :=
  match s.xresp with
  | some r => run r s
  | none => .next s

/-- SEQ's turn: the pending step of (STATE, SUB) if it is enabled; none in IDLE and TERMINATED (R260, R43). -/
def seqTurn (s : State) : Res :=
  match s.seq with
  | .idle => .next s
  | .initCheck => seqInitCheck s
  | .initCfgWait => onResponse s seqInitCfgWait
  | .initBuild => seqInitBuild s
  | .strCk => seqStrCk s
  | .strPushWait => onResponse s seqStrPushWait
  | .strRefillWait => onResponse s seqStrRefillWait
  | .strAnalyze => seqStrAnalyze s
  | .strCount => seqStrCount s
  | .strSynth => seqStrSynth s
  | .sdReleaseLocal => seqSdReleaseLocal s
  | .sdRelTxWait => onResponse s fun _ => seqSdRelTxWait
  | .sdRelRxWait => onResponse s fun _ => seqSdRelRxWait
  | .sdCloseWait => onResponse s fun _ => seqSdCloseWait
  | .terminated => .next s
  | .diagWgen => seqDiagWgen s
  | .diagAnalyze => seqDiagAnalyze s
  | .diagSynth => seqDiagSynth s

end Sys2Proof.Machine
end

