-- ==== Sys2Proof/Machine/Turns.lean ====
section
/-! DEFINITION. The turns of the four agents (spec/00_scope.md R3, R18): HOST and XPORT fetch an instruction, from the host's
program and from the transport port, and run it; SEQ takes its pending step; RESET resets (spec/70_reset_and_hazards.md
R350). And whose turn is next (R364). -/

namespace Sys2Proof.Machine

/-- The condition a `poll` waits for: "until `(v & mask) = value`" (R134). -/
def pollDone (v mask value : Word) : Bool := v &&& mask == value

/-- The answer of the bus ends a `poll`: data that meet the condition. A bus error returns no data and ends none (log 20). -/
def BusResp.endsPoll (r : BusResp) (mask value : Word) : Bool :=
  match r with
  | .data v => pollDone v mask value
  | .none | .ack | .err => false

/-- A read has been answered for the `poll` at the head of the program: it is done with when the data meet the condition,
else it stays for HOST's next turn (R134). -/
def State.afterPoll (s : State) (mask value : Word) (rest : List HostOp) : State :=
  { s with program := if s.bus.endsPoll mask value then rest else s.program }

/-- HOST's turn: the next bus transaction of its program is decoded and run in one step (R151 to R153); a `poll` makes one
read (R134). With nothing left to do HOST takes no step. -/
def hostTurn (s : State) : Res :=
  match s.program with
  | [] => .next s
  | .access b :: rest => exec (decodeBus b) { s with program := rest }
  | .poll a mask value :: rest =>
    match exec (decodeBus (.read a 64)) s with
    | .next t => .next (t.afterPoll mask value rest)
    | stop => stop

/-- XPORT's turn: enabled when XREQ is not NONE (R261); the word on the port is decoded and carried out. -/
def xportTurn (s : State) : Res :=
  match decodePort s.xreq.word with
  | .ok i => exec i s
  | .error _ => .next s

/-- RESET's step (R350): every register at its reset value, the transport port emptied, RAM a fresh arbitrary image, IDLE.
The parameters are unchanged (R351); so are the model's own fields, but that RAM has a new image (log 14). -/
def State.resetStep (s : State) : State :=
  { State.reset with
    par := s.par
    ramEpoch := s.ramEpoch + 1
    bus := s.bus
    sent := s.sent
    configured := s.configured
    oracle := s.oracle
    drawn := s.drawn
    program := s.program
    agenda := s.agenda }

/-- The turn of one agent. -/
def turn (e : Event) (s : State) : Res :=
  match e with
  | .host => hostTurn s
  | .seq => seqTurn s
  | .xport => xportTurn s
  | .reset => .next s.resetStep

/-- Whose turn is next: the head of the agenda. Where it ends, the block and its transport go on by themselves, "an
enabled XPORT step is eventually taken" and so is "an enabled SEQ step" (R364): XPORT's while a request is outstanding, else
SEQ's; in a reachable state at most one of the two is enabled (log 21). -/
def State.nextTurn (s : State) : Event :=
  match s.agenda with
  | e :: _ => e
  | [] => if s.xreq = .none then .seq else .xport

/-- The machine with this bus transaction as the very next thing that happens. -/
def State.withBusNext (s : State) (b : BusAccess) : State :=
  { s with agenda := .host :: s.agenda, program := .access b :: s.program }

/-- The machine with this request on the transport port and the transport's turn next. -/
def State.withRequestNext (s : State) (op : TReq) : State := { s with xreq := op, agenda := .xport :: s.agenda }

end Sys2Proof.Machine
end

