-- ==== Sys2Proof/Machine/Step.lean ====
section
/-! DEFINITION. One step of the machine: the agent whose turn is next takes it (spec/00_scope.md R18; log 1, log 13). -/

namespace Sys2Proof.Machine

/-- One step: the next turn is taken, and is no longer to come. -/
def step (s : State) : Host.Outcome State Fault Refusal :=
  turn s.nextTurn { s with agenda := s.agenda.tail }

/-- The machine with a word of the opcode table fetched by its next step (log 10, log 13): a command word as the host's
next write to CMD, a request as the word on the transport port with the transport's turn next. -/
def State.withFetchWord (s : State) (nbits w : Nat) : State :=
  match (decodeTableWord nbits w).bind Instr.request? with
  | some op => s.withRequestNext op
  | none => s.withBusNext (writeReg .cmd (BitVec.ofNat 64 w))

end Sys2Proof.Machine
end

