-- ==== Sys2Proof/Machine/Assembler.lean ====
section
/-! DEFINITION. Host programs (spec/30_encoding.md R133, R134): targets, values, the two operations and the
pseudo-instructions, the operations HOST performs for them, and their bus transactions (log 20). -/

namespace Sys2Proof.Machine

/-- `<target>` of R133. -/
inductive HostTarget where
  | reg (r : Reg)
  | win (j : Nat)
  | specFreq (k : Nat)
  | specMag (k : Nat)
  | rxbuf (m : Nat)
  | txbuf (m : Nat)
  | at (a : Offset)
deriving DecidableEq, Repr

/-- The offset of a target (R133, R81 to R85). DESIGN CHOICE (log 20): an index past its region is not refused, which the
spec leaves open, and its offset is taken modulo the 2^28 of the window. -/
def HostTarget.offset : HostTarget → Offset
  | .reg r => BitVec.ofNat 28 (Target.reg r).offset
  | .win j => BitVec.ofNat 28 (Target.win j).offset
  | .specFreq k => BitVec.ofNat 28 (Target.specFreq k).offset
  | .specMag k => BitVec.ofNat 28 (Target.specMag k).offset
  | .rxbuf m => BitVec.ofNat 28 (Target.rxbuf m).offset
  | .txbuf m => BitVec.ofNat 28 (Target.txbuf m).offset
  | .at a => a

/-- `<value>` of R133: an integer literal ("a negative decimal is its 64-bit two's complement"), a float literal, plus or
minus `digits` times ten to the `exp10`, or a pair literal. -/
inductive HostValue where
  | int (v : Int)
  | float (negative : Bool) (digits : Nat) (exp10 : Int)
  | pairs (i0 q0 i1 q1 : Int)
deriving DecidableEq, Repr

/-- "the binary64 pattern nearest the decimal (round to nearest, ties to even)" (R133). DESIGN CHOICE (log 20): a literal whose
value is zero, or rounds to zero, keeps its minus sign (`f:-0.0` is −0.0), and one past the finite range is the infinity of
its sign, which the spec leaves open. -/
def nearestDecimal (negative : Bool) (digits : Nat) (exp10 : Int) : Word :=
  if digits = 0 then F64.zero negative
  else F64.round negative (digits * 10 ^ exp10.toNat * F64.unit) (10 ^ (-exp10).toNat)

/-- The 64-bit word of a value (R133). DESIGN CHOICE (log 20): an integer that does not fit 64 bits is taken modulo 2^64 and a
component of a pair that does not fit an s16 modulo 2^16, which the spec leaves open. -/
def HostValue.word : HostValue → Word
  | .int v => BitVec.ofInt 64 v
  | .float negative digits exp10 => nearestDecimal negative digits exp10
  | .pairs i0 q0 i1 q1 =>
    sample2 { i := BitVec.ofInt 16 i0, q := BitVec.ofInt 16 q0 } { i := BitVec.ofInt 16 i1, q := BitVec.ofInt 16 q1 }

/-- The lines of a host program (R133) and the pseudo-instructions (R134). Comments and the names of results have no bus
transaction and no term. -/
inductive HostLine where
  | wr (t : HostTarget) (v : HostValue)
  | rd (t : HostTarget)
  | cmd (op : CmdOp)
  | wrf (t : HostTarget) (negative : Bool) (digits : Nat) (exp10 : Int)
  | wrpairs (m : Nat) (i0 q0 i1 q1 : Int)
  | w1c (bits : Word)
  | poll (t : HostTarget) (mask value : Word)
  | waitState (state : Word)
deriving DecidableEq, Repr

/-- The operation of `wr <target>, <value>` (R133). -/
def wrOp (t : HostTarget) (w : Word) : HostOp := .access (.write t.offset 64 w)

/-- The operation of `poll <target>, <mask>, <value>` (R134). -/
def pollOp (t : HostTarget) (mask value : Word) : HostOp := .poll t.offset mask value

/-- The operation a line stands for: the tables of R133 and R134. `wait_state S` is `poll STATUS, 0x7, S`. -/
def HostLine.op : HostLine → HostOp
  | .wr t v => wrOp t v.word
  | .rd t => .access (.read t.offset 64)
  | .cmd op => wrOp (.reg .cmd) op.word
  | .wrf t negative digits exp10 => wrOp t (nearestDecimal negative digits exp10)
  | .wrpairs m i0 q0 i1 q1 => wrOp (.rxbuf m) (HostValue.pairs i0 q0 i1 q1).word
  | .w1c bits => wrOp (.reg .status) bits
  | .poll t mask value => pollOp t mask value
  | .waitState state => pollOp (.reg .status) 0x7 state

/-- The operations of a host program, one a line (R133). -/
def hostProgram (lines : List HostLine) : List HostOp := lines.map HostLine.op

/-- The reads of a `poll`, given what the bus returns to them in turn: "encoding one read per iteration" (R134), the last
the first whose value meets the condition. -/
def pollReads (a : Offset) (mask value : Word) : List Word → List BusAccess
  | [] => []
  | v :: vs => .read a 64 :: if pollDone v mask value then [] else pollReads a mask value vs

/-- The bus transactions of an operation, given the values its reads return (R133, R134). "A program's encoding is its list
of bus transactions" (R133). -/
def HostOp.transactions (op : HostOp) (returned : List Word) : List BusAccess :=
  match op with
  | .access b => [b]
  | .poll a mask value => pollReads a mask value returned

/-- The machine with a host program's operations next in HOST's program, in order (R95). When HOST performs them is the
agenda's. -/
def State.withHostProgram (s : State) (lines : List HostLine) : State :=
  { s with program := hostProgram lines ++ s.program }

end Sys2Proof.Machine
end

