-- ==== Sys2Proof/Safety.lean ====
section
/-! DEFINITION. What counts as a safe run, and the invariant that makes one: the parameters are legal, memory is canonical
and lies in the RAMs, and the sequencer, the transport port, the ownership bits and the resource flags agree
(spec/10_state.md R69, spec/44_coordinator.md R262, R274, R275). And what fair schedules are (spec/70_reset_and_hazards.md
R364). -/

namespace Sys2Proof.Machine

/-- The request whose response a wait position consumes (R260); `none` for the other positions. -/
def SeqPos.awaits : SeqPos → TReq
  | .initCfgWait => .configure
  | .strPushWait => .push
  | .strRefillWait => .refill
  | .sdRelTxWait => .releaseTx
  | .sdRelRxWait => .releaseRx
  | .sdCloseWait => .close
  | .idle | .initCheck | .initBuild | .strCk | .strAnalyze | .strCount | .strSynth | .sdReleaseLocal | .terminated
  | .diagWgen | .diagAnalyze | .diagSynth => .none

/-- The transport port at a position: at a wait exactly one of XREQ and XRESP is filled, and XREQ only with the awaited
request; elsewhere both are empty (R62, R262). -/
def PortAgrees (s : State) : Prop :=
  (s.xreq = s.seq.awaits ∧ s.xresp = none) ∨ (s.seq.awaits ≠ .none ∧ s.xreq = .none ∧ s.xresp ≠ none)

/-- The positions at which the transport context is open (R63): from INIT.BUILD until CLOSE is answered. -/
def SeqPos.xportMustBeOpen : SeqPos → Bool
  | .initBuild | .strCk | .strPushWait | .strRefillWait | .strAnalyze | .strCount | .strSynth
  | .sdRelTxWait | .sdRelRxWait | .sdCloseWait => true
  | .idle | .initCheck | .initCfgWait | .sdReleaseLocal | .terminated | .diagWgen | .diagAnalyze | .diagSynth => false

/-- The offset is one of a RAM entry this implementation has (R82 to R85). -/
def mapped (p : Params) (a : Nat) : Prop :=
  (winBase ≤ a ∧ a < winBase + 8 * p.nmax) ∨ (specBase ≤ a ∧ a < specBase + 16 * p.nmax) ∨
  (rxBase ≤ a ∧ a < rxBase + 4 * p.blockLen) ∨ (txBase ≤ a ∧ a < txBase + 4 * p.blockLen)

/-- The configuration has passed the checks that led to this position (R265, R267, R157 to R159). -/
def ConfigChecked (s : State) : Prop :=
  match s.seq with
  | .initCfgWait | .initBuild => s.sizeLegal = true ∧ s.rateLegal = true ∧ s.tonesLegal = true
  | .strCk | .strPushWait | .strRefillWait | .strAnalyze | .strCount | .strSynth =>
    s.sizeLegal = true ∧ s.rateLegal = true ∧ s.tonesLegal = true ∧ 2 ≤ s.n
  | .diagWgen => 2 ≤ s.n ∧ s.n ≤ s.par.nmax
  | .diagAnalyze => s.sizeLegal = true ∧ s.rateLegal = true
  | .diagSynth => s.rateLegal = true ∧ s.tonesLegal = true
  | .idle | .initCheck | .sdReleaseLocal | .sdRelTxWait | .sdRelRxWait | .sdCloseWait | .terminated => True

/-- The invariant of the machine. -/
structure Inv (s : State) : Prop where
  /-- The parameters are legal (R7 to R9). -/
  par : s.par.Legal
  /-- Memory is in its canonical form. -/
  memWf : s.mem.wf = true
  /-- Only RAM entries that exist have been written (R82 to R85). -/
  memMapped : ∀ c ∈ s.mem, mapped s.par c.1
  /-- "At most one of them is non-empty at any time" (R62), and what is outstanding is what SEQ waits for. -/
  port : PortAgrees s
  /-- TXOWN is 1 exactly in (STREAMING, PUSH_WAIT) (R46, R69). -/
  txOwn : s.txOwn = true ↔ s.seq = .strPushWait
  /-- RXOWN is 1 exactly in (STREAMING, REFILL_WAIT) (R46, R69). -/
  rxOwn : s.rxOwn = true ↔ s.seq = .strRefillWait
  /-- "PLAN_VALID = 1 … only in STREAMING and in (SHUTTING_DOWN, RELEASE_LOCAL)" (R69). -/
  plan : s.planValid = true → s.seq.state = .streaming ∨ s.seq = .sdReleaseLocal
  /-- The plan and the sink are acquired and released together (R267, R277). -/
  sink : s.sinkOpen = s.planValid
  /-- In STREAMING the plan is held (R63). -/
  planHeld : s.seq.state = .streaming → s.planValid = true
  /-- The transport context is open where the session needs it. -/
  xportOpen : s.seq.xportMustBeOpen = true → s.xportOpen = true
  /-- The transport context is open nowhere else, but that RELEASE_LOCAL may find it open. -/
  xportClosed : s.xportOpen = true → s.seq.xportMustBeOpen = true ∨ s.seq = .sdReleaseLocal
  /-- "ERR ≠ NONE only in SHUTTING_DOWN and TERMINATED" (R69). -/
  err : s.err ≠ .none → s.seq.state = .shuttingDown ∨ s.seq = .terminated
  /-- "SPEC_SEQ is odd only in (STREAMING, ANALYZE) and (DIAG, ANALYZE)" (R69), and there it is (R56). -/
  specSeq : s.publishing = true ↔ s.seq = .strAnalyze ∨ s.seq = .diagAnalyze
  /-- A cause is recorded exactly while CMDERR is set (R48, R163). -/
  cause : s.cmdErr = true ↔ s.cmdErrCause ≠ .none
  /-- The checks that lead to a position have been passed. -/
  checked : ConfigChecked s
  /-- LAST_TX_BYTES is not negative once the push has succeeded, until the next one (R269, R272). -/
  txBytes : s.seq = .strRefillWait ∨ s.seq = .strAnalyze ∨ s.seq = .strCount → respNegative s.lastTxBytes = false
  /-- LAST_RX_BYTES is not negative once the refill has succeeded, until the next one (R270, R272). -/
  rxBytes : s.seq = .strAnalyze ∨ s.seq = .strCount → respNegative s.lastRxBytes = false

/-- The configuration registers hold the same values in two states (R30). -/
abbrev SameConfig (s t : State) : Prop :=
  t.ctrlWrap = s.ctrlWrap ∧ t.fftSize = s.fftSize ∧ t.sampleRate = s.sampleRate ∧ t.toneA = s.toneA ∧
  t.toneF1 = s.toneF1 ∧ t.toneF2 = s.toneF2 ∧ t.dbFloor = s.dbFloor

/-- The transitions a SEQ step makes (the rows of the table of R263 whose condition is a SEQ step). -/
def seqTransitions : List (SeqPos × SeqPos) :=
  [(.diagWgen, .idle), (.diagAnalyze, .idle), (.diagSynth, .idle),
   (.initCheck, .sdReleaseLocal), (.initCheck, .initCfgWait),
   (.initCfgWait, .sdReleaseLocal), (.initCfgWait, .initBuild),
   (.initBuild, .sdReleaseLocal), (.initBuild, .strCk),
   (.strCk, .sdReleaseLocal), (.strCk, .strPushWait),
   (.strPushWait, .sdReleaseLocal), (.strPushWait, .strRefillWait),
   (.strRefillWait, .sdReleaseLocal), (.strRefillWait, .strAnalyze),
   (.strAnalyze, .strCount), (.strCount, .strSynth), (.strSynth, .strCk),
   (.sdReleaseLocal, .sdRelTxWait), (.sdReleaseLocal, .terminated),
   (.sdRelTxWait, .sdRelRxWait), (.sdRelRxWait, .sdCloseWait), (.sdCloseWait, .terminated)]

/-- The transitions a host command makes (the first two rows of the table of R263). -/
def hostTransitions : List (SeqPos × SeqPos) :=
  [(.idle, .initCheck), (.idle, .diagWgen), (.idle, .diagAnalyze), (.idle, .diagSynth)]

/-- `r` is `x / d` multiples of 2^-1074 rounded once to binary64, to nearest with ties to even: finite and nearest below
the middle between the greatest finite value and the next power of two, the infinity of its sign from there on (R11); 18014398509481983 is `2^54 - 1`. -/
def F64.NearestEven (r : Word) (x d : Int) : Prop :=
  (2 * |x| < 18014398509481983 * (d * (F64.topStep : Int)) → F64.isFinite r = true ∧ ∀ y : Word, F64.isFinite y = true →
    |F64.scaled r * d - x| ≤ |F64.scaled y * d - x| ∧
    (|F64.scaled r * d - x| = |F64.scaled y * d - x| → F64.scaled y ≠ F64.scaled r → r.getLsbD 0 = false)) ∧
  (18014398509481983 * (d * (F64.topStep : Int)) ≤ 2 * |x| → r = F64.inf (decide (x < 0)))

/-- A session is on: INIT, STREAMING or SHUTTING_DOWN. -/
def SeqPos.inSession (p : SeqPos) : Bool := p.state == .init || p.state == .streaming || p.state == .shuttingDown

/-- A SEQ step is enabled: a step is pending and, if it is a wait, there is a response to consume (R260). -/
def SeqEnabled (s : State) : Prop :=
  s.seq ≠ .idle ∧ s.seq ≠ .terminated ∧ (s.seq.awaits ≠ .none → s.xresp ≠ none)

/-- An XPORT step is enabled: a request is outstanding (R261). -/
def XportEnabled (s : State) : Prop := s.xreq ≠ .none

/-- The machine after `n` steps when an unending schedule says whose turn each step is: "a model interleaves them in any
order" (R18). -/
def State.under (σ : Nat → Event) (s : State) : Nat → Res
  | 0 => .next s
  | n + 1 =>
    match State.under σ s n with
    | .next t => step { t with agenda := [σ n] }
    | stop => stop

/-- The progress assumptions of R364 on a schedule: from every state reached, "(a) an enabled XPORT step is eventually taken"
and "(b) an enabled SEQ step is eventually taken". -/
def Fair (σ : Nat → Event) (s : State) : Prop :=
  ∀ n t, s.under σ n = .next t →
    (XportEnabled t → ∃ m, n ≤ m ∧ σ m = .xport) ∧ (SeqEnabled t → ∃ m, n ≤ m ∧ σ m = .seq)

/-- A safe run: however many steps are taken, none stops. -/
def Safe (s : State) : Prop := ∀ k, ∃ t, Host.Core.run Sys2Proof.core k s = .next t

end Sys2Proof.Machine
end

