-- ==== Sys2Proof/Certificates/Slice0/Obligations.lean ====
section
/-! DEFINITION. The statements for the provers, from the numbered rules of spec/. OBLIGATIONS.json lists them. -/

open Sys2Proof Sys2Proof.Machine

/-! ### Encodings -/

/-- Decoding the packet that carries a well-formed instruction gives the instruction back: no bit of an encoding is
dropped (R121, R129, R131, R133). -/
def Obligations.DecodeInvertsEncode : Prop :=
  ∀ i : Instr, i.wellFormed = true → decode (encode i) = .ok i

/-- A packet that decodes carries a well-formed instruction whose encoding is that packet: each packet has one meaning. -/
def Obligations.EncodeInvertsDecode : Prop :=
  ∀ (p : Packet) (i : Instr), decode p = .ok i → i.wellFormed = true ∧ encode i = p

/-- Words and transactions written out from the tables of R122, R129 and R133 decode to what they stand for. -/
def Obligations.WrittenOutWordsDecode : Prop :=
  decodeCmd 0x0000000000000000 = .nop ∧ decodeCmd 0x0000000000000001 = .start ∧
  decodeCmd 0x0000000000000010 = .wgen ∧ decodeCmd 0x0000000000000101 = .reservedCmd 0x0000000000000101 ∧
  decode (.port 0x0000000000000003) = .ok .treqRefill ∧ decode (.port 0x0000000000000006) = .ok .treqClose ∧
  decode (.bus (.write 0x0000018 64 4)) = .ok (.wrConfig .fftSize 4) ∧
  decode (.bus (.write 0x1000008 64 0x3FF0000000000000)) = .ok (.wrRam (.win 1) 0x3FF0000000000000) ∧
  decode (.bus (.read 0x2000018 64)) = .ok (.rd 0x2000018 64)

/-- "Every other CMD word is reserved: a word with RSV ≠ 0, or with OP not in the table of rule R122", and only those; a
reserved word is rejected with cause RESERVED and has no other effect, in every state (R123). -/
def Obligations.OtherCommandWordsAreReserved : Prop :=
  (∀ w : Word, decodeCmd w = .reservedCmd w ↔
    w.extractLsb' 8 56 ≠ 0 ∨ w.extractLsb' 0 8 ∉ ([0x00, 0x01, 0x02, 0x10, 0x11, 0x12] : List (BitVec 8))) ∧
  (∀ (w : Word) (s : State), ∃ b, exec (.reservedCmd w) s =
    .next { s with cmdErr := true, cmdErrCause := .reserved, bus := b })

/-! ### The step -/

/-- A step takes the next turn: the head of the agenda, or where it ends XPORT's while a request is outstanding, else SEQ's.
HOST's runs the instruction the next bus transaction of its program decodes to, a `poll` at its head makes one read and is
done with when the data meet its condition; XPORT's runs the instruction the word on the port decodes to (none when the port
is empty), SEQ's the pending step. Agenda, program and the turns past the agenda's end are the model's (log 1, log 13,
log 21), and so are that a poll makes one read in a turn and goes on after a bus error (log 20). -/
def Obligations.StepRunsTheDecodedInstruction : Prop :=
  (∀ (s : State) (b : BusAccess) (ops : List HostOp) (i : Instr), s.nextTurn = .host → s.program = .access b :: ops →
    decode (.bus b) = .ok i → step s = exec i { s with program := ops, agenda := s.agenda.tail }) ∧
  (∀ (s : State) (a : Offset) (mask value : Word) (ops : List HostOp), s.nextTurn = .host →
    s.program = .poll a mask value :: ops → ∃ t, exec (.rd a 64) { s with agenda := s.agenda.tail } = .next t ∧
      (∀ v, t.bus = .data v → v &&& mask = value → step s = .next { t with program := ops }) ∧
      ((∀ v, t.bus = .data v → v &&& mask ≠ value) → step s = .next t)) ∧
  (∀ s : State, s.nextTurn = .host → s.program = [] → step s = .next { s with agenda := s.agenda.tail }) ∧
  (∀ (s : State) (i : Instr), s.nextTurn = .xport →
    decode (.port s.xreq.word) = .ok i → step s = exec i { s with agenda := s.agenda.tail }) ∧
  (∀ s : State, s.nextTurn = .xport → s.xreq = .none → step s = .next { s with agenda := s.agenda.tail }) ∧
  (∀ s : State, s.nextTurn = .seq → step s = seqTurn { s with agenda := s.agenda.tail }) ∧
  (∀ (s : State) (e : Event) (es : List Event), s.agenda = e :: es → s.nextTurn = e) ∧
  (∀ s : State, s.agenda = [] → s.nextTurn = if s.xreq = .none then .seq else .xport)

/-- A word of the opcode table placed by `withFetchWord` is what the very next step runs. -/
def Obligations.FetchWordRunsNext : Prop :=
  ∀ (s : State) (w : Word) (i : Instr), decodeTableWord 64 w.toNat = some i →
    step (s.withFetchWord 64 w.toNat) = exec i { s with xreq := i.request?.getD s.xreq }

/-! ### Commands -/

/-- NOP changes nothing, in any state (R154). What the bus answers is left open here (`b`; log 8). -/
def Obligations.NopChangesNothing : Prop :=
  ∀ s : State, ∃ b, exec .nop s = .next { s with bus := b }

/-- START in IDLE clears CANCEL and ERR and goes to (INIT, CHECK); outside IDLE it is rejected with cause STATE (R155). -/
def Obligations.StartBeginsASession : Prop :=
  ∀ s : State,
    (s.seq = .idle → ∃ b, exec .start s =
      .next { s with cancel := false, err := .none, seq := .initCheck, bus := b }) ∧
    (s.seq ≠ .idle → ∃ b, exec .start s = .next { s with cmdErr := true, cmdErrCause := .state, bus := b })

/-- CANCEL sets STATUS.CANCEL in every state and changes nothing else (R156); the bus acknowledges the write, which is the
model's choice (log 8). -/
def Obligations.CancelSetsTheFlag : Prop :=
  ∀ s : State, exec .cancel s = .next { s with cancel := true, bus := .ack }

/-- WGEN: the checks STATE, CONFIG, DIVZERO in that order, else (DIAG, WGEN) (R157). -/
def Obligations.WgenCommand : Prop :=
  ∀ s : State,
    (s.seq ≠ .idle → ∃ b, exec .wgen s = .next { s with cmdErr := true, cmdErrCause := .state, bus := b }) ∧
    (s.seq = .idle → s.fftSize.toNat = 0 ∨ s.par.nmax < s.fftSize.toNat →
      ∃ b, exec .wgen s = .next { s with cmdErr := true, cmdErrCause := .config, bus := b }) ∧
    (s.seq = .idle → s.fftSize.toNat = 1 → 1 ≤ s.par.nmax →
      ∃ b, exec .wgen s = .next { s with cmdErr := true, cmdErrCause := .divzero, bus := b }) ∧
    (s.seq = .idle → 2 ≤ s.fftSize.toNat → s.fftSize.toNat ≤ s.par.nmax →
      ∃ b, exec .wgen s = .next { s with seq := .diagWgen, bus := b })

/-- ANALYZE: STATE, then CONFIG for `N = 0`, `N > min(NMAX, BLOCK_LEN)` or a sample rate not finite and positive, else
SPEC_SEQ grows by 1 and the sequencer goes to (DIAG, ANALYZE) (R158). -/
def Obligations.AnalyzeCommand : Prop :=
  ∀ s : State,
    (s.seq ≠ .idle → ∃ b, exec .analyze s = .next { s with cmdErr := true, cmdErrCause := .state, bus := b }) ∧
    (s.seq = .idle →
      s.fftSize.toNat = 0 ∨ min s.par.nmax s.par.blockLen < s.fftSize.toNat ∨
        ¬ (F64.isFinite s.sampleRate = true ∧ F64.isPos s.sampleRate = true) →
      ∃ b, exec .analyze s = .next { s with cmdErr := true, cmdErrCause := .config, bus := b }) ∧
    (s.seq = .idle → 1 ≤ s.fftSize.toNat → s.fftSize.toNat ≤ min s.par.nmax s.par.blockLen →
      F64.isFinite s.sampleRate = true → F64.isPos s.sampleRate = true →
      ∃ b, exec .analyze s = .next { s with specSeq := s.specSeq + 1, seq := .diagAnalyze, bus := b })

/-- SYNTH: STATE, then CONFIG for an illegal sample rate or a tone register that is not finite, else (DIAG, SYNTH)
(R159). -/
def Obligations.SynthCommand : Prop :=
  ∀ s : State,
    (s.seq ≠ .idle → ∃ b, exec .synth s = .next { s with cmdErr := true, cmdErrCause := .state, bus := b }) ∧
    (s.seq = .idle →
      ¬ (F64.isFinite s.sampleRate = true ∧ F64.isPos s.sampleRate = true ∧ F64.isFinite s.toneA = true ∧
        F64.isFinite s.toneF1 = true ∧ F64.isFinite s.toneF2 = true) →
      ∃ b, exec .synth s = .next { s with cmdErr := true, cmdErrCause := .config, bus := b }) ∧
    (s.seq = .idle → F64.isFinite s.sampleRate = true → F64.isPos s.sampleRate = true →
      F64.isFinite s.toneA = true → F64.isFinite s.toneF1 = true → F64.isFinite s.toneF2 = true →
      ∃ b, exec .synth s = .next { s with seq := .diagSynth, bus := b })

/-! ### Host reads -/

/-- A legal read of any of the 21 registers returns its current value and changes nothing but the bus: CMD and EXIT_STATUS
read 0, CTRL reads WRAP in bit 0, STATUS is assembled from its fields, BLOCK_LEN, SAMPLE_BYTES and NMAX show the parameters,
every other register the field of its name; PHASE is a draw while the block is synthesizing (R88; a draw's bookkeeping is
the model's, log 2 and log 23). -/
def Obligations.RegisterReads : Prop :=
  ∀ s : State,
    (∀ r : Reg, r ≠ .phase →
      exec (.rd (BitVec.ofNat 28 r.offset) 64) s = .next { s with bus := .data (s.readReg r) }) ∧
    (s.seq ≠ .strSynth → s.seq ≠ .diagSynth →
      exec (.rd 0x048 64) s = .next { s with bus := .data s.phase }) ∧
    (s.seq = .strSynth ∨ s.seq = .diagSynth →
      exec (.rd 0x048 64) s =
        .next { s with bus := .data (s.draw 0), oracle := s.oracle.drop 1, drawn := s.drawn + 1 }) ∧
    s.readReg .ctrl = (if s.ctrlWrap then 1 else 0) ∧ s.readReg .cmd = 0 ∧ s.readReg .status = s.statusWord ∧
    s.readReg .fftSize = s.fftSize ∧ s.readReg .sampleRate = s.sampleRate ∧ s.readReg .toneA = s.toneA ∧
    s.readReg .toneF1 = s.toneF1 ∧ s.readReg .toneF2 = s.toneF2 ∧ s.readReg .dbFloor = s.dbFloor ∧
    s.readReg .phase = s.phase ∧ s.readReg .phaseInc = s.phaseInc ∧ s.readReg .rxCount = s.rxCount ∧
    s.readReg .txCount = s.txCount ∧ s.readReg .cycleCount = s.cycleCount ∧ s.readReg .lastTxBytes = s.lastTxBytes ∧
    s.readReg .lastRxBytes = s.lastRxBytes ∧ s.readReg .specSeq = s.specSeq ∧ s.readReg .exitStatus = 0 ∧
    s.readReg .blockLen = BitVec.ofNat 64 s.par.blockLen ∧ s.readReg .sampleBytes = BitVec.ofNat 64 s.par.sampleBytes ∧ s.readReg .nmax = BitVec.ofNat 64 s.par.nmax

/-- STATUS has the layout of R41: each field in its bits, every reserved bit 0. -/
def Obligations.StatusLayout : Prop :=
  ∀ s : State,
    s.statusWord.extractLsb' 0 3 = s.seq.state.code ∧ s.statusWord.extractLsb' 4 3 = s.seq.sub ∧
    s.statusWord.extractLsb' 8 3 = s.err.code ∧ s.statusWord.extractLsb' 24 3 = s.cmdErrCause.code ∧
    s.statusWord.getLsbD 12 = s.cancel ∧ s.statusWord.getLsbD 13 = s.txOwn ∧ s.statusWord.getLsbD 14 = s.rxOwn ∧
    s.statusWord.getLsbD 15 = s.planValid ∧ s.statusWord.getLsbD 16 = s.xportOpen ∧
    s.statusWord.getLsbD 17 = s.sinkOpen ∧
    s.statusWord.getLsbD 18 = (decide (s.xreq ≠ .none) || s.xresp.isSome) ∧
    s.statusWord.getLsbD 20 = s.cmdErr ∧ s.statusWord.getLsbD 21 = s.accErr ∧
    s.statusWord.getLsbD 3 = false ∧ s.statusWord.getLsbD 7 = false ∧ s.statusWord.getLsbD 11 = false ∧
    s.statusWord.getLsbD 19 = false ∧ s.statusWord.extractLsb' 22 2 = 0 ∧ s.statusWord.extractLsb' 27 37 = 0

/-- The codes of the STATUS fields: the (STATE, SUB) pair of every position, and no other pair is held (R42, R43), the error
kinds (R44) and the causes of a rejected command (R48). -/
def Obligations.StatusCodes : Prop :=
  ((SeqPos.idle.state.code = 0 ∧ SeqPos.idle.sub = 0) ∧ (SeqPos.initCheck.state.code = 1 ∧ SeqPos.initCheck.sub = 0) ∧
    (SeqPos.initCfgWait.state.code = 1 ∧ SeqPos.initCfgWait.sub = 1) ∧ (SeqPos.initBuild.state.code = 1 ∧ SeqPos.initBuild.sub = 2) ∧
    (SeqPos.strCk.state.code = 2 ∧ SeqPos.strCk.sub = 0) ∧ (SeqPos.strPushWait.state.code = 2 ∧ SeqPos.strPushWait.sub = 1) ∧
    (SeqPos.strRefillWait.state.code = 2 ∧ SeqPos.strRefillWait.sub = 2) ∧ (SeqPos.strAnalyze.state.code = 2 ∧ SeqPos.strAnalyze.sub = 3) ∧
    (SeqPos.strCount.state.code = 2 ∧ SeqPos.strCount.sub = 4) ∧ (SeqPos.strSynth.state.code = 2 ∧ SeqPos.strSynth.sub = 5) ∧
    (SeqPos.sdReleaseLocal.state.code = 3 ∧ SeqPos.sdReleaseLocal.sub = 0) ∧ (SeqPos.sdRelTxWait.state.code = 3 ∧ SeqPos.sdRelTxWait.sub = 1) ∧
    (SeqPos.sdRelRxWait.state.code = 3 ∧ SeqPos.sdRelRxWait.sub = 2) ∧ (SeqPos.sdCloseWait.state.code = 3 ∧ SeqPos.sdCloseWait.sub = 3) ∧
    (SeqPos.terminated.state.code = 4 ∧ SeqPos.terminated.sub = 0) ∧ (SeqPos.diagWgen.state.code = 5 ∧ SeqPos.diagWgen.sub = 0) ∧
    (SeqPos.diagAnalyze.state.code = 5 ∧ SeqPos.diagAnalyze.sub = 1) ∧ (SeqPos.diagSynth.state.code = 5 ∧ SeqPos.diagSynth.sub = 2)) ∧
  (ErrKind.none.code = 0 ∧ ErrKind.configuration.code = 1 ∧ ErrKind.divideByZero.code = 2 ∧
    ErrKind.transportWrite.code = 3 ∧ ErrKind.transportRead.code = 4) ∧
  (CmdCause.none.code = 0 ∧ CmdCause.reserved.code = 1 ∧ CmdCause.state.code = 2 ∧ CmdCause.config.code = 3 ∧
    CmdCause.divzero.code = 4) ∧
  (∀ p : SeqPos, (p.state.code, p.sub) ∈ ([(0, 0), (1, 0), (1, 1), (1, 2), (2, 0), (2, 1), (2, 2), (2, 3), (2, 4), (2, 5),
    (3, 0), (3, 1), (3, 2), (3, 3), (4, 0), (5, 0), (5, 1), (5, 2)] : List (BitVec 3 × BitVec 3)))

/-- A legal read of a RAM word returns the stored word where R88 makes it no draw, and a draw where it does: WIN in INIT and
(DIAG, WGEN), SPEC while SPEC_SEQ is odd, RXBUF while RXOWN = 1, TXBUF in BUILD and the SYNTH steps. -/
def Obligations.RamReads : Prop :=
  ∀ s : State, s.par.Legal →
    (∀ j, j < s.par.nmax → exec (.rd (BitVec.ofNat 28 (0x01000000 + 8 * j)) 64) s =
      if s.seq.state = .init ∨ s.seq = .diagWgen
      then .next { s with bus := .data (s.draw 0), oracle := s.oracle.drop 1, drawn := s.drawn + 1 }
      else .next { s with bus := .data (s.win j) }) ∧
    (∀ k, k < s.par.nmax → exec (.rd (BitVec.ofNat 28 (0x02000000 + 16 * k)) 64) s =
      if s.specSeq.toNat % 2 = 1
      then .next { s with bus := .data (s.draw 0), oracle := s.oracle.drop 1, drawn := s.drawn + 1 }
      else .next { s with bus := .data (s.specFreq k) }) ∧
    (∀ k, k < s.par.nmax → exec (.rd (BitVec.ofNat 28 (0x02000000 + 16 * k + 8)) 64) s =
      if s.specSeq.toNat % 2 = 1
      then .next { s with bus := .data (s.draw 0), oracle := s.oracle.drop 1, drawn := s.drawn + 1 }
      else .next { s with bus := .data (s.specMag k) }) ∧
    (∀ m, m < s.par.blockLen / 2 → exec (.rd (BitVec.ofNat 28 (0x04000000 + 8 * m)) 64) s =
      if s.rxOwn = true
      then .next { s with bus := .data (s.draw 0), oracle := s.oracle.drop 1, drawn := s.drawn + 1 }
      else .next { s with bus := .data (sample2 (s.rxbuf (2 * m)) (s.rxbuf (2 * m + 1))) }) ∧
    (∀ m, m < s.par.blockLen / 2 → exec (.rd (BitVec.ofNat 28 (0x08000000 + 8 * m)) 64) s =
      if s.seq = .initBuild ∨ s.seq = .strSynth ∨ s.seq = .diagSynth
      then .next { s with bus := .data (s.draw 0), oracle := s.oracle.drop 1, drawn := s.drawn + 1 }
      else .next { s with bus := .data (sample2 (s.txbuf (2 * m)) (s.txbuf (2 * m + 1))) })

/-- An access that is not 64 bits wide, is misaligned, or is to an offset that holds nothing is a bus error and changes no
state of the block, reads and writes alike (R87, R328). -/
def Obligations.IllegalAccessIsABusError : Prop :=
  ∀ (s : State) (a : Offset) (width : Nat) (d : Word), s.par.Legal →
    (width ≠ 64 ∨ a.toNat % 8 ≠ 0 ∨
      (0x0A8 ≤ a.toNat ∧ a.toNat < 0x01000000) ∨
      (0x01000000 + 8 * s.par.nmax ≤ a.toNat ∧ a.toNat < 0x02000000) ∨
      (0x02000000 + 16 * s.par.nmax ≤ a.toNat ∧ a.toNat < 0x04000000) ∨
      (0x04000000 + 4 * s.par.blockLen ≤ a.toNat ∧ a.toNat < 0x08000000) ∨
      0x08000000 + 4 * s.par.blockLen ≤ a.toNat) →
    exec (.rd a width) s = .next { s with bus := .err } ∧
    exec (.wr a width d) s = .next { s with bus := .err } ∧
    exec (decodeBus (.write a width d)) s = .next { s with bus := .err }

/-! ### Host writes -/

/-- A write of STATUS clears CMDERR and CMDERR_CAUSE by bit 20 and ACCERR by bit 21, and nothing else (R163). -/
def Obligations.StatusWriteClearsStickyBits : Prop :=
  ∀ (s : State) (d : Word), ∃ b, exec (.wrStatus d) s =
    .next { s with
      cmdErr := (if d.getLsbD 20 = true then false else s.cmdErr)
      cmdErrCause := (if d.getLsbD 20 = true then .none else s.cmdErrCause)
      accErr := (if d.getLsbD 21 = true then false else s.accErr)
      bus := b }

/-- A configuration write is taken in IDLE: the register then reads what was written (CTRL its bit 0), every other register
and all of RAM is unchanged; outside IDLE it is refused and changes nothing but ACCERR (R164). -/
def Obligations.ConfigurationWrite : Prop :=
  ∀ (s : State) (r : ConfigReg) (d : Word),
    (s.seq = .idle → ∃ t, exec (.wrConfig r d) s = .next t ∧
      t.readReg r.toReg = (if r = .ctrl then d &&& 1 else d) ∧
      (∀ r' : Reg, r' ≠ r.toReg → t.readReg r' = s.readReg r') ∧
      t = { s with
        ctrlWrap := t.ctrlWrap, fftSize := t.fftSize, sampleRate := t.sampleRate, toneA := t.toneA
        toneF1 := t.toneF1, toneF2 := t.toneF2, dbFloor := t.dbFloor, phase := t.phase, bus := t.bus }) ∧
    (s.seq ≠ .idle → ∃ b, exec (.wrConfig r d) s = .next { s with accErr := true, bus := b })

/-- A write of a WIN word in IDLE stores it in the entry; every byte of RAM outside the entry and every register is
unchanged. Outside IDLE it is refused with ACCERR; an entry the implementation does not have is a bus error (R165, R82). -/
def Obligations.WindowWrite : Prop :=
  ∀ (s : State) (j : BitVec 21) (d : Word),
    (s.seq = .idle → j.toNat < s.par.nmax → ∃ t, exec (.wrRam (.win j) d) s = .next t ∧ t.win j.toNat = d ∧
      (∀ a, a < 0x01000000 + 8 * j.toNat ∨ 0x01000000 + 8 * j.toNat + 8 ≤ a → t.byteAt a = s.byteAt a) ∧
      t = { s with mem := t.mem, bus := .ack }) ∧
    (s.seq ≠ .idle → j.toNat < s.par.nmax →
      exec (.wrRam (.win j) d) s = .next { s with accErr := true, bus := .ack }) ∧
    (s.par.nmax ≤ j.toNat → exec (.wrRam (.win j) d) s = .next { s with bus := .err })

/-- A write of an RXBUF word in IDLE stores its two pairs, I in the low half of each; every byte outside the word and every
register is unchanged. Outside IDLE it is refused; a word that does not exist is a bus error (R165, R83). -/
def Obligations.SampleWrite : Prop :=
  ∀ (s : State) (m : BitVec 23) (d : Word),
    (s.seq = .idle → m.toNat < s.par.blockLen / 2 → ∃ t, exec (.wrRam (.rxbuf m) d) s = .next t ∧
      t.rxbuf (2 * m.toNat) = { i := d.extractLsb' 0 16, q := d.extractLsb' 16 16 } ∧
      t.rxbuf (2 * m.toNat + 1) = { i := d.extractLsb' 32 16, q := d.extractLsb' 48 16 } ∧
      (∀ a, a < 0x04000000 + 8 * m.toNat ∨ 0x04000000 + 8 * m.toNat + 8 ≤ a → t.byteAt a = s.byteAt a) ∧
      t = { s with mem := t.mem, bus := .ack }) ∧
    (s.seq ≠ .idle → m.toNat < s.par.blockLen / 2 →
      exec (.wrRam (.rxbuf m) d) s = .next { s with accErr := true, bus := .ack }) ∧
    (s.par.blockLen / 2 ≤ m.toNat → exec (.wrRam (.rxbuf m) d) s = .next { s with bus := .err })

/-- WR by its target, for every 64-bit write: what WR does at an offset is what the row the decoder names for that write
does (R152); so the opcode table's sub-cases and WR itself are one machine. -/
def Obligations.WriteIsItsSubcase : Prop :=
  ∀ (s : State) (a : Offset) (width : Nat) (d : Word),
    exec (.wr a width d) s = exec (decodeBus (.write a width d)) s

/-- WR by its target, written out: of a configuration register in IDLE it writes the register and nothing else, of STATUS it
clears sticky bits, of CMD it runs the command word, of an existing WIN or RXBUF word in IDLE it stores the word, and of a
read-only register, a SPEC word or a TXBUF word it changes nothing but ACCERR (R152, R89). -/
def Obligations.WriteByTarget : Prop :=
  ∀ (s : State) (d : Word), s.par.Legal →
    (∀ r : ConfigReg, s.seq = .idle → ∃ t,
      exec (.wr (BitVec.ofNat 28 r.toReg.offset) 64 d) s = .next t ∧
      t.readReg r.toReg = (if r = .ctrl then d &&& 1 else d) ∧
      (∀ r' : Reg, r' ≠ r.toReg → t.readReg r' = s.readReg r') ∧
      t = { s with
        ctrlWrap := t.ctrlWrap, fftSize := t.fftSize, sampleRate := t.sampleRate, toneA := t.toneA
        toneF1 := t.toneF1, toneF2 := t.toneF2, dbFloor := t.dbFloor, phase := t.phase, bus := .ack }) ∧
    (∀ r : ConfigReg, s.seq ≠ .idle →
      exec (.wr (BitVec.ofNat 28 r.toReg.offset) 64 d) s = .next { s with accErr := true, bus := .ack }) ∧
    exec (.wr 0x008 64 d) s = exec (decodeCmd d) s ∧
    exec (.wr 0x010 64 d) s = exec (.wrStatus d) s ∧
    (∀ a, (0x01000000 ≤ a ∧ a < 0x01000000 + 8 * s.par.nmax) ∨ (0x04000000 ≤ a ∧ a < 0x04000000 + 4 * s.par.blockLen) →
      a % 8 = 0 → s.seq = .idle → ∃ t, exec (.wr (BitVec.ofNat 28 a) 64 d) s = .next t ∧ t.wordAt a = d ∧
        (∀ x, x < a ∨ a + 8 ≤ x → t.byteAt x = s.byteAt x) ∧ t = { s with mem := t.mem, bus := .ack }) ∧
    (∀ r : Reg, r ∈ [Reg.phaseInc, .rxCount, .txCount, .cycleCount, .lastTxBytes, .lastRxBytes, .specSeq, .exitStatus,
        .blockLen, .sampleBytes, .nmax] →
      exec (.wr (BitVec.ofNat 28 r.offset) 64 d) s = .next { s with accErr := true, bus := .ack }) ∧
    (∀ w, w < 2 * s.par.nmax →
      exec (.wr (BitVec.ofNat 28 (0x02000000 + 8 * w)) 64 d) s = .next { s with accErr := true, bus := .ack }) ∧
    (∀ m, m < s.par.blockLen / 2 →
      exec (.wr (BitVec.ofNat 28 (0x08000000 + 8 * m)) 64 d) s = .next { s with accErr := true, bus := .ack })

/-! ### The transport -/

/-- The transport answers CONFIGURE, RELEASE_TX, RELEASE_RX and CLOSE with a draw, any s64, and empties XREQ; CONFIGURE gives
it STREAM_CFG, whatever that is (R14; the field that records it is the model's, log 9); nothing else changes (R261). -/
def Obligations.TransportAnswers : Prop :=
  ∀ s : State,
    (∀ i : Instr, i ∈ [Instr.treqReleaseTx, .treqReleaseRx, .treqClose] →
      exec i s = .next { s with
        xresp := some (s.draw 0), xreq := .none, oracle := s.oracle.drop 1, drawn := s.drawn + 1 }) ∧
    exec .treqConfigure s = .next { s with
      xresp := some (s.draw 0), xreq := .none, oracle := s.oracle.drop 1, drawn := s.drawn + 1
      configured := some Config.streamCfg }

/-- PUSH is answered likewise; the transport takes the block TXBUF holds and changes neither buffer (R261). -/
def Obligations.PushTakesTheBlock : Prop :=
  ∀ s : State, ∃ t, exec .treqPush s = .next t ∧
    (∀ n, n < s.par.blockLen → t.sent[n]? = some (s.txbuf n)) ∧ t.sent.length = s.par.blockLen ∧
    t = { s with
      xresp := some (s.draw 0), xreq := .none, oracle := s.oracle.drop 1, drawn := s.drawn + 1, sent := t.sent }

/-- REFILL is answered with a draw and leaves a draw in every pair of RXBUF, whatever the answer; every byte outside RXBUF
and every other register is unchanged (R261). -/
def Obligations.RefillDrawsTheBlock : Prop :=
  ∀ s : State, ∃ t, exec .treqRefill s = .next t ∧
    (∀ n, n < s.par.blockLen → t.rxbuf n =
      { i := (s.draw (1 + n)).extractLsb' 0 16, q := (s.draw (1 + n)).extractLsb' 16 16 }) ∧
    (∀ a, a < 0x04000000 ∨ 0x04000000 + 4 * s.par.blockLen ≤ a → t.byteAt a = s.byteAt a) ∧
    t = { s with
      mem := t.mem, xresp := some (s.draw 0), xreq := .none
      oracle := s.oracle.drop (1 + s.par.blockLen), drawn := s.drawn + (1 + s.par.blockLen) }

/-! ### INIT -/

/-- (INIT, CHECK): a configuration that fails a static check raises CONFIGURATION_ERROR and issues nothing; one that passes
issues CONFIGURE and waits (R265). -/
def Obligations.InitChecksTheConfiguration : Prop :=
  ∀ s : State, s.seq = .initCheck →
    (s.fftSize.toNat = 0 ∨ min s.par.nmax s.par.blockLen < s.fftSize.toNat ∨
        ¬ (F64.isFinite s.sampleRate = true ∧ F64.isPos s.sampleRate = true) ∨
        ¬ (F64.isFinite s.toneA = true ∧ F64.isFinite s.toneF1 = true ∧ F64.isFinite s.toneF2 = true) →
      seqTurn s = .next { s with err := .configuration, seq := .sdReleaseLocal }) ∧
    (1 ≤ s.fftSize.toNat → s.fftSize.toNat ≤ min s.par.nmax s.par.blockLen →
      F64.isFinite s.sampleRate = true → F64.isPos s.sampleRate = true → F64.isFinite s.toneA = true →
      F64.isFinite s.toneF1 = true → F64.isFinite s.toneF2 = true → s.xreq = .none → s.xresp = none →
      seqTurn s = .next { s with xreq := .configure, seq := .initCfgWait })

/-- (INIT, CFG_WAIT): the response is consumed; negative raises CONFIGURATION_ERROR, else the transport is open and BUILD
is next (R266). -/
def Obligations.ConfigureResponse : Prop :=
  ∀ (s : State) (r : Word), s.seq = .initCfgWait → s.xresp = some r →
    (r.toInt < 0 → seqTurn s =
      .next { s with xresp := none, err := .configuration, seq := .sdReleaseLocal }) ∧
    (0 ≤ r.toInt → seqTurn s = .next { s with xresp := none, xportOpen := true, seq := .initBuild })

/-- (INIT, BUILD): with `N < 2` DIVIDE_BY_ZERO is raised and nothing else is written; with `N >= 2` WIN[0..N-1] holds the
Hann taper, TXBUF the zero block, plan and sink are held, StreamState is zeroed, PHASE_INC is fl(1.0/fs), and every other
byte and register is unchanged (R267). -/
def Obligations.BuildPreparesTheSession : Prop :=
  ∀ s : State, s.seq = .initBuild →
    (s.fftSize.toNat < 2 → seqTurn s = .next { s with err := .divideByZero, seq := .sdReleaseLocal }) ∧
    (s.par.Legal → 2 ≤ s.fftSize.toNat → s.fftSize.toNat ≤ s.par.nmax → ∃ t, seqTurn s = .next t ∧
      (∀ j, j < s.fftSize.toNat → t.win j = hann64 j s.fftSize.toNat) ∧
      (∀ i, i < s.par.blockLen → t.txbuf i = { i := 0, q := 0 }) ∧
      (∀ a, ¬ (0x01000000 ≤ a ∧ a < 0x01000000 + 8 * s.fftSize.toNat) →
        ¬ (0x08000000 ≤ a ∧ a < 0x08000000 + 4 * s.par.blockLen) → t.byteAt a = s.byteAt a) ∧
      t = { s with
        mem := t.mem, planValid := true, sinkOpen := true, rxCount := 0, txCount := 0, cycleCount := 0
        lastTxBytes := 0, lastRxBytes := 0, phase := 0, phaseInc := F64.div F64.one s.sampleRate, seq := .strCk })

/-! ### STREAMING -/

/-- (STREAMING, CK): with CANCEL set the session shuts down with ERR unchanged; else TXBUF is handed over and PUSH is
issued (R268). -/
def Obligations.CheckpointStep : Prop :=
  ∀ s : State, s.seq = .strCk →
    (s.cancel = true → seqTurn s = .next { s with seq := .sdReleaseLocal }) ∧
    (s.cancel = false → s.xreq = .none → s.xresp = none →
      seqTurn s = .next { s with txOwn := true, xreq := .push, seq := .strPushWait })

/-- (STREAMING, PUSH_WAIT): the response is consumed and recorded, TXBUF is back; negative raises TRANSPORT_WRITE_ERROR,
else RXBUF is handed over and REFILL is issued (R269). -/
def Obligations.PushResponse : Prop :=
  ∀ (s : State) (r : Word), s.seq = .strPushWait → s.xresp = some r →
    (r.toInt < 0 → seqTurn s = .next { s with
      xresp := none, txOwn := false, lastTxBytes := r, err := .transportWrite, seq := .sdReleaseLocal }) ∧
    (0 ≤ r.toInt → s.xreq = .none → seqTurn s = .next { s with
      xresp := none, txOwn := false, lastTxBytes := r, rxOwn := true, xreq := .refill, seq := .strRefillWait })

/-- (STREAMING, REFILL_WAIT): the response is consumed and recorded, RXBUF is back; negative raises TRANSPORT_READ_ERROR
with SPEC_SEQ unchanged, else SPEC_SEQ grows by 1 and ANALYZE is next (R270). -/
def Obligations.RefillResponse : Prop :=
  ∀ (s : State) (r : Word), s.seq = .strRefillWait → s.xresp = some r →
    (r.toInt < 0 → seqTurn s = .next { s with
      xresp := none, rxOwn := false, lastRxBytes := r, err := .transportRead, seq := .sdReleaseLocal }) ∧
    (0 ≤ r.toInt → seqTurn s = .next { s with
      xresp := none, rxOwn := false, lastRxBytes := r, specSeq := s.specSeq + 1, seq := .strAnalyze })

/-- The ANALYZE steps write SPEC[0..N-1], frequency and dB of every bin by the formulas of R212 to R218, end the
publication, and leave every byte outside those entries and every other register alone (R222, R271, R161). -/
def Obligations.AnalyzePublishesTheSpectrum : Prop :=
  ∀ (s : State) (xr xi : List Word) (m : Nat → Word), s.seq = .strAnalyze ∨ s.seq = .diagAnalyze →
    xr = (List.range s.fftSize.toNat).map (fun n => F64.mul (F64.ofInt (s.rxbuf n).i.toInt) (s.win n)) →
    xi = (List.range s.fftSize.toNat).map (fun n => F64.mul (F64.ofInt (s.rxbuf n).q.toInt) (s.win n)) →
    m = (fun k => cabs64 (dft64 s.fftSize.toNat xr xi k).1 (dft64 s.fftSize.toNat xr xi k).2) →
    ∃ t, seqTurn s = .next t ∧
      (∀ k, k < s.fftSize.toNat →
        t.specFreq k = F64.mul (F64.div (F64.ofInt k) (F64.ofInt s.fftSize.toNat)) s.sampleRate ∧
        t.specMag k = if F64.isZero (m k) then s.dbFloor else F64.mul 0x4034000000000000 (log10_64 (m k))) ∧
      (∀ a, a < 0x02000000 ∨ 0x02000000 + 16 * s.fftSize.toNat ≤ a → t.byteAt a = s.byteAt a) ∧
      t = { s with
        mem := t.mem, specSeq := s.specSeq + 1, seq := if s.seq = .strAnalyze then .strCount else .idle }

/-- (STREAMING, COUNT): the counters grow by the transferred bytes divided by SAMPLE_BYTES, truncated, modulo 2^64, and
CYCLE_COUNT by 1 (R272). -/
def Obligations.CountStep : Prop :=
  ∀ s : State, s.seq = .strCount → 0 ≤ s.lastRxBytes.toInt → 0 ≤ s.lastTxBytes.toInt → 1 ≤ s.par.sampleBytes →
    ∃ t, seqTurn s = .next t ∧
      (t.rxCount.toNat : Int) =
        ((s.rxCount.toNat : Int) + s.lastRxBytes.toInt / (s.par.sampleBytes : Int)) % 2 ^ 64 ∧
      (t.txCount.toNat : Int) =
        ((s.txCount.toNat : Int) + s.lastTxBytes.toInt / (s.par.sampleBytes : Int)) % 2 ^ 64 ∧
      t.cycleCount = s.cycleCount + 1 ∧
      t = { s with rxCount := t.rxCount, txCount := t.txCount, cycleCount := t.cycleCount, seq := .strSynth }

/-- The SYNTH steps: sample `i` is synth_fn of the accumulator after `i` additions of PHASE_INC, PHASE ends after BLOCK_LEN
of them, every byte outside TXBUF and every other register is unchanged (R245, R273). -/
def Obligations.SynthWritesTheBlock : Prop :=
  ∀ s : State, s.seq = .strSynth →
    ∃ (t : State) (acc : Nat → Word), seqTurn s = .next t ∧
      acc 0 = s.phase ∧ (∀ i, acc (i + 1) = F64.add (acc i) s.phaseInc) ∧
      (∀ i, i < s.par.blockLen →
        (t.txbuf i).i = quant s.ctrlWrap
          (F64.add (F64.mul s.toneA (cos64 (F64.mul (F64.mul 0x401921FB54442D18 s.toneF1) (acc i))))
            (F64.mul s.toneA (cos64 (F64.mul (F64.mul 0x401921FB54442D18 s.toneF2) (acc i))))) ∧
        (t.txbuf i).q = quant s.ctrlWrap
          (F64.add (F64.mul s.toneA (sin64 (F64.mul (F64.mul 0x401921FB54442D18 s.toneF1) (acc i))))
            (F64.mul s.toneA (sin64 (F64.mul (F64.mul 0x401921FB54442D18 s.toneF2) (acc i)))))) ∧
      (∀ a, a < 0x08000000 ∨ 0x08000000 + 4 * s.par.blockLen ≤ a → t.byteAt a = s.byteAt a) ∧
      t = { s with mem := t.mem, phase := acc s.par.blockLen, seq := .strCk }

/-- (DIAG, WGEN) writes the Hann taper into WIN[0..N-1], each entry by the formula of R191 one operation at a time, and
returns to IDLE; nothing else changes (R160). -/
def Obligations.DiagWindowStep : Prop :=
  ∀ s : State, s.seq = .diagWgen →
    ∃ t, seqTurn s = .next t ∧
      (∀ j, j < s.fftSize.toNat → t.win j =
        F64.mul 0x3FE0000000000000 (F64.sub 0x3FF0000000000000
          (cos64 (F64.div (F64.mul 0x401921FB54442D18 (F64.ofInt j)) (F64.ofInt ((s.fftSize.toNat : Int) - 1)))))) ∧
      (∀ a, a < 0x01000000 ∨ 0x01000000 + 8 * s.fftSize.toNat ≤ a → t.byteAt a = s.byteAt a) ∧
      t = { s with mem := t.mem, seq := .idle }

/-- (DIAG, SYNTH) computes PHASE_INC from SAMPLE_RATE and then does what the streaming step does with it, from the PHASE the
host left, and returns to IDLE (R162). -/
def Obligations.DiagSynthIsTheStreamingStep : Prop :=
  ∀ s : State, s.seq = .diagSynth →
    ∃ t u, seqTurn s = .next t ∧
      seqTurn { s with phaseInc := F64.div F64.one s.sampleRate, seq := .strSynth } = .next u ∧
      t = { u with seq := .idle } ∧
      t = { s with
        mem := u.mem, phase := u.phase, phaseInc := F64.div F64.one s.sampleRate, seq := .idle }

/-! ### SHUTTING_DOWN -/

/-- The release sequence: plan and sink first, then, if the transport is open, RELEASE_TX, RELEASE_RX and CLOSE, each after
the response to the one before, whose value is ignored; then TERMINATED with the transport closed (R277 to R280). -/
def Obligations.ReleaseSteps : Prop :=
  ∀ (s : State) (r : Word),
    (s.seq = .sdReleaseLocal → s.xportOpen = false → seqTurn s =
      .next { s with planValid := false, sinkOpen := false, seq := .terminated }) ∧
    (s.seq = .sdReleaseLocal → s.xportOpen = true → s.xreq = .none → s.xresp = none → seqTurn s =
      .next { s with planValid := false, sinkOpen := false, xreq := .releaseTx, seq := .sdRelTxWait }) ∧
    (s.seq = .sdRelTxWait → s.xresp = some r → s.xreq = .none → seqTurn s =
      .next { s with xresp := none, xreq := .releaseRx, seq := .sdRelRxWait }) ∧
    (s.seq = .sdRelRxWait → s.xresp = some r → s.xreq = .none → seqTurn s =
      .next { s with xresp := none, xreq := .close, seq := .sdCloseWait }) ∧
    (s.seq = .sdCloseWait → s.xresp = some r → seqTurn s =
      .next { s with xresp := none, xportOpen := false, seq := .terminated })

/-- SEQ takes no step in IDLE and TERMINATED, nor at a wait while there is no response (R260). -/
def Obligations.SequencerWaits : Prop :=
  ∀ s : State, s.seq = .idle ∨ s.seq = .terminated ∨ (s.seq.awaits ≠ .none ∧ s.xresp = none) →
    seqTurn s = .next s

/-- A second request while one is outstanding is the one stop of the machine: no step is refused; a step that faults is SEQ's
turn at one of the six steps that issue a request, with a port that is not empty, in a state the invariant excludes; and
each of the six does fault then (R262, R274; the fault is the model's choice, log 11). -/
def Obligations.SecondRequestFaults : Prop :=
  (∀ (s : State) (r : Refusal), step s ≠ .refused r) ∧
  (∀ (s : State) (f : Fault), step s = .fault f → f = .requestOutstanding ∧ s.nextTurn = .seq ∧
    s.seq ∈ [SeqPos.initCheck, .strCk, .strPushWait, .sdReleaseLocal, .sdRelTxWait, .sdRelRxWait] ∧
    (s.seq.awaits ≠ .none → s.xresp ≠ none) ∧ (s.xreq ≠ .none ∨ (s.seq.awaits = .none ∧ s.xresp ≠ none)) ∧ ¬ Inv s) ∧
  (∀ s : State, s.nextTurn = .seq → s.xreq ≠ .none ∨ s.xresp ≠ none →
    (s.seq = .initCheck ∧ s.sizeLegal = true ∧ s.rateLegal = true ∧ s.tonesLegal = true) ∨
      (s.seq = .strCk ∧ s.cancel = false) ∨ (s.seq = .sdReleaseLocal ∧ s.xportOpen = true) →
    step s = .fault .requestOutstanding) ∧
  (∀ (s : State) (r : Word), s.nextTurn = .seq → s.xreq ≠ .none → s.xresp = some r →
    (s.seq = .strPushWait ∧ 0 ≤ r.toInt) ∨ s.seq = .sdRelTxWait ∨ s.seq = .sdRelRxWait →
    step s = .fault .requestOutstanding)

/-! ### Reset -/

/-- After reset every register holds the value of the table of R68, the transport port is empty, the sequencer is in IDLE;
STATUS reads 0. -/
def Obligations.ResetValues : Prop :=
  State.reset.ctrlWrap = false ∧ State.reset.fftSize = 0 ∧ State.reset.sampleRate = 0 ∧ State.reset.toneA = 0 ∧
  State.reset.toneF1 = 0 ∧ State.reset.toneF2 = 0 ∧ State.reset.dbFloor = 0xC072C00000000000 ∧
  State.reset.phase = 0 ∧ State.reset.phaseInc = 0 ∧ State.reset.seq = .idle ∧ State.reset.statusWord = 0 ∧
  State.reset.rxCount = 0 ∧ State.reset.txCount = 0 ∧ State.reset.cycleCount = 0 ∧
  State.reset.lastTxBytes = 0 ∧ State.reset.lastRxBytes = 0 ∧ State.reset.specSeq = 0 ∧
  State.reset.xreq = .none ∧ State.reset.xresp = none

/-- The RESET step, from any state: every register as after reset, the port abandoned, IDLE, every RAM byte the fresh reset
image's; the parameters do not change (R350, R351, R352). The model's own fields keep their values (log 14). -/
def Obligations.ResetStep : Prop :=
  ∀ s : State, s.nextTurn = .reset →
    ∃ t, step s = .next t ∧ t.par = s.par ∧ (∀ a, t.byteAt a = Config.ramImage (s.ramEpoch + 1) a) ∧
      t = { State.reset with
        par := s.par, ramEpoch := s.ramEpoch + 1, bus := s.bus, oracle := s.oracle, drawn := s.drawn
        sent := s.sent, configured := s.configured, program := s.program, agenda := s.agenda.tail }

/-! ### The whole machine -/

/-- The machine right after reset meets the invariant. -/
def Obligations.ResetMeetsInvariant : Prop := Inv State.reset

/-- Every step from a state that meets the invariant leads to one that does (R69, R262, R274). -/
def Obligations.StepKeepsInvariant : Prop :=
  ∀ s t : State, Inv s → step s = .next t → Inv t

/-- From a state that meets the invariant no run ever stops: the undefined second request does not arise (R274). -/
def Obligations.InvariantRunsAreSafe : Prop := ∀ s : State, Inv s → Safe s

/-- "No other transition exists": a step moves the sequencer only along a row of the table of R263; the host only from IDLE
by a command, SEQ by its own rows, the transport never, RESET to IDLE. -/
def Obligations.TransitionTable : Prop :=
  ∀ s t : State, step s = .next t →
    match s.nextTurn with
    | .host => t.seq = s.seq ∨ (s.seq, t.seq) ∈ hostTransitions
    | .seq => t.seq = s.seq ∨ (s.seq, t.seq) ∈ seqTransitions
    | .xport => t.seq = s.seq
    | .reset => t.seq = .idle

/-- "Between START and reset" the configuration does not change: outside IDLE no step but reset changes a configuration
register (R285). -/
def Obligations.SessionInputsAreFixed : Prop :=
  ∀ s t : State, s.seq ≠ .idle → s.nextTurn ≠ .reset → step s = .next t → SameConfig s t

/-- STATUS.CANCEL is set only by CANCEL and cleared only by START and by reset; "No other step writes it" (R45). -/
def Obligations.CancelFlagWriters : Prop :=
  ∀ s t : State, step s = .next t →
    (s.cancel = false → t.cancel = true →
      s.nextTurn = .host ∧ ∃ b ops, s.program = .access b :: ops ∧ decodeBus b = .cancel) ∧
    (s.cancel = true → t.cancel = false → s.nextTurn = .reset ∨
      (s.seq = .idle ∧ t.seq = .initCheck ∧ s.nextTurn = .host ∧
        ∃ b ops, s.program = .access b :: ops ∧ decodeBus b = .start))

/-- RX_COUNT, TX_COUNT and CYCLE_COUNT are written only by INIT.BUILD, by the COUNT step and by reset (R50, R51). -/
def Obligations.CounterWriters : Prop :=
  ∀ s t : State, step s = .next t →
    (t.rxCount = s.rxCount ∧ t.txCount = s.txCount ∧ t.cycleCount = s.cycleCount) ∨
    s.nextTurn = .reset ∨ (s.nextTurn = .seq ∧ (s.seq = .initBuild ∨ s.seq = .strCount))

/-- TERMINATED is left only by reset, and until then counters, PHASE, ERR, SPEC and SPEC_SEQ keep their values (R281). -/
def Obligations.TerminatedIsTerminal : Prop :=
  ∀ s t : State, s.seq = .terminated → s.nextTurn ≠ .reset → s.xreq = .none → step s = .next t →
    t.seq = .terminated ∧ t.err = s.err ∧ t.rxCount = s.rxCount ∧ t.txCount = s.txCount ∧
    t.cycleCount = s.cycleCount ∧ t.phase = s.phase ∧ t.specSeq = s.specSeq ∧ t.readReg .exitStatus = 0 ∧
    (∀ a, t.byteAt a = s.byteAt a)

/-- A step but reset that changes a SPEC byte or SPEC_SEQ is part of a publication. One that leaves SPEC_SEQ the same leaves
all of SPEC alone, so a host that reads the same even SPEC_SEQ twice has read one Spectrum; one that changes it adds 1, to an
even SPEC_SEQ at REFILL_WAIT or by ANALYZE in IDLE, leaving SPEC alone, or to an odd one at either analyzing step (R96). -/
def Obligations.SpectrumChangesOnlyInAPublication : Prop :=
  ∀ s t : State, Inv s → s.nextTurn ≠ .reset → step s = .next t →
    (t.specSeq = s.specSeq → ∀ a, 0x02000000 ≤ a → a < 0x04000000 → t.byteAt a = s.byteAt a) ∧
    (t.specSeq ≠ s.specSeq → t.specSeq = s.specSeq + 1 ∧
      ((s.specSeq.toNat % 2 = 0 ∧ (∀ a, 0x02000000 ≤ a → a < 0x04000000 → t.byteAt a = s.byteAt a) ∧
          ((s.nextTurn = .seq ∧ s.seq = .strRefillWait ∧ t.seq = .strAnalyze) ∨
            (s.nextTurn = .host ∧ s.seq = .idle ∧ t.seq = .diagAnalyze ∧
              ∃ b ops, s.program = .access b :: ops ∧ decodeBus b = .analyze))) ∨
        (s.specSeq.toNat % 2 = 1 ∧ s.nextTurn = .seq ∧
          ((s.seq = .strAnalyze ∧ t.seq = .strCount) ∨ (s.seq = .diagAnalyze ∧ t.seq = .idle)))))

/-- While a buffer is in flight the core does not touch it: with TXOWN = 1 no step but reset changes a TXBUF byte, and with
RXOWN = 1 only the transport's REFILL changes an RXBUF byte (R274, R101). -/
def Obligations.BufferInFlightIsUntouched : Prop :=
  ∀ s t : State, Inv s → s.nextTurn ≠ .reset → step s = .next t →
    (s.txOwn = true → ∀ a, 0x08000000 ≤ a → a < 0x0C000000 → t.byteAt a = s.byteAt a) ∧
    (s.rxOwn = true → s.nextTurn ≠ .xport →
      ∀ a, 0x04000000 ≤ a → a < 0x08000000 → t.byteAt a = s.byteAt a)

/-- Shutdown runs the full release sequence to TERMINATED: from RELEASE_LOCAL with the transport open, when SEQ and XPORT
take their turns, plan, sink and transport are all released after seven steps, whatever the transport answers, and ERR is
kept (R284, R277 to R280). -/
def Obligations.ShutdownReachesTerminated : Prop :=
  ∀ s : State, Inv s → s.seq = .sdReleaseLocal → s.xportOpen = true →
    s.agenda = [.seq, .xport, .seq, .xport, .seq, .xport, .seq] →
    ∃ t, Host.Core.run Sys2Proof.core 7 s = .next t ∧ t.seq = .terminated ∧ t.planValid = false ∧
      t.sinkOpen = false ∧ t.xportOpen = false ∧ t.xreq = .none ∧ t.xresp = none ∧ t.err = s.err

/-- Cancellation takes effect at the next checkpoint: a CANCEL standing while the push of a cycle is outstanding, the earliest
point of a cycle, lets that cycle complete, its push, refill, analysis, counting and synthesis, and the checkpoint after it shuts down with ERR = NONE,
if neither transfer fails (R282). -/
def Obligations.CancellationLetsTheCycleComplete : Prop :=
  ∀ s : State, Inv s → s.seq = .strPushWait → s.xreq = .push → s.cancel = true →
    0 ≤ (s.draw 0).toInt → 0 ≤ (s.draw 1).toInt →
    s.agenda = [.xport, .seq, .xport, .seq, .seq, .seq, .seq, .seq] →
    ∃ t, Host.Core.run Sys2Proof.core 8 s = .next t ∧ t.seq = .sdReleaseLocal ∧ t.err = .none ∧
      t.cycleCount = s.cycleCount + 1 ∧ t.specSeq = s.specSeq + 2 ∧ t.lastTxBytes = s.draw 0 ∧
      t.lastRxBytes = s.draw 1

/-- Under the two assumptions of R364, an enabled XPORT step is eventually taken and so is an enabled SEQ step, whatever else
the agents do short of a reset: a session with CANCEL written, or in shutdown (as after every fatal error), reaches
TERMINATED; and one with neither runs forever: while no CANCEL comes it stays in STREAMING unless an answer was negative,
and unless one is, the cycle repeats, so that every further number of cycles is reached. The schedules are log 1 and
log 21. -/
def Obligations.ProgressOfSessions : Prop :=
  (∀ (s : State) (σ : Nat → Event), Inv s → s.seq.inSession = true → s.cancel = true ∨ s.seq.state = .shuttingDown →
    (∀ n, σ n ≠ .reset) → Fair σ s → ∃ n t, s.under σ n = .next t ∧ t.seq = .terminated) ∧
  (∀ (s : State) (σ : Nat → Event), Inv s → s.seq.state = .streaming → s.cancel = false →
    (∀ n, σ n ≠ .reset) → (∀ b, HostOp.access b ∈ s.program → decodeBus b ≠ .cancel) →
    (∀ n, ∃ t, s.under σ n = .next t ∧ (t.seq.state = .streaming ∨
      ∃ m u r, m ≤ n ∧ s.under σ m = .next u ∧ u.xresp = some r ∧ r.toInt < 0)) ∧
    (Fair σ s → ∀ c : Nat, ∃ n t, s.under σ n = .next t ∧
      (t.cycleCount = s.cycleCount + BitVec.ofNat 64 c ∨ ∃ r, t.xresp = some r ∧ r.toInt < 0)))

/-! ### The datapath -/

/-- `real(i)` is exact for `|i| <= 2^53`: the pattern is finite, its value is `i`, and trunc gives `i` back (R16). -/
def Obligations.IntegersConvertExactly : Prop :=
  ∀ i : Int, -(2 ^ 53) ≤ i → i ≤ 2 ^ 53 →
    F64.isFinite (F64.ofInt i) = true ∧ F64.scaled (F64.ofInt i) = i * F64.unit ∧ F64.trunc (F64.ofInt i) = i

/-- The basic operations on finite values are the exact results rounded once to nearest, ties to even (R11, R16); that
overflow gives the infinity of the right sign and underflow is gradual is taken from IEEE 754 (PRESUMED, log 22). -/
def Obligations.ArithmeticRoundsToNearest : Prop :=
  ∀ a b : Word, F64.isFinite a = true → F64.isFinite b = true →
    F64.NearestEven (F64.add a b) (F64.scaled a + F64.scaled b) 1 ∧
    F64.NearestEven (F64.sub a b) (F64.scaled a - F64.scaled b) 1 ∧
    F64.NearestEven (F64.mul a b) (F64.scaled a * F64.scaled b) (F64.unit) ∧
    (F64.scaled b ≠ 0 → F64.NearestEven (F64.div a b)
      (if 0 < F64.scaled b then F64.scaled a * F64.unit else -(F64.scaled a * F64.unit)) |F64.scaled b|)

/-- The quantiser: NaN to 0, infinities to the extremes, else truncation toward zero (the exact value is F64.scaled over
F64.unit) and then saturation (WRAP = 0) or reduction to the low 16 bits (WRAP = 1) (R244). -/
def Obligations.QuantiserSaturatesOrWraps : Prop :=
  ∀ (wrap : Bool) (x : Word),
    (F64.isNaN x = true → quant wrap x = 0) ∧
    (x = F64.inf false → (quant wrap x).toInt = 32767) ∧ (x = F64.inf true → (quant wrap x).toInt = -32768) ∧
    (F64.isFinite x = true → (quant false x).toInt = max (-32768) (min ((F64.scaled x).tdiv F64.unit) 32767)) ∧
    (F64.isFinite x = true → (quant true x).toInt = ((F64.scaled x).tdiv F64.unit + 32768) % 65536 - 32768)

/-- The first window entry is +0.0 for every length, from COS0 alone (R191, R195). -/
def Obligations.WindowStartsAtZero : Prop := ∀ n : Nat, 2 ≤ n → hann64 0 n = 0

/-- An all-zero SampleBlock gives every bin the zero-magnitude floor, from DFT_ZERO and CABS0 alone, for any window of finite
values (R222, S6; the finiteness of the window is needed because zero times infinity is NaN). -/
def Obligations.ZeroBlockGivesTheFloor : Prop :=
  ∀ s : State, s.seq = .strAnalyze ∨ s.seq = .diagAnalyze →
    (∀ n, n < s.fftSize.toNat → s.rxbuf n = { i := 0, q := 0 } ∧ F64.isFinite (s.win n) = true) →
    ∃ t, seqTurn s = .next t ∧ ∀ k, k < s.fftSize.toNat → t.specMag k = s.dbFloor
end

