-- ==== Sys2Proof/Laws/Decode.lean ====
section
/-! SUPPORT. The laws of the address map and of the decoders' tables. -/

namespace Sys2Proof

/-! ### The register map (R81) -/

theorem regAt_offset (r : Reg) : regAt r.offset = some r := by cases r <;> decide

theorem offset_of_regAt {a : Nat} {r : Reg} (h : regAt a = some r) : r.offset = a := by
  have := List.find?_some h
  simpa using this

theorem regAt_lt {a : Nat} {r : Reg} (h : regAt a = some r) : a < winBase := by
  rw [← offset_of_regAt h]
  cases r <;> decide

theorem Reg.offset_mod_eight (r : Reg) : r.offset % 8 = 0 := by cases r <;> decide

@[simp] theorem ConfigReg.config?_toReg (r : ConfigReg) : r.toReg.config? = some r := by cases r <;> rfl

theorem Reg.toReg_of_config? {r : Reg} {c : ConfigReg} (h : r.config? = some c) : c.toReg = r := by
  cases r <;> simp_all [Reg.config?] <;> subst h <;> rfl

/-! ### Which write an offset selects (R152) -/

theorem writeClass_config (r : ConfigReg) : writeClass (BitVec.ofNat 28 r.toReg.offset) 64 = .config r := by
  cases r <;> decide

theorem writeClass_command : writeClass (BitVec.ofNat 28 Reg.cmd.offset) 64 = .command := by decide

theorem writeClass_status : writeClass (BitVec.ofNat 28 Reg.status.offset) 64 = .status := by decide

theorem RamWord.offset_toNat (t : RamWord) : (BitVec.ofNat 28 t.offset).toNat = t.offset := by
  cases t with
  | win j =>
    have := j.isLt
    simp only [RamWord.offset, winBase, BitVec.toNat_ofNat]
    omega
  | rxbuf m =>
    have := m.isLt
    simp only [RamWord.offset, rxBase, BitVec.toNat_ofNat]
    omega

/-- An aligned 64-bit write of an offset in the WIN region. -/
theorem writeClass_win {a : Offset} (h8 : a.toNat % 8 = 0) (h1 : winBase ≤ a.toNat) (h2 : a.toNat < specBase) :
    writeClass a 64 = .ram (.win (BitVec.ofNat 21 ((a.toNat - winBase) / 8))) := by
  rw [writeClass, if_neg (by simp [h8]), if_neg (Nat.not_lt.mpr h1), if_pos h2]

/-- An aligned 64-bit write of an offset in the RXBUF region. -/
theorem writeClass_rxbuf {a : Offset} (h8 : a.toNat % 8 = 0) (h1 : rxBase ≤ a.toNat) (h2 : a.toNat < txBase) :
    writeClass a 64 = .ram (.rxbuf (BitVec.ofNat 23 ((a.toNat - rxBase) / 8))) := by
  have hw : winBase < rxBase := by decide
  have hs : specBase < rxBase := by decide
  rw [writeClass, if_neg (by simp [h8]), if_neg (by omega), if_neg (by omega), if_pos ⟨h1, h2⟩]

theorem writeClass_ram (t : RamWord) : writeClass (BitVec.ofNat 28 t.offset) 64 = .ram t := by
  have ho := RamWord.offset_toNat t
  cases t with
  | win j =>
    have := j.isLt
    simp only [RamWord.offset] at ho ⊢
    rw [writeClass_win] <;> rw [ho]
    · rw [Nat.add_sub_cancel_left, Nat.mul_div_cancel_left _ (by decide), BitVec.ofNat_toNat, BitVec.setWidth_eq]
    · simp only [winBase]; omega
    · omega
    · simp only [winBase, specBase]; omega
  | rxbuf m =>
    have := m.isLt
    simp only [RamWord.offset] at ho ⊢
    rw [writeClass_rxbuf] <;> rw [ho]
    · rw [Nat.add_sub_cancel_left, Nat.mul_div_cancel_left _ (by decide), BitVec.ofNat_toNat, BitVec.setWidth_eq]
    · simp only [rxBase]; omega
    · omega
    · simp only [rxBase, txBase]; omega

/-- The offset of a 64-bit aligned register write is the register's. -/
theorem offset_eq_of_regAt {a : Offset} {r : Reg} (h : regAt a.toNat = some r) : BitVec.ofNat 28 r.offset = a := by
  rw [offset_of_regAt h, BitVec.ofNat_toNat, BitVec.setWidth_eq]

/-- What each class says about the write. -/
theorem writeClass_cases (a : Offset) (width : Nat) :
    (writeClass a width = .command → width = 64 ∧ a = BitVec.ofNat 28 Reg.cmd.offset) ∧
    (writeClass a width = .status → width = 64 ∧ a = BitVec.ofNat 28 Reg.status.offset) ∧
    (∀ r, writeClass a width = .config r → width = 64 ∧ a = BitVec.ofNat 28 r.toReg.offset) ∧
    (∀ t, writeClass a width = .ram t → width = 64 ∧ a = BitVec.ofNat 28 t.offset) := by
  have ha := a.isLt
  unfold writeClass
  by_cases h0 : width ≠ 64 ∨ a.toNat % 8 ≠ 0
  · simp [h0]
  · rw [if_neg h0]
    have hw : width = 64 := by omega
    by_cases h1 : a.toNat < winBase
    · rw [if_pos h1]
      cases hr : regAt a.toNat with
      | none => simp
      | some r =>
        have hoff := offset_eq_of_regAt hr
        cases hc : r.config? with
        | none => cases r <;> simp_all [Reg.config?]
        | some c =>
          have := Reg.toReg_of_config? hc
          cases r <;> simp_all [Reg.config?]
    · rw [if_neg h1]
      by_cases h2 : a.toNat < specBase
      · rw [if_pos h2]
        refine ⟨by simp, by simp, by simp, ?_⟩
        intro t ht
        injection ht with ht
        subst ht
        refine ⟨hw, ?_⟩
        apply BitVec.eq_of_toNat_eq
        simp only [RamWord.offset, BitVec.toNat_ofNat, winBase, specBase] at *
        omega
      · rw [if_neg h2]
        by_cases h3 : rxBase ≤ a.toNat ∧ a.toNat < txBase
        · rw [if_pos h3]
          refine ⟨by simp, by simp, by simp, ?_⟩
          intro t ht
          injection ht with ht
          subst ht
          refine ⟨hw, ?_⟩
          apply BitVec.eq_of_toNat_eq
          simp only [RamWord.offset, BitVec.toNat_ofNat, rxBase, txBase] at *
          omega
        · rw [if_neg h3]
          simp

/-! ### Command words (R122, R131) -/

theorem decodeOp_word (op : CmdOp) : decodeOp op.word = some op := by cases op <;> decide

/-- A word with a mnemonic is that mnemonic's word. -/
theorem eq_word_of_decodeOp {w : Word} {op : CmdOp} (h : decodeOp w = some op) : w = op.word := by
  have hw := w.isLt
  unfold decodeOp at h
  split at h
  · next hu =>
    have hu' : w.toNat / 2 ^ 8 % 2 ^ 56 = 0 := by
      have := congrArg BitVec.toNat hu
      simpa [BitVec.extractLsb'_toNat, Nat.shiftRight_eq_div_pow] using this
    have hl : (w.extractLsb' 0 8).toNat = w.toNat := by
      simp only [BitVec.extractLsb'_toNat, Nat.shiftRight_zero]
      omega
    generalize w.extractLsb' 0 8 = b at h hl
    have hb : b = 0x00 ∧ op = .nop ∨ b = 0x01 ∧ op = .start ∨ b = 0x02 ∧ op = .cancel ∨ b = 0x10 ∧ op = .wgen ∨
        b = 0x11 ∧ op = .analyze ∨ b = 0x12 ∧ op = .synth := by
      revert h
      simp only [opTable, List.lookup]
      intro h
      repeat' split at h
      all_goals simp_all
    rcases hb with ⟨rfl, rfl⟩ | ⟨rfl, rfl⟩ | ⟨rfl, rfl⟩ | ⟨rfl, rfl⟩ | ⟨rfl, rfl⟩ | ⟨rfl, rfl⟩ <;>
      (apply BitVec.eq_of_toNat_eq; rw [← hl]; rfl)
  · exact absurd h (by simp)

/-- A reserved word is none of the table's (R123). -/
theorem decodeOp_eq_none {w : Word} : decodeOp w = none ↔ CmdOp.words.contains w = false := by
  constructor
  · intro h
    cases hc : CmdOp.words.contains w with
    | false => rfl
    | true =>
      have hm : w ∈ CmdOp.words := by simpa using hc
      simp only [CmdOp.words, List.mem_cons, List.not_mem_nil, or_false] at hm
      rcases hm with rfl | rfl | rfl | rfl | rfl | rfl <;> rw [decodeOp_word] at h <;> exact absurd h (by simp)
  · intro h
    cases hd : decodeOp w with
    | none => rfl
    | some op =>
      rw [eq_word_of_decodeOp hd] at h
      cases op <;> exact absurd h (by decide)

theorem decodeCmd_reserved {w : Word} (h : CmdOp.words.contains w = false) : decodeCmd w = .reservedCmd w := by
  rw [decodeCmd, decodeOp_eq_none.mpr h]

end Sys2Proof
end

