-- ==== Sys2Proof/Laws/Float.lean ====
section
/-! SUPPORT. The laws of the binary64 arithmetic: the fields of a packed pattern, the value of a rounded one, and that
rounding is to nearest with ties to even. -/

namespace Sys2Proof.Machine

/-! ### Fields of a pattern -/

/-- The magnitude, in multiples of 2^-1074, of the pattern with these low 63 bits. -/
def lowMag (low : Nat) : Nat :=
  if low / 2 ^ 52 = 0 then low % 2 ^ 52 else (2 ^ 52 + low % 2 ^ 52) * 2 ^ (low / 2 ^ 52 - 1)

theorem F64.toNat_pack {sign : Bool} {low : Nat} (h : low < 2 ^ 63) :
    (F64.pack sign low).toNat = (if sign then 2 ^ 63 else 0) + low := by
  rw [F64.pack, BitVec.toNat_ofNat, Nat.mod_eq_of_lt (by split <;> omega)]

theorem F64.sign_pack {sign : Bool} {low : Nat} (h : low < 2 ^ 63) : F64.sign (F64.pack sign low) = sign := by
  rw [F64.sign, F64.toNat_pack h]
  cases sign
  · rw [decide_eq_false_iff_not]
    simp only [Bool.false_eq_true, if_false]
    omega
  · rw [decide_eq_true_eq]
    simp only [if_true]
    omega

theorem F64.biasedExp_pack {sign : Bool} {low : Nat} (h : low < 2 ^ 63) :
    F64.biasedExp (F64.pack sign low) = low / 2 ^ 52 := by
  rw [F64.biasedExp, F64.toNat_pack h]
  cases sign <;> simp only [Bool.false_eq_true, if_false, if_true] <;> omega

theorem F64.frac_pack {sign : Bool} {low : Nat} (h : low < 2 ^ 63) : F64.frac (F64.pack sign low) = low % 2 ^ 52 := by
  rw [F64.frac, F64.toNat_pack h]
  cases sign <;> simp only [Bool.false_eq_true, if_false, if_true] <;> omega

theorem F64.mag_pack {sign : Bool} {low : Nat} (h : low < 2 ^ 63) : F64.mag (F64.pack sign low) = lowMag low := by
  rw [F64.mag, F64.biasedExp_pack h, F64.frac_pack h, lowMag]

theorem F64.scaled_pack {sign : Bool} {low : Nat} (h : low < 2 ^ 63) :
    F64.scaled (F64.pack sign low) = if sign then -(lowMag low : Int) else (lowMag low : Int) := by
  rw [F64.scaled, F64.sign_pack h, F64.mag_pack h]

/-- A pattern is finite exactly if its low 63 bits are below those of infinity. -/
theorem F64.isFinite_pack {sign : Bool} {low : Nat} (h : low ≤ F64.infLow) :
    F64.isFinite (F64.pack sign low) = true ↔ low < F64.infLow := by
  simp only [F64.infLow] at h ⊢
  rw [F64.isFinite, F64.biasedExp_pack (by omega), bne_iff_ne]
  omega

/-- Every pattern is packed from its sign and its low 63 bits. -/
theorem F64.eq_pack (x : Word) : x = F64.pack (F64.sign x) (x.toNat % 2 ^ 63) := by
  have h := x.isLt
  apply BitVec.eq_of_toNat_eq
  rw [F64.toNat_pack (Nat.mod_lt _ (by decide)), F64.sign]
  by_cases hs : x.toNat / 2 ^ 63 = 1 <;> simp only [hs, decide_true, decide_false, if_true, Bool.false_eq_true, if_false] <;> omega

theorem F64.isFinite_low {x : Word} (h : F64.isFinite x = true) : x.toNat % 2 ^ 63 < F64.infLow := by
  rw [F64.isFinite, bne_iff_ne, F64.biasedExp] at h
  simp only [F64.infLow]
  omega

theorem F64.scaled_eq (x : Word) :
    F64.scaled x = if F64.sign x then -(lowMag (x.toNat % 2 ^ 63) : Int) else (lowMag (x.toNat % 2 ^ 63) : Int) := by
  have := F64.scaled_pack (sign := F64.sign x) (low := x.toNat % 2 ^ 63) (Nat.mod_lt _ (by decide))
  rwa [← F64.eq_pack] at this

theorem F64.unit_pos : 0 < F64.unit := Nat.pow_pos (by decide)

theorem F64.topStep_pos : 0 < F64.topStep := Nat.pow_pos (by decide)

theorem F64.isZero_iff_mag {x : Word} : F64.isZero x = true ↔ F64.mag x = 0 := by
  rw [F64.isZero, F64.mag, Bool.and_eq_true, beq_iff_eq, beq_iff_eq]
  split
  · simp [*]
  · rename_i h
    simp [h]

/-- A finite pattern is neither a NaN nor an infinity. -/
theorem F64.finite_cases {x : Word} (h : F64.isFinite x = true) : F64.isNaN x = false ∧ F64.isInf x = false := by
  rw [F64.isFinite, bne_iff_ne] at h
  simp [F64.isNaN, F64.isInf, h]

/-! ### The value of a rounded pattern -/

/-- A significand `q` at step `2^e`, with the exponent field it is packed with, has the value `q * 2^e`; a carry out of
the significand is the next exponent. -/
theorem lowMag_step {e q : Nat} (h : q ≤ 2 ^ 53) (he : e = 0 ∨ 2 ^ 52 ≤ q) : lowMag (e * 2 ^ 52 + q) = q * 2 ^ e := by
  by_cases hq : q < 2 ^ 52
  · obtain rfl : e = 0 := by omega
    rw [lowMag, if_pos (by omega)]
    omega
  · by_cases hq2 : q = 2 ^ 53
    · have h1 : (e * 2 ^ 52 + q) / 2 ^ 52 = e + 2 := by omega
      have h2 : (e * 2 ^ 52 + q) % 2 ^ 52 = 0 := by omega
      rw [lowMag, h1, h2, if_neg (by omega), hq2, show e + 2 - 1 = e + 1 by omega, Nat.pow_succ]
      omega
    · have h1 : (e * 2 ^ 52 + q) / 2 ^ 52 = e + 1 := by omega
      have h2 : (e * 2 ^ 52 + q) % 2 ^ 52 = q - 2 ^ 52 := by omega
      rw [lowMag, h1, h2, if_neg (by omega), show e + 1 - 1 = e by omega, show 2 ^ 52 + (q - 2 ^ 52) = q by omega]

/-- Every finite magnitude is a multiple of its step, and below `2^(53 + step)`. -/
theorem lowMag_shape (low : Nat) :
    ∃ k e, lowMag low = k * 2 ^ e ∧ k < 2 ^ 53 := by
  rw [lowMag]
  split
  · exact ⟨low % 2 ^ 52, 0, by omega, by omega⟩
  · exact ⟨2 ^ 52 + low % 2 ^ 52, low / 2 ^ 52 - 1, rfl, by omega⟩

/-! ### Rounding a quotient of naturals -/

theorem roundDiv_bounds (n d : Nat) : n / d ≤ roundDiv n d ∧ roundDiv n d ≤ n / d + 1 := by
  simp only [roundDiv]
  split <;> omega

/-- Which of the two integers around `n / d` the rounded quotient is. -/
theorem roundDiv_cases (n d : Nat) :
    (roundDiv n d = n / d ∧ 2 * (n % d) ≤ d ∧ (2 * (n % d) = d → n / d % 2 = 0)) ∨
    (roundDiv n d = n / d + 1 ∧ d ≤ 2 * (n % d) ∧ (2 * (n % d) = d → n / d % 2 = 1)) := by
  simp only [roundDiv]
  split
  · exact .inr ⟨rfl, by omega, by omega⟩
  · exact .inl ⟨rfl, by omega, by omega⟩

/-- The distance of a multiple of `d` from a number, as the case it falls under. -/
theorem dist_below {d q r k : Nat} (h : k ≤ q) : |(k * d : Int) - ((d * q + r : Nat) : Int)| = d * (q - k : Nat) + r := by
  obtain ⟨j, rfl⟩ : ∃ j, q = k + j := ⟨q - k, by omega⟩
  have e : ((k : Int) * d - ((d * (k + j) + r : Nat) : Int)) = -((d * j + r : Nat) : Int) := by push_cast; ring
  rw [e, abs_neg, Nat.abs_cast, Nat.add_sub_cancel_left]
  push_cast
  ring

theorem dist_above {d q r k : Nat} (h : q + 1 ≤ k) (hr : r ≤ d) :
    |(k * d : Int) - ((d * q + r : Nat) : Int)| = d * (k - (q + 1) : Nat) + (d - r) := by
  obtain ⟨j, rfl⟩ : ∃ j, k = q + 1 + j := ⟨k - (q + 1), by omega⟩
  have hj : (0 : Int) ≤ d * j := by positivity
  have e : (((q + 1 + j : Nat) : Int) * d - ((d * q + r : Nat) : Int)) = d * j + (d - r) := by push_cast; ring
  rw [e, abs_of_nonneg (by omega), Nat.add_sub_cancel_left]

/-- The rounded quotient is nearest, and even where another integer is as near. -/
theorem roundDiv_nearest {n d : Nat} (hd : 0 < d) (k : Nat) :
    |(roundDiv n d * d : Int) - n| ≤ |(k * d : Int) - n| ∧
      (|(roundDiv n d * d : Int) - n| = |(k * d : Int) - n| → k ≠ roundDiv n d → roundDiv n d % 2 = 0) := by
  have hc := roundDiv_cases n d
  have hr := Nat.mod_lt n hd
  have pos : ∀ j : Nat, (0 : Int) ≤ d * j ∧ (j ≠ 0 → (d : Int) ≤ d * j) := fun j =>
    ⟨by positivity, fun h => le_mul_of_one_le_right (by omega) (by omega)⟩
  generalize roundDiv n d = m at *
  rw [← Nat.div_add_mod n d]
  generalize n / d = q at *
  generalize n % d = r at *
  have hk : (k ≤ q ∧ |(k * d : Int) - ((d * q + r : Nat) : Int)| = d * (q - k : Nat) + r) ∨
      (q + 1 ≤ k ∧ |(k * d : Int) - ((d * q + r : Nat) : Int)| = d * (k - (q + 1) : Nat) + (d - r)) := by
    rcases Nat.lt_or_ge q k with h | h
    · exact .inr ⟨h, dist_above h hr.le⟩
    · exact .inl ⟨h, dist_below h⟩
  rcases hc with ⟨rfl, h1, h2⟩ | ⟨rfl, h1, h2⟩
  · have e := dist_below (d := d) (r := r) (Nat.le_refl m)
    rw [Nat.sub_self, Nat.cast_zero, mul_zero, zero_add] at e
    rw [e]
    rcases hk with ⟨h3, h4⟩ | ⟨h3, h4⟩ <;> rw [h4]
    · have := pos (m - k)
      exact ⟨by omega, fun h5 h6 => absurd (this.2 (by omega)) (by omega)⟩
    · have := pos (k - (m + 1))
      exact ⟨by omega, fun h5 h6 => h2 (by omega)⟩
  · have e := dist_above (d := d) (r := r) (Nat.le_refl (q + 1)) hr.le
    rw [Nat.sub_self, Nat.cast_zero, mul_zero, zero_add] at e
    rw [e]
    rcases hk with ⟨h3, h4⟩ | ⟨h3, h4⟩ <;> rw [h4]
    · have := pos (q - k)
      exact ⟨by omega, fun h5 h6 => by have := h2 (by omega); omega⟩
    · have := pos (k - (q + 1))
      exact ⟨by omega, fun h5 h6 => absurd (this.2 (by omega)) (by omega)⟩

/-! ### Rounding to binary64 -/

/-- The step and the significand of a rounded value. -/
theorem roundLow_shape (n d : Nat) :
    roundDiv n (d * 2 ^ roundShift n d) ≤ 2 ^ 53 ∧
      (roundShift n d = 0 ∨ (2 ^ 52 ≤ roundDiv n (d * 2 ^ roundShift n d) ∧ 2 ^ 52 * 2 ^ roundShift n d * d ≤ n)) := by
  have hq : n / (d * 2 ^ roundShift n d) = n / d / 2 ^ roundShift n d := (Nat.div_div_eq_div_mul ..).symm
  obtain ⟨hb1, hb2⟩ := roundDiv_bounds n (d * 2 ^ roundShift n d)
  rw [hq] at hb1 hb2
  by_cases h : n / d < 2 ^ 53
  · have h0 : roundShift n d = 0 := by
      rw [roundShift]
      by_cases hz : n / d = 0
      · rw [hz]
        rfl
      · have := (Nat.log2_lt hz).mpr h
        omega
    rw [h0] at hb2 ⊢
    rw [Nat.pow_zero, Nat.div_one] at hb2
    rw [Nat.pow_zero]
    exact ⟨by omega, .inl rfl⟩
  · have hz : n / d ≠ 0 := by omega
    have hl : 53 ≤ Nat.log2 (n / d) := (Nat.le_log2 hz).mpr (by omega)
    have hs : Nat.log2 (n / d) = 52 + roundShift n d := by rw [roundShift]; omega
    have h1 : 2 ^ (52 + roundShift n d) ≤ n / d := by rw [← hs]; exact Nat.log2_self_le hz
    have h2 : n / d < 2 ^ (53 + roundShift n d) := by
      rw [show 53 + roundShift n d = Nat.log2 (n / d) + 1 by omega]
      exact Nat.lt_log2_self
    have h3 : 2 ^ 52 ≤ n / d / 2 ^ roundShift n d := by
      rw [Nat.le_div_iff_mul_le (by positivity), ← Nat.pow_add]
      exact h1
    have h4 : n / d / 2 ^ roundShift n d < 2 ^ 53 := by
      rw [Nat.div_lt_iff_lt_mul (by positivity), ← Nat.pow_add]
      exact h2
    refine ⟨by omega, .inr ⟨by omega, ?_⟩⟩
    rw [← Nat.pow_add]
    exact (Nat.mul_le_mul_right d h1).trans (Nat.div_mul_le_self n d)

/-- The value of a rounded pattern that is finite. -/
theorem lowMag_roundLow {n d : Nat} (hf : roundLow n d < F64.infLow) :
    lowMag (roundLow n d) = roundDiv n (d * 2 ^ roundShift n d) * 2 ^ roundShift n d ∧
      roundLow n d % 2 = roundDiv n (d * 2 ^ roundShift n d) % 2 := by
  obtain ⟨h1, h2⟩ := roundLow_shape n d
  have he : roundLow n d = roundShift n d * 2 ^ 52 + roundDiv n (d * 2 ^ roundShift n d) := by
    simp only [roundLow] at hf ⊢
    omega
  rw [he]
  exact ⟨lowMag_step h1 (h2.imp_right And.left), by omega⟩

/-- Rounding is to nearest, ties to even: no magnitude `lowMag low` lies nearer to `n / d` than the rounded one, and where a
different one is as near the rounded pattern is even. -/
theorem roundLow_nearest {n d : Nat} (hd : 0 < d) (hf : roundLow n d < F64.infLow) (low : Nat) :
    |(lowMag (roundLow n d) * d : Int) - n| ≤ |(lowMag low * d : Int) - n| ∧
      (|(lowMag (roundLow n d) * d : Int) - n| = |(lowMag low * d : Int) - n| →
        lowMag low ≠ lowMag (roundLow n d) → roundLow n d % 2 = 0) := by
  obtain ⟨hv, hp⟩ := lowMag_roundLow hf
  obtain ⟨h1, h2⟩ := roundLow_shape n d
  rw [hv, hp]
  have hD : 0 < d * 2 ^ roundShift n d := Nat.mul_pos hd (by positivity)
  have near := fun k => roundDiv_nearest (n := n) hD k
  generalize roundShift n d = e at *
  generalize roundDiv n (d * 2 ^ e) = q at *
  have hmul : ∀ k : Nat, ((k * 2 ^ e : Nat) * d : Int) = (k * (d * 2 ^ e : Nat) : Int) := by
    intro k
    push_cast
    ring
  obtain ⟨k, e', hk, hlt⟩ := lowMag_shape low
  rw [hk]
  by_cases hee : e ≤ e'
  · -- a multiple of the step
    have hk2 : k * 2 ^ e' = k * 2 ^ (e' - e) * 2 ^ e := by rw [Nat.mul_assoc, ← Nat.pow_add, Nat.sub_add_cancel hee]
    rw [hk2, hmul, hmul]
    refine ⟨(near _).1, fun h3 h4 => (near _).2 h3 fun h5 => h4 (by rw [h5])⟩
  · -- below every value with this step
    obtain ⟨h3, h4⟩ : 2 ^ 52 ≤ q ∧ 2 ^ 52 * 2 ^ e * d ≤ n := by
      rcases h2 with h2 | h2
      · omega
      · exact h2
    have h5 : k * 2 ^ e' < 2 ^ 52 * 2 ^ e := by
      have h6 : k * 2 ^ e' < 2 ^ 53 * 2 ^ e' := Nat.mul_lt_mul_of_pos_right hlt (by positivity)
      have h7 : 2 ^ 53 * 2 ^ e' ≤ 2 ^ 52 * 2 ^ e := by
        rw [← Nat.pow_add, ← Nat.pow_add]
        exact Nat.pow_le_pow_right (by decide) (by omega)
      omega
    have h6 : k * 2 ^ e' * d < 2 ^ 52 * 2 ^ e * d := Nat.mul_lt_mul_of_pos_right h5 hd
    have h7 := (near (2 ^ 52)).1
    rw [← hmul, ← hmul] at h7
    have h8 : |((2 ^ 52 * 2 ^ e : Nat) * d : Int) - n| = n - ((2 ^ 52 * 2 ^ e : Nat) * d : Int) := by
      rw [abs_sub_comm, abs_of_nonneg]
      have : ((2 ^ 52 * 2 ^ e * d : Nat) : Int) ≤ n := by exact_mod_cast h4
      push_cast at this ⊢
      omega
    have h9 : |((k * 2 ^ e' : Nat) * d : Int) - n| = n - ((k * 2 ^ e' : Nat) * d : Int) := by
      rw [abs_sub_comm, abs_of_nonneg]
      have : ((k * 2 ^ e' * d : Nat) : Int) ≤ n := by exact_mod_cast h6.le.trans h4
      push_cast at this ⊢
      omega
    have h10 : ((k * 2 ^ e' : Nat) * d : Int) < ((2 ^ 52 * 2 ^ e : Nat) * d : Int) := by exact_mod_cast h6
    have h11 : |((q * 2 ^ e : Nat) * d : Int) - n| ≤ |((2 ^ 52 * 2 ^ e : Nat) * d : Int) - n| := by exact_mod_cast h7
    rw [h8] at h11
    rw [h9]
    exact ⟨by omega, fun h12 => by omega⟩

/-- Below the step of the greatest finite values the rounded pattern is finite; beyond it, it is not. -/
theorem roundLow_below {n d : Nat} (h : roundShift n d < 2045) : roundLow n d < F64.infLow := by
  have h1 := (roundLow_shape n d).1
  simp only [roundLow, F64.infLow]
  omega

theorem roundLow_beyond {n d : Nat} (h : 2045 < roundShift n d) : ¬ roundLow n d < F64.infLow := by
  have h1 := (roundLow_shape n d).2
  simp only [roundLow, F64.infLow]
  omega

theorem roundDiv_below {n D : Nat} (hD : 0 < D) :
    roundDiv n D < 9007199254740992 ↔ 2 * n < 18014398509481983 * D := by
  have hc := roundDiv_cases n D
  have hn := Nat.div_add_mod n D
  have hr := Nat.mod_lt n hD
  generalize roundDiv n D = m at *
  generalize n / D = q at *
  generalize n % D = r at *
  rcases Nat.lt_trichotomy q 9007199254740991 with h | h | h
  · have h1 : D * q ≤ D * 9007199254740990 := Nat.mul_le_mul_left D (by omega)
    have h2 : m ≤ q + 1 := by omega
    clear hc
    exact ⟨fun _ => by omega, fun _ => by omega⟩
  · subst h
    rcases hc with ⟨hm, h1, h2⟩ | ⟨hm, h1, -⟩
    · have h3 : 2 * r < D := lt_of_le_of_ne h1 fun h3 => absurd (h2 h3) (by decide)
      exact ⟨fun _ => by linarith, fun _ => by omega⟩
    · exact ⟨fun _ => by omega, fun _ => by linarith⟩
  · have h1 : D * 9007199254740992 ≤ D * q := Nat.mul_le_mul_left D (by omega)
    have h2 : q ≤ m := by omega
    clear hc
    exact ⟨fun _ => by omega, fun _ => by omega⟩

/-- At that step it is finite below the middle between the greatest finite value and the next power of two. -/
theorem roundLow_greatest {n d : Nat} (hd : 0 < d) (h : roundShift n d = 2045) :
    roundLow n d < F64.infLow ↔ 2 * n < 18014398509481983 * (d * 2 ^ 2045) := by
  have hb := roundDiv_below (n := n) (Nat.mul_pos hd (Nat.pow_pos (n := 2045) (show 0 < 2 by decide)))
  simp only [roundLow, F64.infLow, h]
  generalize roundDiv n (d * 2 ^ 2045) = m at *
  generalize d * 2 ^ 2045 = D at *
  omega

theorem roundShift_lt {n d e : Nat} (hd : 0 < d) : roundShift n d < e + 1 ↔ n < 2 ^ (53 + e) * d := by
  rw [← Nat.div_lt_iff_lt_mul hd, roundShift]
  by_cases hz : n / d = 0
  · rw [hz]
    exact ⟨fun _ => Nat.pow_pos (by decide), fun _ => Nat.succ_pos e⟩
  · rw [← Nat.log2_lt hz]
    omega

/-- The rounded value is finite exactly below the middle between the greatest finite value and the next power of two. -/
theorem roundLow_finite {n d : Nat} (hd : 0 < d) : roundLow n d < F64.infLow ↔ 2 * n < 18014398509481983 * (d * F64.topStep) := by
  rw [F64.topStep]
  have hs1 := roundShift_lt (n := n) (e := 2044) hd
  have hs2 := roundShift_lt (n := n) (e := 2045) hd
  have p1 : 2 ^ (53 + 2044) * d * 2 = 2 ^ 53 * (d * 2 ^ 2045) := by
    rw [Nat.pow_add, Nat.pow_succ 2 2044]
    generalize 2 ^ 2044 = P
    ring
  have p2 : 2 ^ (53 + 2045) * d = 2 ^ 53 * (d * 2 ^ 2045) := by
    rw [Nat.pow_add]
    generalize 2 ^ 2045 = P
    ring
  rcases Nat.lt_trichotomy (roundShift n d) 2045 with he | he | he
  · have h1 := hs1.mp he
    refine ⟨fun _ => ?_, fun _ => roundLow_below he⟩
    clear hs1 hs2 he p2
    generalize 2 ^ (53 + 2044) * d = A at *
    generalize d * 2 ^ 2045 = D at *
    omega
  · exact roundLow_greatest hd he
  · have h1 := hs2.not.mp (by omega)
    refine ⟨fun h => absurd h (roundLow_beyond he), fun h => ?_⟩
    exfalso
    clear hs1 hs2 he p1
    generalize 2 ^ (53 + 2045) * d = A at *
    generalize d * 2 ^ 2045 = D at *
    omega

/-! ### Rounding a signed value -/

theorem roundLow_le (n d : Nat) : roundLow n d ≤ F64.infLow := Nat.min_le_right _ _

theorem roundLow_lt_top (n d : Nat) : roundLow n d < 2 ^ 63 :=
  lt_of_le_of_lt (roundLow_le n d) (by decide)

theorem F64.isFinite_round {sign : Bool} {n d : Nat} (hd : 0 < d) :
    F64.isFinite (F64.round sign n d) = true ↔ 2 * n < 18014398509481983 * (d * F64.topStep) := by
  rw [F64.round, F64.isFinite_pack (roundLow_le n d), roundLow_finite hd]

/-- Beyond the finite range the rounded value is the infinity of its sign. -/
theorem F64.round_overflow {sign : Bool} {n d : Nat} (hd : 0 < d) (h : 18014398509481983 * (d * F64.topStep) ≤ 2 * n) :
    F64.round sign n d = F64.inf sign := by
  have h1 := (roundLow_finite hd).not.mpr (Nat.not_lt.mpr h)
  have h2 := roundLow_le n d
  rw [F64.round, F64.inf, show roundLow n d = F64.infLow by omega]

/-- The rounded value is nearest among all finite values, ties to even. -/
theorem F64.round_nearest {sign : Bool} {n d : Nat} (hd : 0 < d) (hf : F64.isFinite (F64.round sign n d) = true) (y : Word) :
    |F64.scaled (F64.round sign n d) * d - (if sign then -(n : Int) else n)| ≤
        |F64.scaled y * d - (if sign then -(n : Int) else n)| ∧
      (|F64.scaled (F64.round sign n d) * d - (if sign then -(n : Int) else n)| =
          |F64.scaled y * d - (if sign then -(n : Int) else n)| →
        F64.scaled y ≠ F64.scaled (F64.round sign n d) → (F64.round sign n d).getLsbD 0 = false) := by
  have hl : roundLow n d < F64.infLow := (roundLow_finite hd).mpr ((F64.isFinite_round hd).mp hf)
  have near := roundLow_nearest hd hl
  have hbit : (F64.round sign n d).getLsbD 0 = false ↔ roundLow n d % 2 = 0 := by
    show Nat.testBit (F64.round sign n d).toNat 0 = false ↔ _
    rw [F64.round, F64.toNat_pack (roundLow_lt_top n d), Nat.testBit_zero, decide_eq_false_iff_not]
    cases sign <;> simp only [Bool.false_eq_true, if_false, if_true] <;> omega
  rw [hbit, F64.round, F64.scaled_pack (roundLow_lt_top n d), F64.scaled_eq y]
  generalize roundLow n d = r at *
  have hn : (0 : Int) ≤ n := by positivity
  have hzero := near 0
  have h0 : lowMag 0 = 0 := by decide
  rw [h0] at hzero
  have hy := near (y.toNat % 2 ^ 63)
  generalize lowMag (y.toNat % 2 ^ 63) = v at *
  have hv : (0 : Int) ≤ (v : Int) * d := by positivity
  -- a value of the other sign is no nearer than zero
  have far : |(0 : Int) * d - n| ≤ |-(v : Int) * d - n| ∧ (|(0 : Int) * d - n| = |-(v : Int) * d - n| → (v : Int) = 0) := by
    have e1 : |(0 : Int) * d - n| = n := by rw [zero_mul, zero_sub, abs_neg, abs_of_nonneg hn]
    have e2 : |-(v : Int) * d - n| = v * d + n := by
      rw [show -(v : Int) * d - n = -(v * d + n) by ring, abs_neg, abs_of_nonneg (by omega)]
    rw [e1, e2]
    refine ⟨by omega, fun h => ?_⟩
    rcases mul_eq_zero.mp (show (v : Int) * d = 0 by omega) with h | h
    · exact h
    · omega
  have flip : ∀ x : Int, |-x * d - -(n : Int)| = |x * d - n| := by
    intro x
    rw [← abs_neg]
    congr 1
    ring
  have same : |(lowMag r : Int) * d - n| ≤ |(v : Int) * d - n| ∧
      (|(lowMag r : Int) * d - n| = |(v : Int) * d - n| → (v : Int) ≠ lowMag r → r % 2 = 0) :=
    ⟨hy.1, fun h1 h2 => hy.2 h1 (by exact_mod_cast h2)⟩
  have other : |(lowMag r : Int) * d - n| ≤ |-(v : Int) * d - n| ∧
      (|(lowMag r : Int) * d - n| = |-(v : Int) * d - n| → -(v : Int) ≠ lowMag r → r % 2 = 0) := by
    have hz1 : |(lowMag r : Int) * d - n| ≤ |(0 : Int) * d - n| := by exact_mod_cast hzero.1
    refine ⟨hz1.trans far.1, fun h1 h2 => ?_⟩
    have e : |(0 : Int) * d - n| = |-(v : Int) * d - n| := by
      have := far.1
      omega
    have hv0 := far.2 e
    refine hzero.2 (by exact_mod_cast h1.trans e.symm) ?_
    intro hc
    apply h2
    omega
  cases sign <;> cases hs : F64.sign y <;>
    simp only [Bool.false_eq_true, if_false, if_true]
  · exact same
  · exact other
  · have e := flip (lowMag r)
    have e2 := flip (-(v : Int))
    rw [neg_neg] at e2
    rw [e, e2]
    exact ⟨other.1, fun h1 h2 => other.2 h1 (by omega)⟩
  · rw [flip, flip]
    exact ⟨same.1, fun h1 h2 => same.2 h1 (by omega)⟩

end Sys2Proof.Machine
end

