-- ==== Sys2Proof/Laws/Memory.lean ====
section
/-! SUPPORT. The laws of memory: a byte read after a write, the canonical form kept by every operation, and the two
consequences the machine needs, for a word and for a run of entries. -/

namespace Sys2Proof.Machine

/-! ### Bytes -/

@[simp] theorem Memory.get_nil (x : Nat) : Memory.get [] x = none := rfl

@[simp] theorem Memory.get_set_same (m : Memory) (x : Nat) (v : Byte) : (m.set x v).get x = some v := by
  induction m with
  | nil => simp [Memory.set, Memory.get]
  | cons c rest ih =>
    obtain ⟨a, b⟩ := c
    simp only [Memory.set]
    split
    · simp [Memory.get]
    · split
      · simp [Memory.get]
      · simp [Memory.get, *]

theorem Memory.get_set_other {m : Memory} {x y : Nat} (v : Byte) (h : y ≠ x) : (m.set x v).get y = m.get y := by
  induction m with
  | nil => simp [Memory.set, Memory.get, h]
  | cons c rest ih =>
    obtain ⟨a, b⟩ := c
    simp only [Memory.set]
    split
    · simp [Memory.get, h]
    · split
      · rename_i hxa
        subst hxa
        simp [Memory.get, h]
      · simp [Memory.get, ih]

theorem Memory.get_set (m : Memory) (x y : Nat) (v : Byte) :
    (m.set x v).get y = if y = x then some v else m.get y := by
  split
  · next h => rw [h, Memory.get_set_same]
  · next h => rw [Memory.get_set_other v h]

/-! ### The canonical form -/

theorem Memory.risesFrom_mono {m : Memory} {lo lo' : Nat} (h : lo' ≤ lo) (hm : Memory.risesFrom lo m = true) :
    Memory.risesFrom lo' m = true := by
  cases m with
  | nil => rfl
  | cons c rest =>
    simp only [Memory.risesFrom, Bool.and_eq_true, decide_eq_true_eq] at hm ⊢
    exact ⟨by omega, hm.2⟩

theorem Memory.risesFrom_set {m : Memory} {lo x : Nat} (v : Byte) (hx : lo ≤ x) (hm : Memory.risesFrom lo m = true) :
    Memory.risesFrom lo (m.set x v) = true := by
  induction m generalizing lo with
  | nil => simp [Memory.set, Memory.risesFrom, hx]
  | cons c rest ih =>
    obtain ⟨a, b⟩ := c
    simp only [Memory.risesFrom, Bool.and_eq_true, decide_eq_true_eq] at hm
    simp only [Memory.set]
    split
    · next h =>
      simp only [Memory.risesFrom, Bool.and_eq_true, decide_eq_true_eq]
      exact ⟨hx, by omega, hm.2⟩
    · split
      · next h =>
        simp only [Memory.risesFrom, Bool.and_eq_true, decide_eq_true_eq]
        exact ⟨hx, h ▸ hm.2⟩
      · simp only [Memory.risesFrom, Bool.and_eq_true, decide_eq_true_eq]
        exact ⟨hm.1, ih (by omega) hm.2⟩

theorem Memory.wf_nil : Memory.wf [] = true := rfl

theorem Memory.wf_set {m : Memory} (x : Nat) (v : Byte) (hm : m.wf = true) : (m.set x v).wf = true :=
  Memory.risesFrom_set v (Nat.zero_le x) hm

theorem Memory.wf_writeLE {m : Memory} (a n v : Nat) (hm : m.wf = true) : (m.writeLE a n v).wf = true := by
  induction n generalizing m a v with
  | zero => exact hm
  | succ n ih => exact ih (a + 1) (v / 256) (Memory.wf_set a _ hm)

theorem Memory.wf_writeWord {m : Memory} (a : Nat) (w : Word) (hm : m.wf = true) : (m.writeWord a w).wf = true :=
  Memory.wf_writeLE a 8 w.toNat hm

theorem Memory.wf_fill {m : Memory} (base size : Nat) (val : Nat → Nat) (n : Nat) (hm : m.wf = true) :
    (m.fill base size val n).wf = true := by
  induction n with
  | zero => exact hm
  | succ n ih => exact Memory.wf_writeLE _ _ _ ih

theorem Memory.get_eq_none_of_risesFrom {m : Memory} {lo x : Nat} (hx : x < lo) (hm : Memory.risesFrom lo m = true) :
    m.get x = none := by
  induction m generalizing lo with
  | nil => rfl
  | cons c rest ih =>
    obtain ⟨a, b⟩ := c
    simp only [Memory.risesFrom, Bool.and_eq_true, decide_eq_true_eq] at hm
    have hne : x ≠ a := by omega
    simp only [Memory.get, hne, if_false]
    exact ih (lo := a + 1) (by omega) hm.2

theorem Memory.ext_risesFrom {m m' : Memory} {lo : Nat} (hm : Memory.risesFrom lo m = true)
    (hm' : Memory.risesFrom lo m' = true) (h : ∀ x, m.get x = m'.get x) : m = m' := by
  induction m generalizing m' lo with
  | nil =>
    cases m' with
    | nil => rfl
    | cons c rest =>
      have := h c.1
      simp [Memory.get] at this
  | cons c rest ih =>
    obtain ⟨a, b⟩ := c
    cases m' with
    | nil =>
      have := h a
      simp [Memory.get] at this
    | cons c' rest' =>
      obtain ⟨a', b'⟩ := c'
      simp only [Memory.risesFrom, Bool.and_eq_true, decide_eq_true_eq] at hm hm'
      have ha : a = a' := by
        rcases Nat.lt_trichotomy a a' with hlt | heq | hgt
        · have h1 := h a
          have h2 : Memory.get rest' a = none := Memory.get_eq_none_of_risesFrom (by omega) hm'.2
          have hne : a ≠ a' := by omega
          simp [Memory.get, hne, h2] at h1
        · exact heq
        · have h1 := h a'
          have h2 : Memory.get rest a' = none := Memory.get_eq_none_of_risesFrom (by omega) hm.2
          have hne : a' ≠ a := by omega
          simp [Memory.get, hne, h2] at h1
      subst ha
      have hb : b = b' := by
        have h1 := h a
        simpa [Memory.get] using h1
      subst hb
      have hrest : rest = rest' := by
        apply ih hm.2 hm'.2
        intro x
        by_cases hx : x = a
        · subst hx
          rw [Memory.get_eq_none_of_risesFrom (by omega) hm.2, Memory.get_eq_none_of_risesFrom (by omega) hm'.2]
        · have h1 := h x
          simpa [Memory.get, hx] using h1
      rw [hrest]

/-- Two memories in canonical form that read the same at every offset are the same list. -/
theorem Memory.ext_of_wf {m m' : Memory} (hm : m.wf = true) (hm' : m'.wf = true) (h : ∀ x, m.get x = m'.get x) :
    m = m' := Memory.ext_risesFrom hm hm' h

/-! ### Groups of bytes -/

/-- What every byte holds after `n` bytes of `v` have been written from `a` on. -/
theorem Memory.get_writeLE (m : Memory) (a n v x : Nat) :
    (m.writeLE a n v).get x =
      if a ≤ x ∧ x < a + n then some (BitVec.ofNat 8 (v / 256 ^ (x - a))) else m.get x := by
  induction n generalizing m a v with
  | zero =>
    rw [if_neg (by omega)]
    rfl
  | succ n ih =>
    rw [Memory.writeLE, ih, Memory.get_set]
    by_cases hx : x = a
    · subst hx
      simp
    · by_cases hr : a + 1 ≤ x ∧ x < a + 1 + n
      · rw [if_pos hr, if_pos (by omega), Nat.div_div_eq_div_mul]
        congr 3
        obtain ⟨d, hd⟩ : ∃ d, x - a = d + 1 := ⟨x - a - 1, by omega⟩
        rw [hd, show x - (a + 1) = d by omega, Nat.pow_succ, Nat.mul_comm]
      · rw [if_neg hr, if_neg hx, if_neg (by omega)]

theorem Memory.get_writeLE_outside {m : Memory} {a n v x : Nat} (h : x < a ∨ a + n ≤ x) :
    (m.writeLE a n v).get x = m.get x := by
  rw [Memory.get_writeLE, if_neg (by omega)]

/-- What every byte holds after the entries `0 .. n-1` of a run have been written. -/
theorem Memory.get_fill (m : Memory) (base size : Nat) (val : Nat → Nat) (n x : Nat) (hs : 0 < size) :
    (m.fill base size val n).get x =
      if base ≤ x ∧ x < base + size * n then
        some (BitVec.ofNat 8 (val ((x - base) / size) / 256 ^ ((x - base) % size)))
      else m.get x := by
  induction n with
  | zero =>
    rw [if_neg (by omega)]
    rfl
  | succ n ih =>
    rw [Memory.fill, Memory.get_writeLE, ih, Nat.mul_succ]
    by_cases h : base + size * n ≤ x ∧ x < base + size * n + size
    · rw [if_pos h, if_pos (by omega)]
      have hd : (x - base) / size = n := Nat.div_eq_of_lt_le (by rw [Nat.mul_comm]; omega)
        (by rw [Nat.add_mul, Nat.mul_comm n, one_mul]; omega)
      have hm : (x - base) % size = x - (base + size * n) := by
        have := Nat.div_add_mod (x - base) size
        rw [hd] at this
        omega
      rw [hd, hm]
    · rw [if_neg h]
      by_cases h2 : base ≤ x ∧ x < base + size * n
      · rw [if_pos h2, if_pos (by omega)]
      · rw [if_neg h2, if_neg (by omega)]

theorem Memory.get_fill_outside {m : Memory} {base size : Nat} {val : Nat → Nat} {n x : Nat} (hs : 0 < size)
    (h : x < base ∨ base + size * n ≤ x) : (m.fill base size val n).get x = m.get x := by
  rw [Memory.get_fill m base size val n x hs, if_neg (by omega)]

/-! ### Which offsets are listed -/

theorem Memory.mem_set {m : Memory} {x : Nat} {v : Byte} {c : Host.Cell} (h : c ∈ m.set x v) : c.1 = x ∨ c ∈ m := by
  induction m with
  | nil =>
    simp only [Memory.set, List.mem_singleton] at h
    exact .inl (by rw [h])
  | cons d rest ih =>
    obtain ⟨a, b⟩ := d
    simp only [Memory.set] at h
    split at h
    · rcases List.mem_cons.mp h with h | h
      · exact .inl (by rw [h])
      · exact .inr h
    · split at h
      · rcases List.mem_cons.mp h with h | h
        · exact .inl (by rw [h])
        · exact .inr (List.mem_cons_of_mem _ h)
      · rcases List.mem_cons.mp h with h | h
        · exact .inr (h ▸ List.mem_cons_self)
        · rcases ih h with h | h
          · exact .inl h
          · exact .inr (List.mem_cons_of_mem _ h)

theorem Memory.mem_writeLE {m : Memory} {a n v : Nat} {c : Host.Cell} (h : c ∈ m.writeLE a n v) :
    (a ≤ c.1 ∧ c.1 < a + n) ∨ c ∈ m := by
  induction n generalizing m a v with
  | zero => exact .inr h
  | succ n ih =>
    rcases ih h with h | h
    · exact .inl (by omega)
    · rcases Memory.mem_set h with h | h
      · exact .inl (by omega)
      · exact .inr h

theorem Memory.mem_fill {m : Memory} {base size : Nat} {val : Nat → Nat} {n : Nat} {c : Host.Cell}
    (h : c ∈ m.fill base size val n) : (base ≤ c.1 ∧ c.1 < base + size * n) ∨ c ∈ m := by
  induction n with
  | zero => exact .inr h
  | succ n ih =>
    rw [Nat.mul_succ]
    rcases Memory.mem_writeLE h with h | h
    · exact .inl (by omega)
    · rcases ih h with h | h
      · exact .inl (by omega)
      · exact .inr h

/-! ### Reading groups of bytes -/

theorem readLE_congr {f g : Nat → Byte} {a n : Nat} (h : ∀ x, a ≤ x → x < a + n → f x = g x) :
    readLE f a n = readLE g a n := by
  induction n generalizing a with
  | zero => rfl
  | succ n ih =>
    simp only [readLE]
    rw [h a (by omega) (by omega), ih fun x h1 h2 => h x (by omega) (by omega)]

/-- Reading back the bytes of a number gives its low bytes. -/
theorem readLE_bytes {f : Nat → Byte} {a n v : Nat}
    (h : ∀ x, a ≤ x → x < a + n → f x = BitVec.ofNat 8 (v / 256 ^ (x - a))) :
    readLE f a n = v % 256 ^ n := by
  induction n generalizing a v with
  | zero => simp [readLE, Nat.mod_one]
  | succ n ih =>
    have h0 := h a (by omega) (by omega)
    have hrest : readLE f (a + 1) n = v / 256 % 256 ^ n := by
      apply ih
      intro x h1 h2
      rw [h x (by omega) (by omega), Nat.div_div_eq_div_mul]
      congr 2
      obtain ⟨d, hd⟩ : ∃ d, x - a = d + 1 := ⟨x - a - 1, by omega⟩
      rw [hd, show x - (a + 1) = d by omega, Nat.pow_succ, Nat.mul_comm]
    rw [readLE, h0, hrest, Nat.sub_self, Nat.pow_zero, Nat.div_one, BitVec.toNat_ofNat]
    rw [show (256 : Nat) ^ (n + 1) = 256 * 256 ^ n by rw [Nat.pow_succ, Nat.mul_comm], Nat.mod_mul]

/-! ### Words, pairs and entries of a state -/

theorem State.byteAt_congr {s t : State} {a : Nat} (hm : t.mem.get a = s.mem.get a) (he : t.ramEpoch = s.ramEpoch) :
    t.byteAt a = s.byteAt a := by simp only [State.byteAt, hm, he]

theorem State.wordAt_congr {s t : State} {a : Nat} (h : ∀ x, a ≤ x → x < a + 8 → t.byteAt x = s.byteAt x) :
    t.wordAt a = s.wordAt a := by simp only [State.wordAt, readLE_congr h]

theorem State.pairAt_congr {s t : State} {a : Nat} (h : ∀ x, a ≤ x → x < a + 4 → t.byteAt x = s.byteAt x) :
    t.pairAt a = s.pairAt a := by simp only [State.pairAt, readLE_congr h]

/-- A word written at an offset is read there. -/
theorem State.wordAt_writeWord {t : State} {m : Memory} {a : Nat} {w : Word} (hm : t.mem = m.writeWord a w) :
    t.wordAt a = w := by
  have h : readLE t.byteAt a 8 = w.toNat % 256 ^ 8 := by
    apply readLE_bytes
    intro x h1 h2
    rw [State.byteAt, hm, Memory.writeWord, Memory.get_writeLE, if_pos ⟨h1, h2⟩]
    rfl
  rw [State.wordAt, h, Nat.mod_eq_of_lt (by have := w.isLt; omega), BitVec.ofNat_toNat, BitVec.setWidth_eq]

/-- A byte outside a written word keeps its value. -/
theorem State.byteAt_writeWord_outside {s t : State} {a x : Nat} {w : Word} (hm : t.mem = s.mem.writeWord a w)
    (he : t.ramEpoch = s.ramEpoch) (h : x < a ∨ a + 8 ≤ x) : t.byteAt x = s.byteAt x := by
  rw [State.byteAt, State.byteAt, hm, he, Memory.writeWord, Memory.get_writeLE_outside h]

/-- The entry `j` of a run of entries that has been written reads as what was written, cut to its size. -/
theorem State.readLE_fill {t : State} {m : Memory} {base size : Nat} {val : Nat → Nat} {n j : Nat}
    (hm : t.mem = m.fill base size val n) (hs : 0 < size) (hj : j < n) :
    readLE t.byteAt (base + size * j) size = val j % 256 ^ size := by
  apply readLE_bytes
  intro x h1 h2
  have hle : size * j + size ≤ size * n := by
    have := Nat.mul_le_mul_left size (Nat.succ_le_of_lt hj)
    rwa [Nat.mul_succ] at this
  have hd : (x - base) / size = j := Nat.div_eq_of_lt_le (by rw [Nat.mul_comm]; omega)
    (by rw [Nat.add_mul, Nat.mul_comm j, one_mul]; omega)
  have hr : (x - base) % size = x - (base + size * j) := by
    have := Nat.div_add_mod (x - base) size
    rw [hd] at this
    omega
  rw [State.byteAt, hm, Memory.get_fill _ _ _ _ _ _ hs, if_pos (by omega), hd, hr]
  rfl

/-- A byte outside a written run of entries keeps its value. -/
theorem State.byteAt_fill_outside {s t : State} {base size : Nat} {val : Nat → Nat} {n x : Nat}
    (hm : t.mem = s.mem.fill base size val n) (he : t.ramEpoch = s.ramEpoch) (hs : 0 < size)
    (h : x < base ∨ base + size * n ≤ x) : t.byteAt x = s.byteAt x := by
  rw [State.byteAt, State.byteAt, hm, he, Memory.get_fill_outside hs h]

/-! ### The four RAMs -/

/-- A pair is its 32 bits. -/
@[simp] theorem pairOfBits_pairBits (p : IQ) : pairOfBits (pairBits p) = p := by
  have hi := p.i.isLt
  have hq := p.q.isLt
  have h1 : (pairBits p).extractLsb' 0 16 = p.i := by
    apply BitVec.eq_of_toNat_eq
    simp only [pairBits, BitVec.extractLsb'_toNat, BitVec.toNat_ofNat, Nat.shiftRight_eq_div_pow]
    omega
  have h2 : (pairBits p).extractLsb' 16 16 = p.q := by
    apply BitVec.eq_of_toNat_eq
    simp only [pairBits, BitVec.extractLsb'_toNat, BitVec.toNat_ofNat, Nat.shiftRight_eq_div_pow]
    omega
  rw [pairOfBits, h1, h2]

theorem State.win_fillWin {t : State} {m : Memory} {val : Nat → Word} {n j : Nat} (hm : t.mem = m.fillWin val n)
    (hj : j < n) : t.win j = val j := by
  rw [State.win, State.wordAt, winAddr, State.readLE_fill hm (by omega) hj,
    Nat.mod_eq_of_lt (by have := (val j).isLt; omega), BitVec.ofNat_toNat, BitVec.setWidth_eq]

theorem State.txbuf_fillTx {t : State} {m : Memory} {val : Nat → IQ} {n j : Nat} (hm : t.mem = m.fillTx val n)
    (hj : j < n) : t.txbuf j = val j := by
  rw [State.txbuf, State.pairAt, txAddr, State.readLE_fill hm (by omega) hj,
    Nat.mod_eq_of_lt (by have := (pairBits (val j)).isLt; omega), BitVec.ofNat_toNat, BitVec.setWidth_eq,
    pairOfBits_pairBits]

theorem State.rxbuf_fillRx {t : State} {m : Memory} {val : Nat → IQ} {n j : Nat} (hm : t.mem = m.fillRx val n)
    (hj : j < n) : t.rxbuf j = val j := by
  rw [State.rxbuf, State.pairAt, rxAddr, State.readLE_fill hm (by omega) hj,
    Nat.mod_eq_of_lt (by have := (pairBits (val j)).isLt; omega), BitVec.ofNat_toNat, BitVec.setWidth_eq,
    pairOfBits_pairBits]

theorem readLE_add (f : Nat → Byte) (a n k : Nat) : readLE f a (n + k) = readLE f a n + 256 ^ n * readLE f (a + n) k := by
  induction n generalizing a with
  | zero => simp [readLE]
  | succ n ih =>
    rw [show n + 1 + k = (n + k) + 1 by omega, readLE, readLE, ih, Nat.pow_succ, show a + (n + 1) = a + 1 + n by omega]
    ring

theorem readLE_lt (f : Nat → Byte) (a n : Nat) : readLE f a n < 256 ^ n := by
  induction n generalizing a with
  | zero => simp [readLE]
  | succ n ih =>
    have h1 := ih (a + 1)
    have h2 := (f a).isLt
    rw [readLE, Nat.pow_succ]
    omega

theorem State.spec_fillSpec {t : State} {m : Memory} {freq mag : Nat → Word} {n k : Nat}
    (hm : t.mem = m.fillSpec freq mag n) (hk : k < n) : t.specFreq k = freq k ∧ t.specMag k = mag k := by
  have h16 : readLE t.byteAt (specAddr k) 16 = (freq k).toNat + 2 ^ 64 * (mag k).toNat := by
    rw [specAddr, State.readLE_fill hm (by omega) hk]
    apply Nat.mod_eq_of_lt
    have h1 := (freq k).isLt
    have h2 := (mag k).isLt
    omega
  have hadd := readLE_add t.byteAt (specAddr k) 8 8
  rw [h16] at hadd
  have hlo := readLE_lt t.byteAt (specAddr k) 8
  have hf := (freq k).isLt
  constructor
  · rw [State.specFreq, State.wordAt, show readLE t.byteAt (specAddr k) 8 = (freq k).toNat by omega,
      BitVec.ofNat_toNat, BitVec.setWidth_eq]
  · rw [State.specMag, State.wordAt, show readLE t.byteAt (specAddr k + 8) 8 = (mag k).toNat by omega,
      BitVec.ofNat_toNat, BitVec.setWidth_eq]

theorem toNat_pairBits_pairOfBits {n : Nat} (h : n < 2 ^ 32) : (pairBits (pairOfBits (BitVec.ofNat 32 n))).toNat = n := by
  simp only [pairBits, pairOfBits, BitVec.toNat_ofNat, BitVec.extractLsb'_toNat, Nat.shiftRight_eq_div_pow]
  omega

/-- A word of a sample buffer is the SAMPLE2 word of its two pairs (R125). -/
theorem State.wordAt_eq_sample2 (s : State) (a : Nat) : s.wordAt a = sample2 (s.pairAt a) (s.pairAt (a + 4)) := by
  have h := readLE_add s.byteAt a 4 4
  have h1 := readLE_lt s.byteAt a 4
  have h2 := readLE_lt s.byteAt (a + 4) 4
  rw [State.wordAt, sample2, State.pairAt, State.pairAt, toNat_pairBits_pairOfBits h1, toNat_pairBits_pairOfBits h2, h]
  rfl

/-- The two pairs of a word of a sample buffer (R125). -/
theorem State.pairAt_of_wordAt {t : State} {a : Nat} {d : Word} (h : t.wordAt a = d) :
    t.pairAt a = { i := d.extractLsb' 0 16, q := d.extractLsb' 16 16 } ∧
    t.pairAt (a + 4) = { i := d.extractLsb' 32 16, q := d.extractLsb' 48 16 } := by
  have h1 := readLE_lt t.byteAt a 4
  have h2 := readLE_lt t.byteAt (a + 4) 4
  have hd : d.toNat = readLE t.byteAt a 4 + 2 ^ 32 * readLE t.byteAt (a + 4) 4 := by
    rw [← h, State.wordAt, readLE_add t.byteAt a 4 4, BitVec.toNat_ofNat, Nat.mod_eq_of_lt (by omega)]
    rfl
  have field : ∀ (x : Nat) (k j : Nat), x / 2 ^ k % 2 ^ 16 = d.toNat / 2 ^ j % 2 ^ 16 → x < 2 ^ 32 →
      (BitVec.ofNat 32 x).extractLsb' k 16 = d.extractLsb' j 16 := by
    intro x k j hx hl
    apply BitVec.eq_of_toNat_eq
    rw [BitVec.extractLsb'_toNat, BitVec.extractLsb'_toNat, BitVec.toNat_ofNat, Nat.mod_eq_of_lt hl,
      Nat.shiftRight_eq_div_pow, Nat.shiftRight_eq_div_pow, hx]
  constructor
  · rw [State.pairAt, pairOfBits, field _ 0 0 (by omega) h1, field _ 16 16 (by omega) h1]
  · rw [State.pairAt, pairOfBits, field _ 0 32 (by omega) h2, field _ 16 48 (by omega) h2]

end Sys2Proof.Machine
end

