-- ==== Sys2Proof/Laws/State.lean ====
section
/-! SUPPORT. What every field of State holds after each named update: one lemma per update, a clause per field, so that no
proof unfolds a record update. -/

namespace Sys2Proof.Machine

/-- Taking draws. -/
@[simp] theorem State.consume_fields (s : State) (k : Nat) :
    (s.consume k).par = s.par ∧ (s.consume k).ctrlWrap = s.ctrlWrap ∧ (s.consume k).fftSize = s.fftSize ∧
    (s.consume k).sampleRate = s.sampleRate ∧ (s.consume k).toneA = s.toneA ∧ (s.consume k).toneF1 = s.toneF1 ∧
    (s.consume k).toneF2 = s.toneF2 ∧ (s.consume k).dbFloor = s.dbFloor ∧ (s.consume k).phase = s.phase ∧
    (s.consume k).phaseInc = s.phaseInc ∧ (s.consume k).seq = s.seq ∧ (s.consume k).err = s.err ∧
    (s.consume k).cancel = s.cancel ∧ (s.consume k).txOwn = s.txOwn ∧ (s.consume k).rxOwn = s.rxOwn ∧
    (s.consume k).planValid = s.planValid ∧ (s.consume k).xportOpen = s.xportOpen ∧
    (s.consume k).sinkOpen = s.sinkOpen ∧ (s.consume k).cmdErr = s.cmdErr ∧
    (s.consume k).cmdErrCause = s.cmdErrCause ∧ (s.consume k).accErr = s.accErr ∧
    (s.consume k).rxCount = s.rxCount ∧ (s.consume k).txCount = s.txCount ∧
    (s.consume k).cycleCount = s.cycleCount ∧ (s.consume k).lastTxBytes = s.lastTxBytes ∧
    (s.consume k).lastRxBytes = s.lastRxBytes ∧ (s.consume k).specSeq = s.specSeq ∧ (s.consume k).xreq = s.xreq ∧
    (s.consume k).xresp = s.xresp ∧ (s.consume k).mem = s.mem ∧ (s.consume k).ramEpoch = s.ramEpoch ∧
    (s.consume k).bus = s.bus ∧ (s.consume k).oracle = s.oracle.drop k ∧ (s.consume k).drawn = s.drawn + k ∧
    (s.consume k).sent = s.sent ∧ (s.consume k).configured = s.configured ∧ (s.consume k).program = s.program ∧
    (s.consume k).agenda = s.agenda :=
  ⟨rfl, rfl, rfl, rfl, rfl, rfl, rfl, rfl, rfl, rfl, rfl, rfl, rfl, rfl, rfl, rfl, rfl, rfl,
   rfl, rfl, rfl, rfl, rfl, rfl, rfl, rfl, rfl, rfl, rfl, rfl, rfl, rfl, rfl, rfl, rfl, rfl, rfl, rfl⟩

/-- A bus answer. -/
@[simp] theorem State.respond_fields (s : State) (r : BusResp) :
    (s.respond r).par = s.par ∧ (s.respond r).ctrlWrap = s.ctrlWrap ∧ (s.respond r).fftSize = s.fftSize ∧
    (s.respond r).sampleRate = s.sampleRate ∧ (s.respond r).toneA = s.toneA ∧ (s.respond r).toneF1 = s.toneF1 ∧
    (s.respond r).toneF2 = s.toneF2 ∧ (s.respond r).dbFloor = s.dbFloor ∧ (s.respond r).phase = s.phase ∧
    (s.respond r).phaseInc = s.phaseInc ∧ (s.respond r).seq = s.seq ∧ (s.respond r).err = s.err ∧
    (s.respond r).cancel = s.cancel ∧ (s.respond r).txOwn = s.txOwn ∧ (s.respond r).rxOwn = s.rxOwn ∧
    (s.respond r).planValid = s.planValid ∧ (s.respond r).xportOpen = s.xportOpen ∧
    (s.respond r).sinkOpen = s.sinkOpen ∧ (s.respond r).cmdErr = s.cmdErr ∧
    (s.respond r).cmdErrCause = s.cmdErrCause ∧ (s.respond r).accErr = s.accErr ∧
    (s.respond r).rxCount = s.rxCount ∧ (s.respond r).txCount = s.txCount ∧
    (s.respond r).cycleCount = s.cycleCount ∧ (s.respond r).lastTxBytes = s.lastTxBytes ∧
    (s.respond r).lastRxBytes = s.lastRxBytes ∧ (s.respond r).specSeq = s.specSeq ∧ (s.respond r).xreq = s.xreq ∧
    (s.respond r).xresp = s.xresp ∧ (s.respond r).mem = s.mem ∧ (s.respond r).ramEpoch = s.ramEpoch ∧
    (s.respond r).bus = r ∧ (s.respond r).oracle = s.oracle ∧ (s.respond r).drawn = s.drawn ∧
    (s.respond r).sent = s.sent ∧ (s.respond r).configured = s.configured ∧ (s.respond r).program = s.program ∧
    (s.respond r).agenda = s.agenda :=
  ⟨rfl, rfl, rfl, rfl, rfl, rfl, rfl, rfl, rfl, rfl, rfl, rfl, rfl, rfl, rfl, rfl, rfl, rfl,
   rfl, rfl, rfl, rfl, rfl, rfl, rfl, rfl, rfl, rfl, rfl, rfl, rfl, rfl, rfl, rfl, rfl, rfl, rfl, rfl⟩

/-- `goto`. -/
@[simp] theorem State.goto_fields (s : State) (p : SeqPos) :
    (s.goto p).par = s.par ∧ (s.goto p).ctrlWrap = s.ctrlWrap ∧ (s.goto p).fftSize = s.fftSize ∧
    (s.goto p).sampleRate = s.sampleRate ∧ (s.goto p).toneA = s.toneA ∧ (s.goto p).toneF1 = s.toneF1 ∧
    (s.goto p).toneF2 = s.toneF2 ∧ (s.goto p).dbFloor = s.dbFloor ∧ (s.goto p).phase = s.phase ∧
    (s.goto p).phaseInc = s.phaseInc ∧ (s.goto p).seq = p ∧ (s.goto p).err = s.err ∧ (s.goto p).cancel = s.cancel ∧
    (s.goto p).txOwn = s.txOwn ∧ (s.goto p).rxOwn = s.rxOwn ∧ (s.goto p).planValid = s.planValid ∧
    (s.goto p).xportOpen = s.xportOpen ∧ (s.goto p).sinkOpen = s.sinkOpen ∧ (s.goto p).cmdErr = s.cmdErr ∧
    (s.goto p).cmdErrCause = s.cmdErrCause ∧ (s.goto p).accErr = s.accErr ∧ (s.goto p).rxCount = s.rxCount ∧
    (s.goto p).txCount = s.txCount ∧ (s.goto p).cycleCount = s.cycleCount ∧ (s.goto p).lastTxBytes = s.lastTxBytes ∧
    (s.goto p).lastRxBytes = s.lastRxBytes ∧ (s.goto p).specSeq = s.specSeq ∧ (s.goto p).xreq = s.xreq ∧
    (s.goto p).xresp = s.xresp ∧ (s.goto p).mem = s.mem ∧ (s.goto p).ramEpoch = s.ramEpoch ∧
    (s.goto p).bus = s.bus ∧ (s.goto p).oracle = s.oracle ∧ (s.goto p).drawn = s.drawn ∧ (s.goto p).sent = s.sent ∧
    (s.goto p).configured = s.configured ∧ (s.goto p).program = s.program ∧ (s.goto p).agenda = s.agenda :=
  ⟨rfl, rfl, rfl, rfl, rfl, rfl, rfl, rfl, rfl, rfl, rfl, rfl, rfl, rfl, rfl, rfl, rfl, rfl,
   rfl, rfl, rfl, rfl, rfl, rfl, rfl, rfl, rfl, rfl, rfl, rfl, rfl, rfl, rfl, rfl, rfl, rfl, rfl, rfl⟩

/-- A rejected command. -/
@[simp] theorem State.cmderr_fields (s : State) (c : CmdCause) :
    (s.cmderr c).par = s.par ∧ (s.cmderr c).ctrlWrap = s.ctrlWrap ∧ (s.cmderr c).fftSize = s.fftSize ∧
    (s.cmderr c).sampleRate = s.sampleRate ∧ (s.cmderr c).toneA = s.toneA ∧ (s.cmderr c).toneF1 = s.toneF1 ∧
    (s.cmderr c).toneF2 = s.toneF2 ∧ (s.cmderr c).dbFloor = s.dbFloor ∧ (s.cmderr c).phase = s.phase ∧
    (s.cmderr c).phaseInc = s.phaseInc ∧ (s.cmderr c).seq = s.seq ∧ (s.cmderr c).err = s.err ∧
    (s.cmderr c).cancel = s.cancel ∧ (s.cmderr c).txOwn = s.txOwn ∧ (s.cmderr c).rxOwn = s.rxOwn ∧
    (s.cmderr c).planValid = s.planValid ∧ (s.cmderr c).xportOpen = s.xportOpen ∧
    (s.cmderr c).sinkOpen = s.sinkOpen ∧ (s.cmderr c).cmdErr = true ∧ (s.cmderr c).cmdErrCause = c ∧
    (s.cmderr c).accErr = s.accErr ∧ (s.cmderr c).rxCount = s.rxCount ∧ (s.cmderr c).txCount = s.txCount ∧
    (s.cmderr c).cycleCount = s.cycleCount ∧ (s.cmderr c).lastTxBytes = s.lastTxBytes ∧
    (s.cmderr c).lastRxBytes = s.lastRxBytes ∧ (s.cmderr c).specSeq = s.specSeq ∧ (s.cmderr c).xreq = s.xreq ∧
    (s.cmderr c).xresp = s.xresp ∧ (s.cmderr c).mem = s.mem ∧ (s.cmderr c).ramEpoch = s.ramEpoch ∧
    (s.cmderr c).bus = s.bus ∧ (s.cmderr c).oracle = s.oracle ∧ (s.cmderr c).drawn = s.drawn ∧
    (s.cmderr c).sent = s.sent ∧ (s.cmderr c).configured = s.configured ∧ (s.cmderr c).program = s.program ∧
    (s.cmderr c).agenda = s.agenda :=
  ⟨rfl, rfl, rfl, rfl, rfl, rfl, rfl, rfl, rfl, rfl, rfl, rfl, rfl, rfl, rfl, rfl, rfl, rfl,
   rfl, rfl, rfl, rfl, rfl, rfl, rfl, rfl, rfl, rfl, rfl, rfl, rfl, rfl, rfl, rfl, rfl, rfl, rfl, rfl⟩

/-- A refused write. -/
@[simp] theorem State.accerr_fields (s : State) :
    (s.accerr).par = s.par ∧ (s.accerr).ctrlWrap = s.ctrlWrap ∧ (s.accerr).fftSize = s.fftSize ∧
    (s.accerr).sampleRate = s.sampleRate ∧ (s.accerr).toneA = s.toneA ∧ (s.accerr).toneF1 = s.toneF1 ∧
    (s.accerr).toneF2 = s.toneF2 ∧ (s.accerr).dbFloor = s.dbFloor ∧ (s.accerr).phase = s.phase ∧
    (s.accerr).phaseInc = s.phaseInc ∧ (s.accerr).seq = s.seq ∧ (s.accerr).err = s.err ∧
    (s.accerr).cancel = s.cancel ∧ (s.accerr).txOwn = s.txOwn ∧ (s.accerr).rxOwn = s.rxOwn ∧
    (s.accerr).planValid = s.planValid ∧ (s.accerr).xportOpen = s.xportOpen ∧ (s.accerr).sinkOpen = s.sinkOpen ∧
    (s.accerr).cmdErr = s.cmdErr ∧ (s.accerr).cmdErrCause = s.cmdErrCause ∧ (s.accerr).accErr = true ∧
    (s.accerr).rxCount = s.rxCount ∧ (s.accerr).txCount = s.txCount ∧ (s.accerr).cycleCount = s.cycleCount ∧
    (s.accerr).lastTxBytes = s.lastTxBytes ∧ (s.accerr).lastRxBytes = s.lastRxBytes ∧
    (s.accerr).specSeq = s.specSeq ∧ (s.accerr).xreq = s.xreq ∧ (s.accerr).xresp = s.xresp ∧
    (s.accerr).mem = s.mem ∧ (s.accerr).ramEpoch = s.ramEpoch ∧ (s.accerr).bus = s.bus ∧
    (s.accerr).oracle = s.oracle ∧ (s.accerr).drawn = s.drawn ∧ (s.accerr).sent = s.sent ∧
    (s.accerr).configured = s.configured ∧ (s.accerr).program = s.program ∧ (s.accerr).agenda = s.agenda :=
  ⟨rfl, rfl, rfl, rfl, rfl, rfl, rfl, rfl, rfl, rfl, rfl, rfl, rfl, rfl, rfl, rfl, rfl, rfl,
   rfl, rfl, rfl, rfl, rfl, rfl, rfl, rfl, rfl, rfl, rfl, rfl, rfl, rfl, rfl, rfl, rfl, rfl, rfl, rfl⟩

/-- The fatal-error entry. -/
@[simp] theorem State.raise_fields (s : State) (e : ErrKind) :
    (s.raise e).par = s.par ∧ (s.raise e).ctrlWrap = s.ctrlWrap ∧ (s.raise e).fftSize = s.fftSize ∧
    (s.raise e).sampleRate = s.sampleRate ∧ (s.raise e).toneA = s.toneA ∧ (s.raise e).toneF1 = s.toneF1 ∧
    (s.raise e).toneF2 = s.toneF2 ∧ (s.raise e).dbFloor = s.dbFloor ∧ (s.raise e).phase = s.phase ∧
    (s.raise e).phaseInc = s.phaseInc ∧ (s.raise e).seq = .sdReleaseLocal ∧ (s.raise e).err = e ∧
    (s.raise e).cancel = s.cancel ∧ (s.raise e).txOwn = s.txOwn ∧ (s.raise e).rxOwn = s.rxOwn ∧
    (s.raise e).planValid = s.planValid ∧ (s.raise e).xportOpen = s.xportOpen ∧ (s.raise e).sinkOpen = s.sinkOpen ∧
    (s.raise e).cmdErr = s.cmdErr ∧ (s.raise e).cmdErrCause = s.cmdErrCause ∧ (s.raise e).accErr = s.accErr ∧
    (s.raise e).rxCount = s.rxCount ∧ (s.raise e).txCount = s.txCount ∧ (s.raise e).cycleCount = s.cycleCount ∧
    (s.raise e).lastTxBytes = s.lastTxBytes ∧ (s.raise e).lastRxBytes = s.lastRxBytes ∧
    (s.raise e).specSeq = s.specSeq ∧ (s.raise e).xreq = s.xreq ∧ (s.raise e).xresp = s.xresp ∧
    (s.raise e).mem = s.mem ∧ (s.raise e).ramEpoch = s.ramEpoch ∧ (s.raise e).bus = s.bus ∧
    (s.raise e).oracle = s.oracle ∧ (s.raise e).drawn = s.drawn ∧ (s.raise e).sent = s.sent ∧
    (s.raise e).configured = s.configured ∧ (s.raise e).program = s.program ∧ (s.raise e).agenda = s.agenda :=
  ⟨rfl, rfl, rfl, rfl, rfl, rfl, rfl, rfl, rfl, rfl, rfl, rfl, rfl, rfl, rfl, rfl, rfl, rfl,
   rfl, rfl, rfl, rfl, rfl, rfl, rfl, rfl, rfl, rfl, rfl, rfl, rfl, rfl, rfl, rfl, rfl, rfl, rfl, rfl⟩

/-- The publication counter. -/
@[simp] theorem State.bumpSpecSeq_fields (s : State) :
    (s.bumpSpecSeq).par = s.par ∧ (s.bumpSpecSeq).ctrlWrap = s.ctrlWrap ∧ (s.bumpSpecSeq).fftSize = s.fftSize ∧
    (s.bumpSpecSeq).sampleRate = s.sampleRate ∧ (s.bumpSpecSeq).toneA = s.toneA ∧
    (s.bumpSpecSeq).toneF1 = s.toneF1 ∧ (s.bumpSpecSeq).toneF2 = s.toneF2 ∧ (s.bumpSpecSeq).dbFloor = s.dbFloor ∧
    (s.bumpSpecSeq).phase = s.phase ∧ (s.bumpSpecSeq).phaseInc = s.phaseInc ∧ (s.bumpSpecSeq).seq = s.seq ∧
    (s.bumpSpecSeq).err = s.err ∧ (s.bumpSpecSeq).cancel = s.cancel ∧ (s.bumpSpecSeq).txOwn = s.txOwn ∧
    (s.bumpSpecSeq).rxOwn = s.rxOwn ∧ (s.bumpSpecSeq).planValid = s.planValid ∧
    (s.bumpSpecSeq).xportOpen = s.xportOpen ∧ (s.bumpSpecSeq).sinkOpen = s.sinkOpen ∧
    (s.bumpSpecSeq).cmdErr = s.cmdErr ∧ (s.bumpSpecSeq).cmdErrCause = s.cmdErrCause ∧
    (s.bumpSpecSeq).accErr = s.accErr ∧ (s.bumpSpecSeq).rxCount = s.rxCount ∧ (s.bumpSpecSeq).txCount = s.txCount ∧
    (s.bumpSpecSeq).cycleCount = s.cycleCount ∧ (s.bumpSpecSeq).lastTxBytes = s.lastTxBytes ∧
    (s.bumpSpecSeq).lastRxBytes = s.lastRxBytes ∧ (s.bumpSpecSeq).specSeq = s.specSeq + 1 ∧
    (s.bumpSpecSeq).xreq = s.xreq ∧ (s.bumpSpecSeq).xresp = s.xresp ∧ (s.bumpSpecSeq).mem = s.mem ∧
    (s.bumpSpecSeq).ramEpoch = s.ramEpoch ∧ (s.bumpSpecSeq).bus = s.bus ∧ (s.bumpSpecSeq).oracle = s.oracle ∧
    (s.bumpSpecSeq).drawn = s.drawn ∧ (s.bumpSpecSeq).sent = s.sent ∧ (s.bumpSpecSeq).configured = s.configured ∧
    (s.bumpSpecSeq).program = s.program ∧ (s.bumpSpecSeq).agenda = s.agenda :=
  ⟨rfl, rfl, rfl, rfl, rfl, rfl, rfl, rfl, rfl, rfl, rfl, rfl, rfl, rfl, rfl, rfl, rfl, rfl,
   rfl, rfl, rfl, rfl, rfl, rfl, rfl, rfl, rfl, rfl, rfl, rfl, rfl, rfl, rfl, rfl, rfl, rfl, rfl, rfl⟩

/-- The write of STATUS. -/
@[simp] theorem State.statusW1C_fields (s : State) (d : Word) :
    (s.statusW1C d).par = s.par ∧ (s.statusW1C d).ctrlWrap = s.ctrlWrap ∧ (s.statusW1C d).fftSize = s.fftSize ∧
    (s.statusW1C d).sampleRate = s.sampleRate ∧ (s.statusW1C d).toneA = s.toneA ∧
    (s.statusW1C d).toneF1 = s.toneF1 ∧ (s.statusW1C d).toneF2 = s.toneF2 ∧ (s.statusW1C d).dbFloor = s.dbFloor ∧
    (s.statusW1C d).phase = s.phase ∧ (s.statusW1C d).phaseInc = s.phaseInc ∧ (s.statusW1C d).seq = s.seq ∧
    (s.statusW1C d).err = s.err ∧ (s.statusW1C d).cancel = s.cancel ∧ (s.statusW1C d).txOwn = s.txOwn ∧
    (s.statusW1C d).rxOwn = s.rxOwn ∧ (s.statusW1C d).planValid = s.planValid ∧
    (s.statusW1C d).xportOpen = s.xportOpen ∧ (s.statusW1C d).sinkOpen = s.sinkOpen ∧
    (s.statusW1C d).cmdErr = (if d.getLsbD 20 then false else s.cmdErr) ∧
    (s.statusW1C d).cmdErrCause = (if d.getLsbD 20 then .none else s.cmdErrCause) ∧
    (s.statusW1C d).accErr = (if d.getLsbD 21 then false else s.accErr) ∧ (s.statusW1C d).rxCount = s.rxCount ∧
    (s.statusW1C d).txCount = s.txCount ∧ (s.statusW1C d).cycleCount = s.cycleCount ∧
    (s.statusW1C d).lastTxBytes = s.lastTxBytes ∧ (s.statusW1C d).lastRxBytes = s.lastRxBytes ∧
    (s.statusW1C d).specSeq = s.specSeq ∧ (s.statusW1C d).xreq = s.xreq ∧ (s.statusW1C d).xresp = s.xresp ∧
    (s.statusW1C d).mem = s.mem ∧ (s.statusW1C d).ramEpoch = s.ramEpoch ∧ (s.statusW1C d).bus = s.bus ∧
    (s.statusW1C d).oracle = s.oracle ∧ (s.statusW1C d).drawn = s.drawn ∧ (s.statusW1C d).sent = s.sent ∧
    (s.statusW1C d).configured = s.configured ∧ (s.statusW1C d).program = s.program ∧
    (s.statusW1C d).agenda = s.agenda :=
  ⟨rfl, rfl, rfl, rfl, rfl, rfl, rfl, rfl, rfl, rfl, rfl, rfl, rfl, rfl, rfl, rfl, rfl, rfl,
   rfl, rfl, rfl, rfl, rfl, rfl, rfl, rfl, rfl, rfl, rfl, rfl, rfl, rfl, rfl, rfl, rfl, rfl, rfl, rfl⟩

/-- The window generator. -/
@[simp] theorem State.buildWindow_fields (s : State) :
    (s.buildWindow).par = s.par ∧ (s.buildWindow).ctrlWrap = s.ctrlWrap ∧ (s.buildWindow).fftSize = s.fftSize ∧
    (s.buildWindow).sampleRate = s.sampleRate ∧ (s.buildWindow).toneA = s.toneA ∧
    (s.buildWindow).toneF1 = s.toneF1 ∧ (s.buildWindow).toneF2 = s.toneF2 ∧ (s.buildWindow).dbFloor = s.dbFloor ∧
    (s.buildWindow).phase = s.phase ∧ (s.buildWindow).phaseInc = s.phaseInc ∧ (s.buildWindow).seq = s.seq ∧
    (s.buildWindow).err = s.err ∧ (s.buildWindow).cancel = s.cancel ∧ (s.buildWindow).txOwn = s.txOwn ∧
    (s.buildWindow).rxOwn = s.rxOwn ∧ (s.buildWindow).planValid = s.planValid ∧
    (s.buildWindow).xportOpen = s.xportOpen ∧ (s.buildWindow).sinkOpen = s.sinkOpen ∧
    (s.buildWindow).cmdErr = s.cmdErr ∧ (s.buildWindow).cmdErrCause = s.cmdErrCause ∧
    (s.buildWindow).accErr = s.accErr ∧ (s.buildWindow).rxCount = s.rxCount ∧ (s.buildWindow).txCount = s.txCount ∧
    (s.buildWindow).cycleCount = s.cycleCount ∧ (s.buildWindow).lastTxBytes = s.lastTxBytes ∧
    (s.buildWindow).lastRxBytes = s.lastRxBytes ∧ (s.buildWindow).specSeq = s.specSeq ∧
    (s.buildWindow).xreq = s.xreq ∧ (s.buildWindow).xresp = s.xresp ∧
    (s.buildWindow).mem = s.mem.fillWin (fun j => hann64 j s.n) s.n ∧ (s.buildWindow).ramEpoch = s.ramEpoch ∧
    (s.buildWindow).bus = s.bus ∧ (s.buildWindow).oracle = s.oracle ∧ (s.buildWindow).drawn = s.drawn ∧
    (s.buildWindow).sent = s.sent ∧ (s.buildWindow).configured = s.configured ∧
    (s.buildWindow).program = s.program ∧ (s.buildWindow).agenda = s.agenda :=
  ⟨rfl, rfl, rfl, rfl, rfl, rfl, rfl, rfl, rfl, rfl, rfl, rfl, rfl, rfl, rfl, rfl, rfl, rfl,
   rfl, rfl, rfl, rfl, rfl, rfl, rfl, rfl, rfl, rfl, rfl, rfl, rfl, rfl, rfl, rfl, rfl, rfl, rfl, rfl⟩

/-- The spectral engine. -/
@[simp] theorem State.spectrumFn_fields (s : State) :
    (s.spectrumFn).par = s.par ∧ (s.spectrumFn).ctrlWrap = s.ctrlWrap ∧ (s.spectrumFn).fftSize = s.fftSize ∧
    (s.spectrumFn).sampleRate = s.sampleRate ∧ (s.spectrumFn).toneA = s.toneA ∧ (s.spectrumFn).toneF1 = s.toneF1 ∧
    (s.spectrumFn).toneF2 = s.toneF2 ∧ (s.spectrumFn).dbFloor = s.dbFloor ∧ (s.spectrumFn).phase = s.phase ∧
    (s.spectrumFn).phaseInc = s.phaseInc ∧ (s.spectrumFn).seq = s.seq ∧ (s.spectrumFn).err = s.err ∧
    (s.spectrumFn).cancel = s.cancel ∧ (s.spectrumFn).txOwn = s.txOwn ∧ (s.spectrumFn).rxOwn = s.rxOwn ∧
    (s.spectrumFn).planValid = s.planValid ∧ (s.spectrumFn).xportOpen = s.xportOpen ∧
    (s.spectrumFn).sinkOpen = s.sinkOpen ∧ (s.spectrumFn).cmdErr = s.cmdErr ∧
    (s.spectrumFn).cmdErrCause = s.cmdErrCause ∧ (s.spectrumFn).accErr = s.accErr ∧
    (s.spectrumFn).rxCount = s.rxCount ∧ (s.spectrumFn).txCount = s.txCount ∧
    (s.spectrumFn).cycleCount = s.cycleCount ∧ (s.spectrumFn).lastTxBytes = s.lastTxBytes ∧
    (s.spectrumFn).lastRxBytes = s.lastRxBytes ∧ (s.spectrumFn).specSeq = s.specSeq ∧ (s.spectrumFn).xreq = s.xreq ∧
    (s.spectrumFn).xresp = s.xresp ∧
    (s.spectrumFn).mem = s.mem.fillSpec (fun k => binFreq s.n s.sampleRate k) s.binDb s.n ∧
    (s.spectrumFn).ramEpoch = s.ramEpoch ∧ (s.spectrumFn).bus = s.bus ∧ (s.spectrumFn).oracle = s.oracle ∧
    (s.spectrumFn).drawn = s.drawn ∧ (s.spectrumFn).sent = s.sent ∧ (s.spectrumFn).configured = s.configured ∧
    (s.spectrumFn).program = s.program ∧ (s.spectrumFn).agenda = s.agenda :=
  ⟨rfl, rfl, rfl, rfl, rfl, rfl, rfl, rfl, rfl, rfl, rfl, rfl, rfl, rfl, rfl, rfl, rfl, rfl,
   rfl, rfl, rfl, rfl, rfl, rfl, rfl, rfl, rfl, rfl, rfl, rfl, rfl, rfl, rfl, rfl, rfl, rfl, rfl, rfl⟩

/-- The synthesizer. -/
@[simp] theorem State.synthBlock_fields (s : State) :
    (s.synthBlock).par = s.par ∧ (s.synthBlock).ctrlWrap = s.ctrlWrap ∧ (s.synthBlock).fftSize = s.fftSize ∧
    (s.synthBlock).sampleRate = s.sampleRate ∧ (s.synthBlock).toneA = s.toneA ∧ (s.synthBlock).toneF1 = s.toneF1 ∧
    (s.synthBlock).toneF2 = s.toneF2 ∧ (s.synthBlock).dbFloor = s.dbFloor ∧
    (s.synthBlock).phase = phaseAfter s.phase s.phaseInc s.par.blockLen ∧ (s.synthBlock).phaseInc = s.phaseInc ∧
    (s.synthBlock).seq = s.seq ∧ (s.synthBlock).err = s.err ∧ (s.synthBlock).cancel = s.cancel ∧
    (s.synthBlock).txOwn = s.txOwn ∧ (s.synthBlock).rxOwn = s.rxOwn ∧ (s.synthBlock).planValid = s.planValid ∧
    (s.synthBlock).xportOpen = s.xportOpen ∧ (s.synthBlock).sinkOpen = s.sinkOpen ∧
    (s.synthBlock).cmdErr = s.cmdErr ∧ (s.synthBlock).cmdErrCause = s.cmdErrCause ∧
    (s.synthBlock).accErr = s.accErr ∧ (s.synthBlock).rxCount = s.rxCount ∧ (s.synthBlock).txCount = s.txCount ∧
    (s.synthBlock).cycleCount = s.cycleCount ∧ (s.synthBlock).lastTxBytes = s.lastTxBytes ∧
    (s.synthBlock).lastRxBytes = s.lastRxBytes ∧ (s.synthBlock).specSeq = s.specSeq ∧ (s.synthBlock).xreq = s.xreq ∧
    (s.synthBlock).xresp = s.xresp ∧
    (s.synthBlock).mem = s.mem.fillTx (fun i => s.synthFn (phaseAfter s.phase s.phaseInc i)) s.par.blockLen ∧
    (s.synthBlock).ramEpoch = s.ramEpoch ∧ (s.synthBlock).bus = s.bus ∧ (s.synthBlock).oracle = s.oracle ∧
    (s.synthBlock).drawn = s.drawn ∧ (s.synthBlock).sent = s.sent ∧ (s.synthBlock).configured = s.configured ∧
    (s.synthBlock).program = s.program ∧ (s.synthBlock).agenda = s.agenda :=
  ⟨rfl, rfl, rfl, rfl, rfl, rfl, rfl, rfl, rfl, rfl, rfl, rfl, rfl, rfl, rfl, rfl, rfl, rfl,
   rfl, rfl, rfl, rfl, rfl, rfl, rfl, rfl, rfl, rfl, rfl, rfl, rfl, rfl, rfl, rfl, rfl, rfl, rfl, rfl⟩

/-- The phase increment. -/
@[simp] theorem State.setPhaseInc_fields (s : State) :
    (s.setPhaseInc).par = s.par ∧ (s.setPhaseInc).ctrlWrap = s.ctrlWrap ∧ (s.setPhaseInc).fftSize = s.fftSize ∧
    (s.setPhaseInc).sampleRate = s.sampleRate ∧ (s.setPhaseInc).toneA = s.toneA ∧
    (s.setPhaseInc).toneF1 = s.toneF1 ∧ (s.setPhaseInc).toneF2 = s.toneF2 ∧ (s.setPhaseInc).dbFloor = s.dbFloor ∧
    (s.setPhaseInc).phase = s.phase ∧ (s.setPhaseInc).phaseInc = F64.div F64.one s.sampleRate ∧
    (s.setPhaseInc).seq = s.seq ∧ (s.setPhaseInc).err = s.err ∧ (s.setPhaseInc).cancel = s.cancel ∧
    (s.setPhaseInc).txOwn = s.txOwn ∧ (s.setPhaseInc).rxOwn = s.rxOwn ∧ (s.setPhaseInc).planValid = s.planValid ∧
    (s.setPhaseInc).xportOpen = s.xportOpen ∧ (s.setPhaseInc).sinkOpen = s.sinkOpen ∧
    (s.setPhaseInc).cmdErr = s.cmdErr ∧ (s.setPhaseInc).cmdErrCause = s.cmdErrCause ∧
    (s.setPhaseInc).accErr = s.accErr ∧ (s.setPhaseInc).rxCount = s.rxCount ∧ (s.setPhaseInc).txCount = s.txCount ∧
    (s.setPhaseInc).cycleCount = s.cycleCount ∧ (s.setPhaseInc).lastTxBytes = s.lastTxBytes ∧
    (s.setPhaseInc).lastRxBytes = s.lastRxBytes ∧ (s.setPhaseInc).specSeq = s.specSeq ∧
    (s.setPhaseInc).xreq = s.xreq ∧ (s.setPhaseInc).xresp = s.xresp ∧ (s.setPhaseInc).mem = s.mem ∧
    (s.setPhaseInc).ramEpoch = s.ramEpoch ∧ (s.setPhaseInc).bus = s.bus ∧ (s.setPhaseInc).oracle = s.oracle ∧
    (s.setPhaseInc).drawn = s.drawn ∧ (s.setPhaseInc).sent = s.sent ∧ (s.setPhaseInc).configured = s.configured ∧
    (s.setPhaseInc).program = s.program ∧ (s.setPhaseInc).agenda = s.agenda :=
  ⟨rfl, rfl, rfl, rfl, rfl, rfl, rfl, rfl, rfl, rfl, rfl, rfl, rfl, rfl, rfl, rfl, rfl, rfl,
   rfl, rfl, rfl, rfl, rfl, rfl, rfl, rfl, rfl, rfl, rfl, rfl, rfl, rfl, rfl, rfl, rfl, rfl, rfl, rfl⟩

/-- A read of a `poll`. -/
@[simp] theorem State.afterPoll_fields (s : State) (mask value : Word) (rest : List HostOp) :
    (s.afterPoll mask value rest).par = s.par ∧ (s.afterPoll mask value rest).ctrlWrap = s.ctrlWrap ∧
    (s.afterPoll mask value rest).fftSize = s.fftSize ∧ (s.afterPoll mask value rest).sampleRate = s.sampleRate ∧
    (s.afterPoll mask value rest).toneA = s.toneA ∧ (s.afterPoll mask value rest).toneF1 = s.toneF1 ∧
    (s.afterPoll mask value rest).toneF2 = s.toneF2 ∧ (s.afterPoll mask value rest).dbFloor = s.dbFloor ∧
    (s.afterPoll mask value rest).phase = s.phase ∧ (s.afterPoll mask value rest).phaseInc = s.phaseInc ∧
    (s.afterPoll mask value rest).seq = s.seq ∧ (s.afterPoll mask value rest).err = s.err ∧
    (s.afterPoll mask value rest).cancel = s.cancel ∧ (s.afterPoll mask value rest).txOwn = s.txOwn ∧
    (s.afterPoll mask value rest).rxOwn = s.rxOwn ∧ (s.afterPoll mask value rest).planValid = s.planValid ∧
    (s.afterPoll mask value rest).xportOpen = s.xportOpen ∧ (s.afterPoll mask value rest).sinkOpen = s.sinkOpen ∧
    (s.afterPoll mask value rest).cmdErr = s.cmdErr ∧ (s.afterPoll mask value rest).cmdErrCause = s.cmdErrCause ∧
    (s.afterPoll mask value rest).accErr = s.accErr ∧ (s.afterPoll mask value rest).rxCount = s.rxCount ∧
    (s.afterPoll mask value rest).txCount = s.txCount ∧ (s.afterPoll mask value rest).cycleCount = s.cycleCount ∧
    (s.afterPoll mask value rest).lastTxBytes = s.lastTxBytes ∧
    (s.afterPoll mask value rest).lastRxBytes = s.lastRxBytes ∧ (s.afterPoll mask value rest).specSeq = s.specSeq ∧
    (s.afterPoll mask value rest).xreq = s.xreq ∧ (s.afterPoll mask value rest).xresp = s.xresp ∧
    (s.afterPoll mask value rest).mem = s.mem ∧ (s.afterPoll mask value rest).ramEpoch = s.ramEpoch ∧
    (s.afterPoll mask value rest).bus = s.bus ∧ (s.afterPoll mask value rest).oracle = s.oracle ∧
    (s.afterPoll mask value rest).drawn = s.drawn ∧ (s.afterPoll mask value rest).sent = s.sent ∧
    (s.afterPoll mask value rest).configured = s.configured ∧
    (s.afterPoll mask value rest).program = (if s.bus.endsPoll mask value then rest else s.program) ∧
    (s.afterPoll mask value rest).agenda = s.agenda :=
  ⟨rfl, rfl, rfl, rfl, rfl, rfl, rfl, rfl, rfl, rfl, rfl, rfl, rfl, rfl, rfl, rfl, rfl, rfl,
   rfl, rfl, rfl, rfl, rfl, rfl, rfl, rfl, rfl, rfl, rfl, rfl, rfl, rfl, rfl, rfl, rfl, rfl, rfl, rfl⟩

/-- The transport's answer. -/
@[simp] theorem State.answer_fields (s : State) :
    (s.answer).par = s.par ∧ (s.answer).ctrlWrap = s.ctrlWrap ∧ (s.answer).fftSize = s.fftSize ∧
    (s.answer).sampleRate = s.sampleRate ∧ (s.answer).toneA = s.toneA ∧ (s.answer).toneF1 = s.toneF1 ∧
    (s.answer).toneF2 = s.toneF2 ∧ (s.answer).dbFloor = s.dbFloor ∧ (s.answer).phase = s.phase ∧
    (s.answer).phaseInc = s.phaseInc ∧ (s.answer).seq = s.seq ∧ (s.answer).err = s.err ∧
    (s.answer).cancel = s.cancel ∧ (s.answer).txOwn = s.txOwn ∧ (s.answer).rxOwn = s.rxOwn ∧
    (s.answer).planValid = s.planValid ∧ (s.answer).xportOpen = s.xportOpen ∧ (s.answer).sinkOpen = s.sinkOpen ∧
    (s.answer).cmdErr = s.cmdErr ∧ (s.answer).cmdErrCause = s.cmdErrCause ∧ (s.answer).accErr = s.accErr ∧
    (s.answer).rxCount = s.rxCount ∧ (s.answer).txCount = s.txCount ∧ (s.answer).cycleCount = s.cycleCount ∧
    (s.answer).lastTxBytes = s.lastTxBytes ∧ (s.answer).lastRxBytes = s.lastRxBytes ∧
    (s.answer).specSeq = s.specSeq ∧ (s.answer).xreq = .none ∧ (s.answer).xresp = some (s.draw 0) ∧
    (s.answer).mem = s.mem ∧ (s.answer).ramEpoch = s.ramEpoch ∧ (s.answer).bus = s.bus ∧
    (s.answer).oracle = s.oracle.drop 1 ∧ (s.answer).drawn = s.drawn + 1 ∧ (s.answer).sent = s.sent ∧
    (s.answer).configured = s.configured ∧ (s.answer).program = s.program ∧ (s.answer).agenda = s.agenda :=
  ⟨rfl, rfl, rfl, rfl, rfl, rfl, rfl, rfl, rfl, rfl, rfl, rfl, rfl, rfl, rfl, rfl, rfl, rfl,
   rfl, rfl, rfl, rfl, rfl, rfl, rfl, rfl, rfl, rfl, rfl, rfl, rfl, rfl, rfl, rfl, rfl, rfl, rfl, rfl⟩

/-- A configuration write changes configuration registers only. -/
@[simp] theorem State.setConfig_keeps (s : State) (r : ConfigReg) (d : Word) :
    (s.setConfig r d).par = s.par ∧ (s.setConfig r d).phaseInc = s.phaseInc ∧ (s.setConfig r d).seq = s.seq ∧
    (s.setConfig r d).err = s.err ∧ (s.setConfig r d).cancel = s.cancel ∧ (s.setConfig r d).txOwn = s.txOwn ∧
    (s.setConfig r d).rxOwn = s.rxOwn ∧ (s.setConfig r d).planValid = s.planValid ∧
    (s.setConfig r d).xportOpen = s.xportOpen ∧ (s.setConfig r d).sinkOpen = s.sinkOpen ∧
    (s.setConfig r d).cmdErr = s.cmdErr ∧ (s.setConfig r d).cmdErrCause = s.cmdErrCause ∧
    (s.setConfig r d).accErr = s.accErr ∧ (s.setConfig r d).rxCount = s.rxCount ∧
    (s.setConfig r d).txCount = s.txCount ∧ (s.setConfig r d).cycleCount = s.cycleCount ∧
    (s.setConfig r d).lastTxBytes = s.lastTxBytes ∧ (s.setConfig r d).lastRxBytes = s.lastRxBytes ∧
    (s.setConfig r d).specSeq = s.specSeq ∧ (s.setConfig r d).xreq = s.xreq ∧ (s.setConfig r d).xresp = s.xresp ∧
    (s.setConfig r d).mem = s.mem ∧ (s.setConfig r d).ramEpoch = s.ramEpoch ∧ (s.setConfig r d).bus = s.bus ∧
    (s.setConfig r d).oracle = s.oracle ∧ (s.setConfig r d).drawn = s.drawn ∧ (s.setConfig r d).sent = s.sent ∧
    (s.setConfig r d).configured = s.configured ∧ (s.setConfig r d).program = s.program ∧
    (s.setConfig r d).agenda = s.agenda := by
  cases r <;> exact ⟨rfl, rfl, rfl, rfl, rfl, rfl, rfl, rfl, rfl, rfl, rfl, rfl, rfl, rfl, rfl, rfl, rfl, rfl, rfl, rfl, rfl, rfl, rfl, rfl, rfl, rfl, rfl, rfl, rfl, rfl⟩

end Sys2Proof.Machine
end

