-- ==== Sys2Proof/Laws/Ops.lean ====
section
/-! SUPPORT. What each shared operation can do, said once: the requests, the waits, the checks, the bus accesses by their
target. -/

namespace Sys2Proof.Machine

/-! ### Draws -/

/-- After `k` draws the next ones follow on. -/
theorem State.draw_consume (s : State) (k j : Nat) : (s.consume k).draw j = s.draw (k + j) := by
  rw [State.draw, State.draw, State.consume, List.getElem?_drop, Nat.add_assoc]

/-- A draw looks at the oracle and the counter only. -/
theorem State.draw_congr {s t : State} (h1 : t.oracle = s.oracle) (h2 : t.drawn = s.drawn) (k : Nat) :
    t.draw k = s.draw k := by rw [State.draw, State.draw, h1, h2]

/-! ### Requests and waits -/

theorem State.issue_of_empty {s : State} {op : TReq} {p : SeqPos} (h1 : s.xreq = .none) (h2 : s.xresp = none) :
    s.issue op p = .next { s with xreq := op, seq := p } := if_pos ⟨h1, h2⟩

theorem State.issue_of_outstanding {s : State} {op : TReq} {p : SeqPos} (h : ¬ (s.xreq = .none ∧ s.xresp = none)) :
    s.issue op p = .fault .requestOutstanding := if_neg h

/-- The one way `issue` goes on. -/
theorem State.issue_next {s t : State} {op : TReq} {p : SeqPos} :
    s.issue op p = .next t ↔ (s.xreq = .none ∧ s.xresp = none) ∧ t = { s with xreq := op, seq := p } := by
  by_cases h : s.xreq = .none ∧ s.xresp = none
  · rw [State.issue, if_pos h, Host.Outcome.next.injEq]
    exact ⟨fun e => ⟨h, e.symm⟩, fun e => e.2.symm⟩
  · rw [State.issue_of_outstanding h]
    exact ⟨fun e => (nomatch e), fun e => absurd e.1 h⟩

theorem onResponse_some {s : State} {r : Word} {run : Word → State → Res} (h : s.xresp = some r) :
    onResponse s run = run r s := by rw [onResponse, h]

theorem onResponse_none {s : State} {run : Word → State → Res} (h : s.xresp = none) : onResponse s run = .next s := by
  rw [onResponse, h]

/-- The one way a wait goes on: with the response, or not at all. -/
theorem onResponse_next {s t : State} {run : Word → State → Res} (h : onResponse s run = .next t) :
    (s.xresp = none ∧ t = s) ∨ ∃ r, s.xresp = some r ∧ run r s = .next t := by
  cases hx : s.xresp with
  | none =>
    rw [onResponse_none hx] at h
    exact .inl ⟨rfl, (Host.Outcome.next.inj h).symm⟩
  | some r =>
    rw [onResponse_some hx] at h
    exact .inr ⟨r, rfl, h⟩

theorem respNegative_true {r : Word} : respNegative r = true ↔ r.toInt < 0 := by
  rw [respNegative, BitVec.msb_eq_toInt, decide_eq_true_eq]

theorem respNegative_false {r : Word} : respNegative r = false ↔ 0 ≤ r.toInt := by
  rw [respNegative, BitVec.msb_eq_toInt, decide_eq_false_iff_not, Int.not_lt]

/-! ### The checks -/

theorem State.sizeLegal_iff {s : State} :
    s.sizeLegal = true ↔ 1 ≤ s.fftSize.toNat ∧ s.fftSize.toNat ≤ min s.par.nmax s.par.blockLen := by
  rw [State.sizeLegal, Bool.not_eq_true', Bool.or_eq_false_iff, beq_eq_false_iff_ne, decide_eq_false_iff_not, State.n]
  omega

theorem State.rateLegal_iff {s : State} :
    s.rateLegal = true ↔ F64.isFinite s.sampleRate = true ∧ F64.isPos s.sampleRate = true := by
  rw [State.rateLegal, Bool.and_eq_true]

theorem State.tonesLegal_iff {s : State} :
    s.tonesLegal = true ↔
      F64.isFinite s.toneA = true ∧ F64.isFinite s.toneF1 = true ∧ F64.isFinite s.toneF2 = true := by
  rw [State.tonesLegal, Bool.and_eq_true, Bool.and_eq_true, and_assoc]

theorem State.publishing_iff {s : State} : s.publishing = true ↔ s.specSeq.toNat % 2 = 1 := by
  rw [State.publishing, BitVec.getLsbD, Nat.testBit_zero, decide_eq_true_eq]

/-- The publication counter changes its parity at every bump. -/
theorem State.publishing_of_bump {s t : State} (h : t.specSeq = s.specSeq + 1) : t.publishing = !s.publishing := by
  rw [Bool.eq_iff_iff, State.publishing_iff, Bool.not_eq_true', ← Bool.not_eq_true, State.publishing_iff, h,
    BitVec.toNat_add, show (1 : Word).toNat = 1 from rfl]
  omega

/-! ### STATUS and the registers -/

theorem flag_le (b : Bool) : flag b ≤ 1 := by cases b <;> decide

theorem decide_eq_flag {n : Nat} {b : Bool} (h : n = flag b) : decide (n = 1) = b := by subst h; cases b <;> decide

/-- The assembled STATUS loses no bit. -/
theorem State.statusWord_toNat (s : State) : s.statusWord.toNat =
    s.seq.state.code.toNat + 2 ^ 4 * s.seq.sub.toNat + 2 ^ 8 * s.err.code.toNat + 2 ^ 12 * flag s.cancel
    + 2 ^ 13 * flag s.txOwn + 2 ^ 14 * flag s.rxOwn + 2 ^ 15 * flag s.planValid + 2 ^ 16 * flag s.xportOpen
    + 2 ^ 17 * flag s.sinkOpen + 2 ^ 18 * flag s.xbusy + 2 ^ 20 * flag s.cmdErr + 2 ^ 21 * flag s.accErr
    + 2 ^ 24 * s.cmdErrCause.code.toNat := by
  have a1 := s.seq.state.code.isLt
  have a2 := s.seq.sub.isLt
  have a3 := s.err.code.isLt
  have a4 := s.cmdErrCause.code.isLt
  have f1 := flag_le s.cancel
  have f2 := flag_le s.txOwn
  have f3 := flag_le s.rxOwn
  have f4 := flag_le s.planValid
  have f5 := flag_le s.xportOpen
  have f6 := flag_le s.sinkOpen
  have f7 := flag_le s.xbusy
  have f8 := flag_le s.cmdErr
  have f9 := flag_le s.accErr
  rw [State.statusWord, BitVec.toNat_ofNat, Nat.mod_eq_of_lt (by omega)]

/-- What a configuration write changes in the register map. -/
theorem State.readReg_setConfig (s : State) (r : ConfigReg) (d : Word) :
    (s.setConfig r d).readReg r.toReg = (if r = .ctrl then d &&& 1 else d) ∧
    ∀ r' : Reg, r' ≠ r.toReg → (s.setConfig r d).readReg r' = s.readReg r' := by
  constructor
  · cases r <;> try rfl
    show (if d.getLsbD 0 then (1 : Word) else 0) = d &&& 1
    ext i hi
    cases i <;> cases h : d.getLsbD 0 <;> simp_all
  · intro r' hr
    cases r <;> cases r' <;> first | rfl | exact absurd rfl hr

/-! ### Commands -/

/-- A write of a command word runs the instruction the word decodes to. -/
theorem executeCommand_eq (d : Word) (s : State) : executeCommand d s = exec (decodeCmd d) s := by
  rw [executeCommand, decodeCmd]
  cases decodeOp d with
  | none => rfl
  | some op => cases op <;> rfl

theorem State.inIdleElse_idle {s run : State} (h : s.seq = .idle) : s.inIdleElse run = run := if_pos h

theorem State.inIdleElse_other {s run : State} (h : s.seq ≠ .idle) : s.inIdleElse run = s.cmderr .state := if_neg h

/-! ### Targets (R81 to R87) -/

theorem legalTarget_wide (p : Params) (a : Offset) : legalTarget p a 64 = targetOf p a.toNat := if_pos rfl

theorem legalTarget_narrow {p : Params} {a : Offset} {width : Nat} (h : width ≠ 64) : legalTarget p a width = none :=
  if_neg h

/-- The bounds of a target that stands at an offset. -/
def inRange (p : Params) (a : Nat) : Target → Prop
  | .reg _ => a < winBase
  | .win j => j < p.nmax ∧ a < specBase
  | .specFreq k | .specMag k => k < p.nmax ∧ a < rxBase
  | .rxbuf m => m < p.blockLen / 2 ∧ a < txBase
  | .txbuf m => m < p.blockLen / 2 ∧ a < mapEnd

/-- What a target's offset and its bounds are. -/
theorem targetOf_some {p : Params} {a : Nat} {t : Target} (h : targetOf p a = some t) :
    a = t.offset ∧ inRange p a t := by
  unfold targetOf at h
  repeat' split at h
  all_goals first
    | (cases h; simp only [Target.offset, inRange, winBase, specBase, rxBase, txBase, mapEnd] at *; omega)
    | cases h
    | skip
  rename_i h8 hlt
  rw [Option.map_eq_some_iff] at h
  obtain ⟨r, hr, rfl⟩ := h
  exact ⟨(offset_of_regAt hr).symm, hlt⟩

theorem Reg.toNat_offset (r : Reg) : (BitVec.ofNat 28 r.offset).toNat = r.offset := by cases r <;> rfl

theorem targetOf_reg (p : Params) (r : Reg) : targetOf p r.offset = some (.reg r) := by
  have h := regAt_lt (regAt_offset r)
  rw [targetOf, if_neg (by rw [Reg.offset_mod_eight]; decide), if_pos h, regAt_offset, Option.map_some]

theorem targetOf_win {p : Params} {j : Nat} (h : j < p.nmax) (h2 : j < 2 ^ 21) :
    targetOf p (winBase + 8 * j) = some (.win j) := by
  have h3 : (winBase + 8 * j - winBase) / 8 = j := by omega
  rw [targetOf, if_neg (by simp only [winBase]; omega), if_neg (by omega), if_pos (by simp only [winBase, specBase]; omega),
    h3, if_pos h]

theorem targetOf_specFreq {p : Params} {k : Nat} (h : k < p.nmax) (h2 : k < 2 ^ 21) :
    targetOf p (specBase + 16 * k) = some (.specFreq k) := by
  have h3 : (specBase + 16 * k - specBase) / 16 = k := by omega
  rw [targetOf, if_neg (by simp only [specBase]; omega), if_neg (by simp only [winBase, specBase]; omega),
    if_neg (by omega), if_pos (by simp only [rxBase, specBase]; omega), h3, if_pos h,
    if_pos (by simp only [specBase]; omega)]

theorem targetOf_specMag {p : Params} {k : Nat} (h : k < p.nmax) (h2 : k < 2 ^ 21) :
    targetOf p (specBase + 16 * k + 8) = some (.specMag k) := by
  have h3 : (specBase + 16 * k + 8 - specBase) / 16 = k := by omega
  rw [targetOf, if_neg (by simp only [specBase]; omega), if_neg (by simp only [winBase, specBase]; omega),
    if_neg (by omega), if_pos (by simp only [rxBase, specBase]; omega), h3, if_pos h,
    if_neg (by simp only [specBase]; omega)]

theorem targetOf_rxbuf {p : Params} {m : Nat} (h : m < p.blockLen / 2) (h2 : m < 2 ^ 23) :
    targetOf p (rxBase + 8 * m) = some (.rxbuf m) := by
  have h3 : (rxBase + 8 * m - rxBase) / 8 = m := by omega
  rw [targetOf, if_neg (by simp only [rxBase]; omega), if_neg (by simp only [winBase, rxBase]; omega),
    if_neg (by simp only [specBase, rxBase]; omega), if_neg (by omega),
    if_pos (by simp only [rxBase, txBase]; omega), h3, if_pos h]

theorem targetOf_txbuf {p : Params} {m : Nat} (h : m < p.blockLen / 2) (h2 : m < 2 ^ 23) :
    targetOf p (txBase + 8 * m) = some (.txbuf m) := by
  have h3 : (txBase + 8 * m - txBase) / 8 = m := by omega
  rw [targetOf, if_neg (by simp only [txBase]; omega), if_neg (by simp only [winBase, txBase]; omega),
    if_neg (by simp only [specBase, txBase]; omega), if_neg (by simp only [rxBase, txBase]; omega),
    if_neg (by omega), if_pos (by simp only [mapEnd, txBase]; omega), h3, if_pos h]

/-- The target of a 64-bit access to a register's offset. -/
theorem legalTarget_reg (p : Params) (r : Reg) : legalTarget p (BitVec.ofNat 28 r.offset) 64 = some (.reg r) := by
  rw [legalTarget_wide, Reg.toNat_offset, targetOf_reg]

/-- The offsets that hold no word (R81 to R87). -/
theorem targetOf_none {p : Params} {a : Nat} (hp : p.Legal)
    (h : a % 8 ≠ 0 ∨ (0x0A8 ≤ a ∧ a < winBase) ∨ (winBase + 8 * p.nmax ≤ a ∧ a < specBase) ∨
      (specBase + 16 * p.nmax ≤ a ∧ a < rxBase) ∨ (rxBase + 4 * p.blockLen ≤ a ∧ a < txBase) ∨
      txBase + 4 * p.blockLen ≤ a) : targetOf p a = none := by
  cases ht : targetOf p a with
  | none => rfl
  | some t =>
    exfalso
    obtain ⟨he, hb⟩ := targetOf_some ht
    obtain ⟨h1, h2, h3, h4, h5, h6, h7⟩ := hp
    cases t <;> simp only [Target.offset, inRange, winBase, specBase, rxBase, txBase] at he hb h
    · rename_i r
      have hr : r.offset ≤ 0x0A0 := by cases r <;> decide
      have h8 := Reg.offset_mod_eight r
      omega
    all_goals omega

/-! ### Host accesses by their target -/

theorem execRd_of_target {s : State} {a : Offset} {width : Nat} {t : Target} (h : legalTarget s.par a width = some t) :
    execRd a width s =
      if s.readIsDraw t then .next ((s.consume 1).respond (.data (s.draw 0))) else .next (s.respond (.data (s.valueAt t))) := by
  rw [execRd, h]

theorem execRd_illegal {s : State} {a : Offset} {width : Nat} (h : legalTarget s.par a width = none) :
    execRd a width s = .next (s.respond .err) := by rw [execRd, h]

theorem execWr_illegal {s : State} {a : Offset} {width : Nat} {d : Word} (h : legalTarget s.par a width = none) :
    execWr a width d s = .next (s.respond .err) := by rw [execWr, h]

/-- The class of a write is the class of its target: WR does at every offset what the row the decoder names does there. -/
theorem execWr_eq_decodeBus (a : Offset) (width : Nat) (d : Word) (s : State) :
    execWr a width d s = exec (decodeBus (.write a width d)) s := by
  rw [decodeBus]
  by_cases hw : width = 64
  case neg =>
    have : writeClass a width = .other := if_pos (.inl hw)
    rw [this]
    rfl
  subst hw
  by_cases h8 : a.toNat % 8 = 0
  case neg =>
    have : writeClass a 64 = .other := if_pos (.inr h8)
    rw [this]
    rfl
  rw [writeClass, if_neg (by simp [h8])]
  by_cases h1 : a.toNat < winBase
  · rw [if_pos h1]
    cases hr : regAt a.toNat with
    | none => rfl
    | some r =>
      have ht : legalTarget s.par a 64 = some (.reg r) := by
        rw [legalTarget_wide, targetOf, if_neg (by simp [h8]), if_pos h1, hr, Option.map_some]
      cases r <;> simp only [Reg.config?, execWr, ht]
      case cmd => exact executeCommand_eq d s
      all_goals first | rfl | simp only [exec, execWr, ht, Reg.config?]
  rw [if_neg h1]
  by_cases h2 : a.toNat < specBase
  · rw [if_pos h2]
    have hj : (BitVec.ofNat 21 ((a.toNat - winBase) / 8)).toNat = (a.toNat - winBase) / 8 := by
      rw [BitVec.toNat_ofNat]
      simp only [winBase, specBase] at *
      omega
    have ho : RamWord.offset (.win (BitVec.ofNat 21 ((a.toNat - winBase) / 8))) = winAddr ((a.toNat - winBase) / 8) := by
      rw [RamWord.offset, hj, winAddr]
    have hl : legalTarget s.par a 64 =
        if (a.toNat - winBase) / 8 < s.par.nmax then some (.win ((a.toNat - winBase) / 8)) else none := by
      rw [legalTarget_wide, targetOf, if_neg (by simp [h8]), if_neg h1, if_pos h2]
    simp only [exec, execWrRam, State.ramWordExists, hj, ho]
    by_cases hb : (a.toNat - winBase) / 8 < s.par.nmax
    · rw [if_pos hb] at hl
      simp only [execWr, hl, hb, decide_true, if_true]
    · rw [if_neg hb] at hl
      simp [execWr, hl, hb]
  rw [if_neg h2]
  by_cases h3 : rxBase ≤ a.toNat ∧ a.toNat < txBase
  case neg =>
    rw [if_neg h3]
    rfl
  rw [if_pos h3]
  have hm : (BitVec.ofNat 23 ((a.toNat - rxBase) / 8)).toNat = (a.toNat - rxBase) / 8 := by
    rw [BitVec.toNat_ofNat]
    simp only [rxBase, txBase] at *
    omega
  have ho : RamWord.offset (.rxbuf (BitVec.ofNat 23 ((a.toNat - rxBase) / 8))) = rxBase + 8 * ((a.toNat - rxBase) / 8) := by
    rw [RamWord.offset, hm]
  have hl : legalTarget s.par a 64 =
      if (a.toNat - rxBase) / 8 < s.par.blockLen / 2 then some (.rxbuf ((a.toNat - rxBase) / 8)) else none := by
    rw [legalTarget_wide, targetOf, if_neg (by simp [h8]), if_neg h1, if_neg h2, if_neg (by omega), if_pos h3.2]
  simp only [exec, execWrRam, State.ramWordExists, hm, ho]
  by_cases hb : (a.toNat - rxBase) / 8 < s.par.blockLen / 2
  · rw [if_pos hb] at hl
    simp only [execWr, hl, hb, decide_true, if_true]
  · rw [if_neg hb] at hl
    simp [execWr, hl, hb]

end Sys2Proof.Machine
end

