-- ==== Sys2Proof/Laws/PerInstr.lean ====
section
/-! SUPPORT. Statements about every instruction as syntax, one lemma per constructor. `RoundTrip`: decoding the encoding of
a well-formed instruction gives it back. -/

namespace Sys2Proof.Laws.RoundTrip

/-- Decoding the packet that carries a well-formed instruction gives the instruction back. -/
def Statement (i : Instr) : Prop := i.wellFormed = true → decode (encode i) = .ok i

/-- A write of a word to CMD is decoded as that command word. -/
theorem decode_writeCmd (w : Word) : decode (.bus (writeReg .cmd w)) = .ok (decodeCmd w) := by
  simp only [decode, writeReg, decodeBus, writeClass_command]

theorem nop : Statement .nop := fun _ => by rw [encode, decode_writeCmd]; rfl
theorem start : Statement .start := fun _ => by rw [encode, decode_writeCmd]; rfl
theorem cancel : Statement .cancel := fun _ => by rw [encode, decode_writeCmd]; rfl
theorem wgen : Statement .wgen := fun _ => by rw [encode, decode_writeCmd]; rfl
theorem analyze : Statement .analyze := fun _ => by rw [encode, decode_writeCmd]; rfl
theorem synth : Statement .synth := fun _ => by rw [encode, decode_writeCmd]; rfl

theorem reservedCmd (w : Word) : Statement (.reservedCmd w) := by
  intro h
  rw [Instr.wellFormed, Bool.not_eq_true'] at h
  rw [encode, decode_writeCmd, decodeCmd_reserved h]

theorem rd (a : Offset) (width : Nat) : Statement (.rd a width) := fun _ => rfl

theorem wr (a : Offset) (width : Nat) (d : Word) : Statement (.wr a width d) := by
  intro h
  rw [Instr.wellFormed, beq_iff_eq] at h
  simp only [encode, decode, decodeBus, h]

theorem wrStatus (d : Word) : Statement (.wrStatus d) := by
  intro _
  simp only [encode, decode, writeReg, decodeBus, writeClass_status]

theorem wrConfig (r : ConfigReg) (d : Word) : Statement (.wrConfig r d) := by
  intro _
  simp only [encode, decode, writeReg, decodeBus, writeClass_config]

theorem wrRam (t : RamWord) (d : Word) : Statement (.wrRam t d) := by
  intro _
  simp only [encode, decode, decodeBus, writeClass_ram]

theorem treqConfigure : Statement .treqConfigure := fun _ => rfl
theorem treqPush : Statement .treqPush := fun _ => rfl
theorem treqRefill : Statement .treqRefill := fun _ => rfl
theorem treqReleaseTx : Statement .treqReleaseTx := fun _ => rfl
theorem treqReleaseRx : Statement .treqReleaseRx := fun _ => rfl
theorem treqClose : Statement .treqClose := fun _ => rfl

end Sys2Proof.Laws.RoundTrip
end

