-- ==== Sys2Proof/Laws/Steps.lean ====
section
/-! SUPPORT. Everything the turn of each agent can do, said once: `HostEffect`, `SeqEffect` and `XportEffect` list the
outcomes with their guards, and a proof about every step is a case analysis over them. -/

namespace Sys2Proof.Machine

/-! ### HOST -/

/-- The offsets a host write can store a word at: an entry of WIN or a word of RXBUF that exists (R165, R82, R83). -/
def storable (p : Params) (a : Nat) : Prop :=
  (winBase ≤ a ∧ a + 8 ≤ winBase + 8 * p.nmax ∧ a + 8 ≤ specBase) ∨
  (rxBase ≤ a ∧ a + 8 ≤ rxBase + 4 * p.blockLen ∧ a + 8 ≤ txBase)

/-- What a bus transaction can do. -/
inductive HostEffect (b : BusAccess) (s : State) : State → Prop
  | answered (r : BusResp) : HostEffect b s (s.respond r)
  | drew : HostEffect b s ((s.consume 1).respond (.data (s.draw 0)))
  | rejected (c : CmdCause) (h : c ≠ .none) : HostEffect b s ((s.cmderr c).respond .ack)
  | refused : HostEffect b s (s.accerr.respond .ack)
  | cleared (d : Word) : HostEffect b s ((s.statusW1C d).respond .ack)
  | configured (r : ConfigReg) (d : Word) (h : s.seq = .idle) : HostEffect b s ((s.setConfig r d).respond .ack)
  | stored (a : Nat) (d : Word) (h : s.seq = .idle) (ha : storable s.par a) :
    HostEffect b s (State.respond { s with mem := s.mem.writeWord a d } .ack)
  | started (hb : decodeBus b = .start) (h : s.seq = .idle) :
    HostEffect b s (State.respond { s with cancel := false, err := .none, seq := .initCheck } .ack)
  | cancelled (hb : decodeBus b = .cancel) : HostEffect b s (State.respond { s with cancel := true } .ack)
  | wgen (h : s.seq = .idle) (hn : 2 ≤ s.n) (hm : s.n ≤ s.par.nmax) : HostEffect b s ((s.goto .diagWgen).respond .ack)
  | analyze (hb : decodeBus b = .analyze) (h : s.seq = .idle) (hs : s.sizeLegal = true) (hr : s.rateLegal = true) :
    HostEffect b s ((s.bumpSpecSeq.goto .diagAnalyze).respond .ack)
  | synth (h : s.seq = .idle) (hr : s.rateLegal = true) (ht : s.tonesLegal = true) :
    HostEffect b s ((s.goto .diagSynth).respond .ack)

theorem storable_win {p : Params} {j : BitVec 21} (h : j.toNat < p.nmax) : storable p (winBase + 8 * j.toNat) := by
  have := j.isLt
  simp only [storable, winBase, specBase, rxBase, txBase]
  omega

theorem storable_rxbuf {p : Params} {m : BitVec 23} (h : m.toNat < p.blockLen / 2) :
    storable p (rxBase + 8 * m.toNat) := by
  have := m.isLt
  simp only [storable, winBase, specBase, rxBase, txBase]
  omega

theorem execRd_effect (b : BusAccess) (a : Offset) (width : Nat) (s : State) :
    ∃ t, execRd a width s = .next t ∧ HostEffect b s t := by
  cases h : legalTarget s.par a width with
  | none => exact ⟨_, execRd_illegal h, .answered _⟩
  | some t =>
    rw [execRd_of_target h]
    cases s.readIsDraw t with
    | true => exact ⟨_, if_pos rfl, .drew⟩
    | false => exact ⟨_, if_neg Bool.false_ne_true, .answered _⟩

theorem execWrConfig_effect (b : BusAccess) (r : ConfigReg) (d : Word) (s : State) :
    ∃ t, execWrConfig r d s = .next t ∧ HostEffect b s t := by
  refine ⟨_, rfl, ?_⟩
  split
  · exact .configured r d ‹_›
  · exact .refused

theorem execWrRam_effect (b : BusAccess) (w : RamWord) (d : Word) (s : State) :
    ∃ t, execWrRam w d s = .next t ∧ HostEffect b s t := by
  cases h : s.ramWordExists w with
  | false => exact ⟨_, by rw [execWrRam, h]; exact if_neg Bool.false_ne_true, .answered _⟩
  | true =>
    refine ⟨_, by rw [execWrRam, h]; exact if_pos rfl, ?_⟩
    rw [State.ramWrite]
    split
    · refine .stored _ d ‹_› ?_
      cases w with
      | win j => exact storable_win (of_decide_eq_true h)
      | rxbuf m => exact storable_rxbuf (of_decide_eq_true h)
    · exact .refused

/-- A write that no other row of the opcode table names is a bus error or refused. -/
theorem execWr_other {a : Offset} {width : Nat} (h : writeClass a width = .other) (d : Word) (s : State) :
    execWr a width d s = .next (s.respond .err) ∨ execWr a width d s = .next (s.accerr.respond .ack) := by
  cases ht : legalTarget s.par a width with
  | none => exact .inl (execWr_illegal ht)
  | some t =>
    have hw : width = 64 := by
      by_contra hc
      rw [legalTarget_narrow hc] at ht
      cases ht
    subst hw
    rw [legalTarget_wide] at ht
    obtain ⟨he, hr⟩ := targetOf_some ht
    have h8 : a.toNat % 8 = 0 := by
      by_contra hc
      rw [targetOf, if_pos hc] at ht
      cases ht
    cases t with
    | reg r =>
      refine .inr ?_
      have hn : regAt a.toNat = some r := by rw [he]; exact regAt_offset r
      have hlt : a.toNat < winBase := hr
      rw [writeClass, if_neg (by simp [h8]), if_pos hlt, hn] at h
      simp only [execWr, legalTarget_wide, ht]
      cases r <;> first | rfl | (simp only [Reg.config?] at h; cases h)
    | win j =>
      exfalso
      have h1 : winBase ≤ a.toNat := by rw [he]; exact Nat.le_add_right _ _
      rw [writeClass_win h8 h1 hr.2] at h
      cases h
    | rxbuf m =>
      exfalso
      have h1 : rxBase ≤ a.toNat := by rw [he]; exact Nat.le_add_right _ _
      rw [writeClass_rxbuf h8 h1 hr.2] at h
      cases h
    | specFreq k => exact .inr (by simp only [execWr, legalTarget_wide, ht])
    | specMag k => exact .inr (by simp only [execWr, legalTarget_wide, ht])
    | txbuf m => exact .inr (by simp only [execWr, legalTarget_wide, ht])

/-- A command word written to CMD. -/
theorem decodeCmd_effect {b : BusAccess} {w : Word} (hb : decodeBus b = decodeCmd w) (s : State) :
    ∃ t, exec (decodeCmd w) s = .next t ∧ HostEffect b s t := by
  have hstate : HostEffect b s ((s.cmderr .state).respond .ack) := .rejected _ (by decide)
  cases ho : decodeOp w with
  | none =>
    have hd : decodeCmd w = .reservedCmd w := by rw [decodeCmd, ho]
    rw [hd]
    exact ⟨_, rfl, .rejected _ (by decide)⟩
  | some op =>
    have hd : decodeCmd w = decodeCmd op.word := by rw [eq_word_of_decodeOp ho]
    rw [hd] at hb ⊢
    by_cases hi : s.seq = .idle
    · cases op with
      | nop => exact ⟨_, rfl, .answered _⟩
      | start => exact ⟨_, by simp only [decodeCmd, decodeOp_word, exec, execStart, State.inIdleElse_idle hi],
          .started hb hi⟩
      | cancel => exact ⟨_, rfl, .cancelled hb⟩
      | wgen =>
        refine ⟨_, by simp only [decodeCmd, decodeOp_word, exec, execWgen, State.inIdleElse_idle hi]; rfl, ?_⟩
        split
        · exact .rejected _ (by decide)
        split
        · exact .rejected _ (by decide)
        · exact .wgen hi (by omega) (by omega)
      | analyze =>
        refine ⟨_, by simp only [decodeCmd, decodeOp_word, exec, execAnalyze, State.inIdleElse_idle hi]; rfl, ?_⟩
        split
        · rename_i h
          rw [Bool.and_eq_true] at h
          exact .analyze hb hi h.1 h.2
        · exact .rejected _ (by decide)
      | synth =>
        refine ⟨_, by simp only [decodeCmd, decodeOp_word, exec, execSynth, State.inIdleElse_idle hi]; rfl, ?_⟩
        split
        · rename_i h
          rw [Bool.and_eq_true] at h
          exact .synth hi h.1 h.2
        · exact .rejected _ (by decide)
    · cases op with
      | nop => exact ⟨_, rfl, .answered _⟩
      | cancel => exact ⟨_, rfl, .cancelled hb⟩
      | start | wgen | analyze | synth =>
        exact ⟨_, by simp only [decodeCmd, decodeOp_word, exec, execStart, execWgen, execAnalyze, execSynth,
          State.inIdleElse_other hi], hstate⟩

/-- A bus transaction always ends in a next state, one of those of `HostEffect`. -/
theorem exec_bus_effect (b : BusAccess) (s : State) : ∃ t, exec (decodeBus b) s = .next t ∧ HostEffect b s t := by
  cases b with
  | read a width => exact execRd_effect _ a width s
  | write a width d =>
    cases hc : writeClass a width with
    | command =>
      have hd : decodeBus (.write a width d) = decodeCmd d := by rw [decodeBus, hc]
      rw [hd]
      exact decodeCmd_effect hd s
    | status =>
      rw [show decodeBus (.write a width d) = .wrStatus d by rw [decodeBus, hc]]
      exact ⟨_, rfl, .cleared d⟩
    | config r =>
      rw [show decodeBus (.write a width d) = .wrConfig r d by rw [decodeBus, hc]]
      exact execWrConfig_effect _ r d s
    | ram t =>
      rw [show decodeBus (.write a width d) = .wrRam t d by rw [decodeBus, hc]]
      exact execWrRam_effect _ t d s
    | other =>
      rw [show decodeBus (.write a width d) = .wr a width d by rw [decodeBus, hc]]
      rcases execWr_other hc d s with h | h
      · exact ⟨_, h, .answered _⟩
      · exact ⟨_, h, .refused⟩

/-- What a read can do: its answer, a draw among them. -/
inductive ReadEffect (s : State) : State → Prop
  | answered (r : BusResp) : ReadEffect s (s.respond r)
  | drew : ReadEffect s ((s.consume 1).respond (.data (s.draw 0)))

theorem exec_read_effect (a : Offset) (width : Nat) (s : State) :
    ∃ t, exec (decodeBus (.read a width)) s = .next t ∧ ReadEffect s t := by
  cases h : legalTarget s.par a width with
  | none => exact ⟨_, execRd_illegal h, .answered _⟩
  | some t =>
    have e := execRd_of_target h
    cases hd : s.readIsDraw t with
    | true => exact ⟨_, e.trans (if_pos hd), .drew⟩
    | false => exact ⟨_, e.trans (if_neg (hd ▸ Bool.false_ne_true)), .answered _⟩

/-- What HOST's turn can do. -/
inductive HostTurnEffect (s : State) : State → Prop
  | nothing (h : s.program = []) : HostTurnEffect s s
  | access (b : BusAccess) (rest : List HostOp) (h : s.program = .access b :: rest) (t : State)
    (ht : HostEffect b { s with program := rest } t) : HostTurnEffect s t
  | poll (a : Offset) (mask value : Word) (rest : List HostOp) (h : s.program = .poll a mask value :: rest) (t : State)
    (ht : ReadEffect s t) : HostTurnEffect s (t.afterPoll mask value rest)

theorem hostTurn_done {s : State} (h : s.program = []) : hostTurn s = .next s := by rw [hostTurn, h]

theorem hostTurn_access {s : State} {b : BusAccess} {rest : List HostOp} (h : s.program = .access b :: rest) :
    hostTurn s = exec (decodeBus b) { s with program := rest } := by rw [hostTurn, h]

theorem hostTurn_poll {s t : State} {a : Offset} {mask value : Word} {rest : List HostOp}
    (h : s.program = .poll a mask value :: rest) (ht : exec (decodeBus (.read a 64)) s = .next t) :
    hostTurn s = .next (t.afterPoll mask value rest) := by simp only [hostTurn, h, ht]

/-- What ends a `poll` (R134). -/
theorem BusResp.endsPoll_iff {r : BusResp} {mask value : Word} :
    r.endsPoll mask value = true ↔ ∃ v, r = .data v ∧ v &&& mask = value := by
  cases r <;> simp [BusResp.endsPoll, pollDone]

/-- HOST's turn always ends in a next state, one of those of `HostTurnEffect`. -/
theorem hostTurn_effect (s : State) : ∃ t, hostTurn s = .next t ∧ HostTurnEffect s t := by
  match h : s.program with
  | [] => exact ⟨s, hostTurn_done h, .nothing h⟩
  | .access b :: rest =>
    obtain ⟨t, h1, h2⟩ := exec_bus_effect b { s with program := rest }
    exact ⟨t, (hostTurn_access h).trans h1, .access b rest h t h2⟩
  | .poll a mask value :: rest =>
    obtain ⟨t, h1, h2⟩ := exec_read_effect a 64 s
    exact ⟨_, hostTurn_poll h h1, .poll a mask value rest h t h2⟩

/-! ### XPORT -/

theorem xportTurn_none {s : State} (h : s.xreq = .none) : xportTurn s = .next s := by rw [xportTurn, h]; rfl

theorem xportTurn_configure {s : State} (h : s.xreq = .configure) :
    xportTurn s = .next { s.answer with configured := some Config.streamCfg } := by rw [xportTurn, h]; rfl

theorem xportTurn_push {s : State} (h : s.xreq = .push) :
    xportTurn s = .next { s.answer with sent := (List.range s.par.blockLen).map s.txbuf } := by rw [xportTurn, h]; rfl

theorem xportTurn_refill {s : State} (h : s.xreq = .refill) :
    xportTurn s = .next { s.consume (1 + s.par.blockLen) with
      mem := s.mem.fillRx s.refilled s.par.blockLen
      xresp := some (s.draw 0)
      xreq := .none } := by rw [xportTurn, h]; rfl

theorem xportTurn_release {s : State} (h : s.xreq = .releaseTx ∨ s.xreq = .releaseRx ∨ s.xreq = .close) :
    xportTurn s = .next s.answer := by rcases h with h | h | h <;> (rw [xportTurn, h]; rfl)

/-- What the transport's turn can do. -/
inductive XportEffect (s : State) : State → Prop
  | nothing (h : s.xreq = .none) : XportEffect s s
  | answered (h : s.xreq = .releaseTx ∨ s.xreq = .releaseRx ∨ s.xreq = .close) : XportEffect s s.answer
  | configured (h : s.xreq = .configure) : XportEffect s { s.answer with configured := some Config.streamCfg }
  | pushed (h : s.xreq = .push) :
    XportEffect s { s.answer with sent := (List.range s.par.blockLen).map s.txbuf }
  | refilled (h : s.xreq = .refill) :
    XportEffect s { s.consume (1 + s.par.blockLen) with
      mem := s.mem.fillRx s.refilled s.par.blockLen
      xresp := some (s.draw 0)
      xreq := .none }

/-- XPORT's turn always ends in a next state, one of those of `XportEffect`. -/
theorem xportTurn_effect (s : State) : ∃ t, xportTurn s = .next t ∧ XportEffect s t := by
  cases h : s.xreq with
  | none => exact ⟨_, xportTurn_none h, .nothing h⟩
  | configure => exact ⟨_, xportTurn_configure h, .configured h⟩
  | push => exact ⟨_, xportTurn_push h, .pushed h⟩
  | refill => exact ⟨_, xportTurn_refill h, .refilled h⟩
  | releaseTx => exact ⟨_, xportTurn_release (.inl h), .answered (.inl h)⟩
  | releaseRx => exact ⟨_, xportTurn_release (.inr (.inl h)), .answered (.inr (.inl h))⟩
  | close => exact ⟨_, xportTurn_release (.inr (.inr h)), .answered (.inr (.inr h))⟩

/-! ### SEQ -/

/-! The pending step of each position. -/

theorem seqTurn_rests {s : State} (h : s.seq = .idle ∨ s.seq = .terminated) : seqTurn s = .next s := by
  rcases h with h | h <;> rw [seqTurn, h]

theorem seqTurn_initCheck {s : State} (h : s.seq = .initCheck) : seqTurn s = seqInitCheck s := by rw [seqTurn, h]

theorem seqTurn_initCfgWait {s : State} (h : s.seq = .initCfgWait) : seqTurn s = onResponse s seqInitCfgWait := by rw [seqTurn, h]

theorem seqTurn_initBuild {s : State} (h : s.seq = .initBuild) : seqTurn s = seqInitBuild s := by rw [seqTurn, h]

theorem seqTurn_strCk {s : State} (h : s.seq = .strCk) : seqTurn s = seqStrCk s := by rw [seqTurn, h]

theorem seqTurn_strPushWait {s : State} (h : s.seq = .strPushWait) : seqTurn s = onResponse s seqStrPushWait := by rw [seqTurn, h]

theorem seqTurn_strRefillWait {s : State} (h : s.seq = .strRefillWait) : seqTurn s = onResponse s seqStrRefillWait := by rw [seqTurn, h]

theorem seqTurn_strAnalyze {s : State} (h : s.seq = .strAnalyze) : seqTurn s = seqStrAnalyze s := by rw [seqTurn, h]

theorem seqTurn_strCount {s : State} (h : s.seq = .strCount) : seqTurn s = seqStrCount s := by rw [seqTurn, h]

theorem seqTurn_strSynth {s : State} (h : s.seq = .strSynth) : seqTurn s = seqStrSynth s := by rw [seqTurn, h]

theorem seqTurn_sdReleaseLocal {s : State} (h : s.seq = .sdReleaseLocal) : seqTurn s = seqSdReleaseLocal s := by rw [seqTurn, h]

theorem seqTurn_sdRelTxWait {s : State} (h : s.seq = .sdRelTxWait) : seqTurn s = onResponse s fun _ => seqSdRelTxWait := by rw [seqTurn, h]

theorem seqTurn_sdRelRxWait {s : State} (h : s.seq = .sdRelRxWait) : seqTurn s = onResponse s fun _ => seqSdRelRxWait := by rw [seqTurn, h]

theorem seqTurn_sdCloseWait {s : State} (h : s.seq = .sdCloseWait) : seqTurn s = onResponse s fun _ => seqSdCloseWait := by rw [seqTurn, h]

theorem seqTurn_diagWgen {s : State} (h : s.seq = .diagWgen) : seqTurn s = seqDiagWgen s := by rw [seqTurn, h]

theorem seqTurn_diagAnalyze {s : State} (h : s.seq = .diagAnalyze) : seqTurn s = seqDiagAnalyze s := by rw [seqTurn, h]

theorem seqTurn_diagSynth {s : State} (h : s.seq = .diagSynth) : seqTurn s = seqDiagSynth s := by rw [seqTurn, h]

/-- What the sequencer's turn can do where it goes on. -/
inductive SeqEffect (s : State) : State → Prop
  | rests (h : s.seq = .idle ∨ s.seq = .terminated) : SeqEffect s s
  | waits (h : s.seq.awaits ≠ .none) (hx : s.xresp = none) : SeqEffect s s
  | checkFails (h : s.seq = .initCheck) : SeqEffect s (s.raise .configuration)
  | checked (h : s.seq = .initCheck) (hp : s.xreq = .none ∧ s.xresp = none)
    (hc : s.sizeLegal = true ∧ s.rateLegal = true ∧ s.tonesLegal = true) :
    SeqEffect s { s with xreq := .configure, seq := .initCfgWait }
  | configureFails (r : Word) (h : s.seq = .initCfgWait) (hx : s.xresp = some r) (hr : respNegative r = true) :
    SeqEffect s (State.raise { s with xresp := none } .configuration)
  | configured (r : Word) (h : s.seq = .initCfgWait) (hx : s.xresp = some r) (hr : respNegative r = false) :
    SeqEffect s { s with xresp := none, xportOpen := true, seq := .initBuild }
  | dividesByZero (h : s.seq = .initBuild) (hn : s.n < 2) : SeqEffect s (s.raise .divideByZero)
  | built (h : s.seq = .initBuild) (hn : 2 ≤ s.n) : SeqEffect s s.build
  | cancelled (h : s.seq = .strCk) (hc : s.cancel = true) : SeqEffect s (s.goto .sdReleaseLocal)
  | pushes (h : s.seq = .strCk) (hc : s.cancel = false) (hp : s.xreq = .none ∧ s.xresp = none) :
    SeqEffect s { s with txOwn := true, xreq := .push, seq := .strPushWait }
  | pushFails (r : Word) (h : s.seq = .strPushWait) (hx : s.xresp = some r) (hr : respNegative r = true) :
    SeqEffect s (State.raise { s with xresp := none, txOwn := false, lastTxBytes := r } .transportWrite)
  | refills (r : Word) (h : s.seq = .strPushWait) (hx : s.xresp = some r) (hr : respNegative r = false)
    (hp : s.xreq = .none) :
    SeqEffect s { s with
      xresp := none, txOwn := false, lastTxBytes := r, rxOwn := true, xreq := .refill, seq := .strRefillWait }
  | refillFails (r : Word) (h : s.seq = .strRefillWait) (hx : s.xresp = some r) (hr : respNegative r = true) :
    SeqEffect s (State.raise { s with xresp := none, rxOwn := false, lastRxBytes := r } .transportRead)
  | publishes (r : Word) (h : s.seq = .strRefillWait) (hx : s.xresp = some r) (hr : respNegative r = false) :
    SeqEffect s { s.bumpSpecSeq with xresp := none, rxOwn := false, lastRxBytes := r, seq := .strAnalyze }
  | analyzes (h : s.seq = .strAnalyze) : SeqEffect s (s.spectrumFn.bumpSpecSeq.goto .strCount)
  | counts (h : s.seq = .strCount) :
    SeqEffect s { s with
      rxCount := s.rxCount + s.samplesOf s.lastRxBytes
      txCount := s.txCount + s.samplesOf s.lastTxBytes
      cycleCount := s.cycleCount + 1
      seq := .strSynth }
  | synthesizes (h : s.seq = .strSynth) : SeqEffect s (s.synthBlock.goto .strCk)
  | releases (h : s.seq = .sdReleaseLocal) (ho : s.xportOpen = true) (hp : s.xreq = .none ∧ s.xresp = none) :
    SeqEffect s { s with planValid := false, sinkOpen := false, xreq := .releaseTx, seq := .sdRelTxWait }
  | releasesLocal (h : s.seq = .sdReleaseLocal) (ho : s.xportOpen = false) :
    SeqEffect s { s with planValid := false, sinkOpen := false, seq := .terminated }
  | releasedTx (r : Word) (h : s.seq = .sdRelTxWait) (hx : s.xresp = some r) (hp : s.xreq = .none) :
    SeqEffect s { s with xresp := none, xreq := .releaseRx, seq := .sdRelRxWait }
  | releasedRx (r : Word) (h : s.seq = .sdRelRxWait) (hx : s.xresp = some r) (hp : s.xreq = .none) :
    SeqEffect s { s with xresp := none, xreq := .close, seq := .sdCloseWait }
  | closed (r : Word) (h : s.seq = .sdCloseWait) (hx : s.xresp = some r) :
    SeqEffect s { s with xresp := none, xportOpen := false, seq := .terminated }
  | diagWindow (h : s.seq = .diagWgen) : SeqEffect s (s.buildWindow.goto .idle)
  | diagSpectrum (h : s.seq = .diagAnalyze) : SeqEffect s (s.spectrumFn.bumpSpecSeq.goto .idle)
  | diagBlock (h : s.seq = .diagSynth) : SeqEffect s (s.setPhaseInc.synthBlock.goto .idle)

/-- The steps that issue a request (R265, R268, R269, R277 to R279). -/
def issuingSteps : List SeqPos := [.initCheck, .strCk, .strPushWait, .sdReleaseLocal, .sdRelTxWait, .sdRelRxWait]

/-- SEQ's turn goes on to a state of `SeqEffect`, or would issue a second request while one is outstanding. -/
theorem seqTurn_effect (s : State) :
    (∃ t, seqTurn s = .next t ∧ SeqEffect s t) ∨
      (seqTurn s = .fault .requestOutstanding ∧ s.seq ∈ issuingSteps ∧ (s.seq.awaits ≠ .none → s.xresp ≠ none) ∧
        (s.xreq ≠ .none ∨ (s.seq.awaits = .none ∧ s.xresp ≠ none))) := by
  have wait : ∀ run : Word → State → Res, seqTurn s = onResponse s run → s.seq.awaits ≠ .none → s.xresp = none →
      (∃ t, seqTurn s = .next t ∧ SeqEffect s t) := by
    intro run h1 h2 h3
    exact ⟨s, by rw [h1, onResponse_none h3], .waits h2 h3⟩
  have port : ¬ (s.xreq = .none ∧ s.xresp = none) → s.xreq ≠ .none ∨ (TReq.none = .none ∧ s.xresp ≠ none) := by
    intro hp
    by_cases h1 : s.xreq = .none
    · exact .inr ⟨rfl, fun h2 => hp ⟨h1, h2⟩⟩
    · exact .inl h1
  cases h : s.seq with
  | idle => exact .inl ⟨s, seqTurn_rests (.inl h), .rests (.inl h)⟩
  | terminated => exact .inl ⟨s, seqTurn_rests (.inr h), .rests (.inr h)⟩
  | initCheck =>
    have e := seqTurn_initCheck h
    rw [e, seqInitCheck]
    split
    · rename_i hc
      rw [Bool.and_eq_true, Bool.and_eq_true, and_assoc] at hc
      by_cases hp : s.xreq = .none ∧ s.xresp = none
      · exact .inl ⟨_, State.issue_of_empty hp.1 hp.2, .checked h hp hc⟩
      · exact .inr ⟨State.issue_of_outstanding hp, by decide, fun hn => absurd rfl hn, port hp⟩
    · exact .inl ⟨_, rfl, .checkFails h⟩
  | initCfgWait =>
    have e := seqTurn_initCfgWait h
    cases hx : s.xresp with
    | none => exact .inl (wait _ e (by rw [h]; decide) hx)
    | some r =>
      rw [e, onResponse_some hx]
      refine .inl ⟨_, rfl, ?_⟩
      cases hr : respNegative r with
      | true => exact .configureFails r h hx hr
      | false => exact .configured r h hx hr
  | initBuild =>
    have e := seqTurn_initBuild h
    rw [e]
    refine .inl ⟨_, rfl, ?_⟩
    split
    · exact .dividesByZero h ‹_›
    · exact .built h (by omega)
  | strCk =>
    have e := seqTurn_strCk h
    rw [e, seqStrCk]
    split
    · exact .inl ⟨_, rfl, .cancelled h ‹_›⟩
    · rename_i hc
      rw [Bool.not_eq_true] at hc
      by_cases hp : s.xreq = .none ∧ s.xresp = none
      · exact .inl ⟨_, State.issue_of_empty hp.1 hp.2, .pushes h hc hp⟩
      · exact .inr ⟨State.issue_of_outstanding hp, by decide, fun hn => absurd rfl hn, port hp⟩
  | strPushWait =>
    have e := seqTurn_strPushWait h
    cases hx : s.xresp with
    | none => exact .inl (wait _ e (by rw [h]; decide) hx)
    | some r =>
      rw [e, onResponse_some hx, seqStrPushWait]
      cases hr : respNegative r with
      | true => exact .inl ⟨_, if_pos rfl, .pushFails r h hx hr⟩
      | false =>
        rw [if_neg Bool.false_ne_true]
        by_cases hp : s.xreq = .none
        · exact .inl ⟨_, State.issue_of_empty hp rfl, .refills r h hx hr hp⟩
        · exact .inr ⟨State.issue_of_outstanding fun hc => hp hc.1, by decide, fun _ => Option.some_ne_none r, .inl hp⟩
  | strRefillWait =>
    have e := seqTurn_strRefillWait h
    cases hx : s.xresp with
    | none => exact .inl (wait _ e (by rw [h]; decide) hx)
    | some r =>
      rw [e, onResponse_some hx]
      refine .inl ⟨_, rfl, ?_⟩
      cases hr : respNegative r with
      | true => exact .refillFails r h hx hr
      | false => exact .publishes r h hx hr
  | strAnalyze => exact .inl ⟨_, seqTurn_strAnalyze h, .analyzes h⟩
  | strCount => exact .inl ⟨_, seqTurn_strCount h, .counts h⟩
  | strSynth => exact .inl ⟨_, seqTurn_strSynth h, .synthesizes h⟩
  | sdReleaseLocal =>
    have e := seqTurn_sdReleaseLocal h
    rw [e, seqSdReleaseLocal]
    split
    · rename_i ho
      by_cases hp : s.xreq = .none ∧ s.xresp = none
      · exact .inl ⟨_, State.issue_of_empty hp.1 hp.2, .releases h ho hp⟩
      · exact .inr ⟨State.issue_of_outstanding hp, by decide, fun hn => absurd rfl hn, port hp⟩
    · rename_i ho
      exact .inl ⟨_, rfl, .releasesLocal h (Bool.not_eq_true _ ▸ ho)⟩
  | sdRelTxWait =>
    have e := seqTurn_sdRelTxWait h
    cases hx : s.xresp with
    | none => exact .inl (wait _ e (by rw [h]; decide) hx)
    | some r =>
      rw [e, onResponse_some hx]
      by_cases hp : s.xreq = .none
      · exact .inl ⟨_, State.issue_of_empty hp rfl, .releasedTx r h hx hp⟩
      · exact .inr ⟨State.issue_of_outstanding fun hc => hp hc.1, by decide, fun _ => Option.some_ne_none r, .inl hp⟩
  | sdRelRxWait =>
    have e := seqTurn_sdRelRxWait h
    cases hx : s.xresp with
    | none => exact .inl (wait _ e (by rw [h]; decide) hx)
    | some r =>
      rw [e, onResponse_some hx]
      by_cases hp : s.xreq = .none
      · exact .inl ⟨_, State.issue_of_empty hp rfl, .releasedRx r h hx hp⟩
      · exact .inr ⟨State.issue_of_outstanding fun hc => hp hc.1, by decide, fun _ => Option.some_ne_none r, .inl hp⟩
  | sdCloseWait =>
    have e := seqTurn_sdCloseWait h
    cases hx : s.xresp with
    | none => exact .inl (wait _ e (by rw [h]; decide) hx)
    | some r => exact .inl ⟨_, by rw [e, onResponse_some hx]; rfl, .closed r h hx⟩
  | diagWgen => exact .inl ⟨_, seqTurn_diagWgen h, .diagWindow h⟩
  | diagAnalyze => exact .inl ⟨_, seqTurn_diagAnalyze h, .diagSpectrum h⟩
  | diagSynth => exact .inl ⟨_, seqTurn_diagSynth h, .diagBlock h⟩

/-! ### The step -/

/-- Whose turn is next, where the agenda says it. -/
theorem State.nextTurn_of_agenda {s : State} {e : Event} {es : List Event} (h : s.agenda = e :: es) : s.nextTurn = e := by
  rw [State.nextTurn, h]

/-- Whose turn is next past the agenda's end. -/
theorem State.nextTurn_of_end {s : State} (h : s.agenda = []) :
    s.nextTurn = if s.xreq = .none then .seq else .xport := by rw [State.nextTurn, h]

theorem step_of_agenda {s : State} {e : Event} {es : List Event} (h : s.agenda = e :: es) :
    step s = turn e { s with agenda := es } := by rw [step, State.nextTurn_of_agenda h, h, List.tail_cons]

theorem step_seq {s : State} {es : List Event} (h : s.agenda = .seq :: es) :
    step s = seqTurn { s with agenda := es } := step_of_agenda h

theorem step_xport {s : State} {es : List Event} (h : s.agenda = .xport :: es) :
    step s = xportTurn { s with agenda := es } := step_of_agenda h

theorem step_host {s : State} {es : List Event} (h : s.agenda = .host :: es) :
    step s = hostTurn { s with agenda := es } := step_of_agenda h

/-- Everything a step can do: the effect of the next turn on the state it is taken from. -/
theorem step_next {s t : State} (h : step s = .next t) :
    match s.nextTurn with
    | .host => HostTurnEffect { s with agenda := s.agenda.tail } t
    | .seq => SeqEffect { s with agenda := s.agenda.tail } t
    | .xport => XportEffect { s with agenda := s.agenda.tail } t
    | .reset => t = State.resetStep { s with agenda := s.agenda.tail } := by
  rw [step] at h
  cases he : s.nextTurn with
  | host =>
    obtain ⟨u, h1, h2⟩ := hostTurn_effect { s with agenda := s.agenda.tail }
    rw [he, turn, h1] at h
    exact Host.Outcome.next.inj h ▸ h2
  | seq =>
    rcases seqTurn_effect { s with agenda := s.agenda.tail } with ⟨u, h1, h2⟩ | ⟨h1, _⟩ <;> rw [he, turn, h1] at h
    · exact Host.Outcome.next.inj h ▸ h2
    · cases h
  | xport =>
    obtain ⟨u, h1, h2⟩ := xportTurn_effect { s with agenda := s.agenda.tail }
    rw [he, turn, h1] at h
    exact Host.Outcome.next.inj h ▸ h2
  | reset =>
    rw [he] at h
    exact (Host.Outcome.next.inj h).symm

/-- A step either goes on, or is SEQ's turn at a step that issues with a port that is not empty. -/
theorem step_effect (s : State) : (∃ t, step s = .next t) ∨
    (step s = .fault .requestOutstanding ∧ s.nextTurn = .seq ∧ s.seq ∈ issuingSteps ∧
      (s.seq.awaits ≠ .none → s.xresp ≠ none) ∧ (s.xreq ≠ .none ∨ (s.seq.awaits = .none ∧ s.xresp ≠ none))) := by
  rw [step]
  cases s.nextTurn with
  | host => exact .inl ((hostTurn_effect _).imp fun _ h => h.1)
  | xport => exact .inl ((xportTurn_effect _).imp fun _ h => h.1)
  | reset => exact .inl ⟨_, rfl⟩
  | seq =>
    rcases seqTurn_effect { s with agenda := s.agenda.tail } with ⟨u, h1, _⟩ | ⟨h1, hm, hw, hp⟩
    · exact .inl ⟨u, h1⟩
    · exact .inr ⟨h1, rfl, hm, hw, hp⟩

theorem run_next (M : Host.Core) {s t : M.State} (h : M.step s = .next t) (k : Nat) : M.run (k + 1) s = M.run k t := by
  rw [Host.Core.run, h]

/-- A run takes its first step and goes on. -/
theorem core_run_next {s t : State} (h : step s = .next t) (k : Nat) :
    Host.Core.run Sys2Proof.core (k + 1) s = Host.Core.run Sys2Proof.core k t := run_next Sys2Proof.core h k

end Sys2Proof.Machine
end

