-- ==== Sys2Proof/Tests/Slice0.lean ====
section
/-! SUPPORT. The model's own tests: what WellFormed refuses, the decoding of words written out from the encoding tables, one
step at a time against the vectors of spec/95_test_vectors.md (V-…) and the rules, and a witness that meets the hypotheses
of each statement that has some. -/

namespace Sys2Proof.Tests

open Sys2Proof.Machine

-- One after the other: each test asks the kernel, and a thread for each would wait there.
set_option Elab.async false

/-! ### The states the tests start from -/

/-- The parameters of programs P2 and P5: 8 pairs in a block, 4 bytes a sample, 8 window entries. -/
def par : Params := { blockLen := 8, sampleBytes := 4, nmax := 8 }

/-- The machine of those parameters after reset. -/
def small : State := { State.reset with par := par }

/-- Configured as programs P2 and P4 do: N = 4, fs = 4.0. -/
def ready : State := { small with fftSize := 4, sampleRate := 0x4010000000000000 }

/-- In a session, at a position of STREAMING, with plan, sink and transport held. -/
def session (p : SeqPos) : State := { ready with seq := p, planValid := true, sinkOpen := true, xportOpen := true }

/-- The push of a cycle is outstanding. -/
def pushing : State := { session .strPushWait with txOwn := true, xreq := .push }

/-- The refill of a cycle is outstanding. -/
def refilling : State := { session .strRefillWait with rxOwn := true, xreq := .refill }

/-- A publication is in progress. -/
def publishing : State := { session .strAnalyze with specSeq := 1 }

/-- A fatal error has been raised with the transport open. -/
def shuttingDown : State := { session .sdReleaseLocal with err := .transportWrite }

/-- A cycle with its push outstanding and CANCEL standing, and the turns that complete it. -/
def cancelRun : State :=
  { pushing with cancel := true, oracle := [32, 0], agenda := [.xport, .seq, .xport, .seq, .seq, .seq, .seq, .seq] }

/-- A shutdown with the transport open, and the turns that complete it. -/
def shutdownRun : State := { shuttingDown with agenda := [.seq, .xport, .seq, .xport, .seq, .xport, .seq] }

/-- The refill outstanding, SEQ's turn next. -/
def refillRun : State := { refilling with agenda := [.seq] }

/-- In IDLE, a host write next. -/
def idleRun : State := small.withBusNext (writeReg .fftSize 4)

/-- In IDLE and configured, the host's ANALYZE next. -/
def analyzeRun : State := ready.withBusNext (writeReg .cmd 0x11)

/-- Polling STATUS for STREAMING: HOST's turns, with one of SEQ's between. -/
def pollRun : State :=
  { ready with
    seq := .initBuild, xportOpen := true
    program := [.poll 0x010 0x7 2, .access (writeReg .cmd 2)]
    agenda := [.host, .seq, .host] }

/-- SEQ's and XPORT's turns in alternation. -/
def alternating (n : Nat) : Event := if n % 2 = 0 then .seq else .xport

/-- The step or turn went on to a state with this property. -/
def nextIs (r : Res) (p : State → Bool) : Bool :=
  match r with
  | .next t => p t
  | .fault _ => false
  | .refused _ => false

/-! ### Ill-formed terms are refused -/

theorem test_wf_refuses_reservedCmd_that_is_a_command :
    Instr.wellFormed (.reservedCmd 0x11) = false ∧ Instr.wellFormed (.reservedCmd 0x00) = false := by decide

theorem test_wf_refuses_wr_of_other_rows :
    Instr.wellFormed (.wr 0x008 64 1) = false ∧ Instr.wellFormed (.wr 0x010 64 1) = false ∧
    Instr.wellFormed (.wr 0x018 64 1) = false ∧ Instr.wellFormed (.wr 0x1000000 64 1) = false ∧
    Instr.wellFormed (.wr 0x4000008 64 1) = false := by decide

theorem test_wf_accepts :
    Instr.wellFormed (.reservedCmd 0x03) = true ∧ Instr.wellFormed (.wr 0x058 64 5) = true ∧
    Instr.wellFormed (.wr 0x018 32 5) = true ∧ Instr.wellFormed (.wr 0x2000000 64 5) = true := by decide

/-! ### Words written out from the tables (R122, R129) and transactions from the map (R81 to R85) -/

theorem test_decode_nop : decodeCmd 0x0000000000000000 = .nop := by decide
theorem test_decode_start : decodeCmd 0x0000000000000001 = .start := by decide
theorem test_decode_cancel : decodeCmd 0x0000000000000002 = .cancel := by decide
theorem test_decode_wgen : decodeCmd 0x0000000000000010 = .wgen := by decide
theorem test_decode_analyze : decodeCmd 0x0000000000000011 = .analyze := by decide
theorem test_decode_synth : decodeCmd 0x0000000000000012 = .synth := by decide

/-- V-C3, V-C4, and a word with only RSV set. -/
theorem test_decode_reserved :
    decodeCmd 0x0000000000000101 = .reservedCmd 0x101 ∧ decodeCmd 0x03 = .reservedCmd 0x03 ∧
    decodeCmd 0x13 = .reservedCmd 0x13 ∧ decodeCmd 0xFF = .reservedCmd 0xFF ∧
    decodeCmd 0x8000000000000002 = .reservedCmd 0x8000000000000002 := by decide

theorem test_decode_rd : decodeBus (.read 0x0000010 64) = .rd 0x010 64 := by decide
theorem test_decode_wr : decodeBus (.write 0x0000058 64 5) = .wr 0x058 64 5 := by decide
theorem test_decode_wr_narrow : decodeBus (.write 0x0000018 32 5) = .wr 0x018 32 5 := by decide
theorem test_decode_wrStatus : decodeBus (.write 0x0000010 64 0x300000) = .wrStatus 0x300000 := by decide

/-- Every configuration register at its offset of R81. -/
theorem test_decode_wrConfig :
    decodeBus (.write 0x000 64 1) = .wrConfig .ctrl 1 ∧ decodeBus (.write 0x018 64 1) = .wrConfig .fftSize 1 ∧
    decodeBus (.write 0x020 64 1) = .wrConfig .sampleRate 1 ∧ decodeBus (.write 0x028 64 1) = .wrConfig .toneA 1 ∧
    decodeBus (.write 0x030 64 1) = .wrConfig .toneF1 1 ∧ decodeBus (.write 0x038 64 1) = .wrConfig .toneF2 1 ∧
    decodeBus (.write 0x040 64 1) = .wrConfig .dbFloor 1 ∧ decodeBus (.write 0x048 64 1) = .wrConfig .phase 1 := by decide

/-- The first and the last word of each writable RAM region. -/
theorem test_decode_wrRam :
    decodeBus (.write 0x1000000 64 7) = .wrRam (.win 0) 7 ∧ decodeBus (.write 0x1FFFFF8 64 7) = .wrRam (.win 0x1FFFFF) 7 ∧
    decodeBus (.write 0x4000000 64 7) = .wrRam (.rxbuf 0) 7 ∧
    decodeBus (.write 0x7FFFFF8 64 7) = .wrRam (.rxbuf 0x7FFFFF) 7 := by decide

theorem test_decode_treqConfigure : decode (.port 0x0000000000000001) = .ok .treqConfigure := by decide
theorem test_decode_treqPush : decode (.port 0x0000000000000002) = .ok .treqPush := by decide
theorem test_decode_treqRefill : decode (.port 0x0000000000000003) = .ok .treqRefill := by decide
theorem test_decode_treqReleaseTx : decode (.port 0x0000000000000004) = .ok .treqReleaseTx := by decide
theorem test_decode_treqReleaseRx : decode (.port 0x0000000000000005) = .ok .treqReleaseRx := by decide
theorem test_decode_treqClose : decode (.port 0x0000000000000006) = .ok .treqClose := by decide

/-- No request, the TOP that is never issued, a set bit above TOP (R129). -/
theorem test_decode_port_rejects :
    decodePort 0 = .error .noRequest ∧ decodePort 7 = .error .topNeverIssued ∧ decodePort 9 = .error .upperBitsSet := by decide

/-- The host's two questions on a table word: the row's instruction, and a step that runs it after reset. -/
theorem test_fetch_word :
    decodeTableWord 64 0x12 = some .synth ∧ decodeTableWord 64 6 = some .treqClose ∧ decodeTableWord 64 (2 ^ 64) = none ∧
    nextIs (step (small.withFetchWord 64 1)) (fun t => t.seq == .initCheck) = true ∧
    nextIs (step (small.withFetchWord 64 4)) (fun t => t.xresp.isSome) = true := by decide +kernel

/-! ### Commands -/

/-- V-C1. -/
theorem test_nop : nextIs (exec .nop ready) (fun t => t == { ready with bus := .ack }) = true := by decide +kernel

/-- V-C2. -/
theorem test_start : nextIs (exec .start { ready with cancel := true })
    (fun t => t.seq == .initCheck && !t.cancel && t.err == .none) = true := by decide +kernel

/-- V-C5. -/
theorem test_start_outside_idle : nextIs (exec .start (session .strCount))
    (fun t => t.cmdErr && t.cmdErrCause == .state && t.seq == .strCount) = true := by decide +kernel

/-- V-C10: STATUS of TERMINATED with CANCEL is 0x1004. -/
theorem test_cancel : nextIs (exec .cancel { ready with seq := .terminated }) (fun t => t.statusWord == 0x1004) = true := by
  decide +kernel

/-- V-C6, V-C7. -/
theorem test_wgen_rejected :
    nextIs (exec .wgen small) (fun t => t.cmdErrCause == .config) = true ∧
    nextIs (exec .wgen { small with fftSize := 1 }) (fun t => t.cmdErrCause == .divzero) = true := by decide +kernel

/-- The longest window (R157). -/
theorem test_wgen : nextIs (exec .wgen { small with fftSize := 8 }) (fun t => t.seq == .diagWgen) = true ∧
    nextIs (exec .wgen { small with fftSize := 9 }) (fun t => t.cmdErrCause == .config) = true := by decide +kernel

/-- V-C8. -/
theorem test_analyze : nextIs (exec .analyze { ready with fftSize := 1 })
    (fun t => t.seq == .diagAnalyze && t.specSeq == 1) = true := by decide +kernel

/-- A negative rate (R158). -/
theorem test_analyze_rejected : nextIs (exec .analyze { ready with sampleRate := 0xC010000000000000 })
    (fun t => t.seq == .idle && t.cmdErrCause == .config && t.specSeq == 0) = true := by decide +kernel

theorem test_synth : nextIs (exec .synth ready) (fun t => t.seq == .diagSynth) = true := by decide +kernel

/-- V-C9. -/
theorem test_synth_rejected : nextIs (exec .synth { ready with sampleRate := 0x7FF8000000000000 })
    (fun t => t.cmdErrCause == .config) = true := by decide +kernel

/-- V-C3: STATUS bits 20 and 24. -/
theorem test_reservedCmd : nextIs (exec (.reservedCmd 0x101) small) (fun t => t.statusWord == 0x1100000) = true := by
  decide +kernel

/-! ### Bus accesses -/

/-- V-C17. -/
theorem test_rd_registers : nextIs (exec (.rd 0x010 64) small) (fun t => t == { small with bus := .data 0 }) = true ∧
    nextIs (exec (.rd 0x040 64) small) (fun t => t == { small with bus := .data 0xC072C00000000000 }) = true := by decide +kernel

/-- V-C15 and V-C16. -/
theorem test_rd_error_and_draw :
    nextIs (exec (.rd 0x010 32) small) (fun t => t == { small with bus := .err }) = true ∧
    nextIs (exec (.rd 0x004 64) small) (fun t => t == { small with bus := .err }) = true ∧
    nextIs (exec (.rd 0x0A8 64) small) (fun t => t == { small with bus := .err }) = true ∧
    nextIs (exec (.rd 0x4000000 64) { refilling with oracle := [7] }) (fun t => t.bus == .data 7 && t.drawn == 1) = true := by
  decide +kernel

/-- V-C12. -/
theorem test_wr_read_only :
    nextIs (exec (.wr 0x058 64 5) small) (fun t => t == { small with accErr := true, bus := .ack }) = true := by
  decide +kernel

/-- WR at a configuration register's offset (R152). -/
theorem test_wr_config :
    nextIs (exec (.wr 0x018 64 4) small) (fun t => t == { small with fftSize := 4, bus := .ack }) = true := by decide +kernel

/-- V-C13, V-C14. -/
theorem test_wrStatus :
    nextIs (exec (.wrStatus 0x300000) { small with cmdErr := true, cmdErrCause := .divzero, accErr := true })
      (fun t => t.statusWord == 0) = true ∧
    nextIs (exec (.wrStatus 0x1007) { small with cmdErr := true, cmdErrCause := .state, accErr := true, cancel := true })
      (fun t => t.statusWord == 0x02301000) = true := by decide +kernel

/-- CTRL keeps bit 0 only (R31). -/
theorem test_wrConfig_ctrl : nextIs (exec (.wrConfig .ctrl 0xFFFFFFFFFFFFFFFF) small) (fun t => t.readReg .ctrl == 1) = true := by
  decide +kernel

/-- V-C11. -/
theorem test_wrConfig_refused :
    nextIs (exec (.wrConfig .fftSize 2048) (session .strCk))
      (fun t => t == { session .strCk with accErr := true, bus := .ack }) = true := by decide +kernel

/-- P1: `wrf WIN[1], 1.0`, read back, and the entry before it untouched. -/
theorem test_wrRam_win : nextIs (exec (.wrRam (.win 1) 0x3FF0000000000000) { small with mem := [(0x1000007, 9)] })
    (fun t => t.win 1 == 0x3FF0000000000000 && t.byteAt 0x1000007 == 9 && t.mem.wf) = true := by decide +kernel

/-- The SAMPLE2 word of (0,0), (999,−1000) (95_test_vectors 2.3). -/
theorem test_wrRam_rxbuf : nextIs (exec (.wrRam (.rxbuf 3) 0xFC1803E700000000) small)
    (fun t => t.rxbuf 6 == { i := 0, q := 0 } && t.rxbuf 7 == { i := 999, q := BitVec.ofInt 16 (-1000) }) = true := by
  decide +kernel

/-- Bits 12, 13 and 16 to 18 of STATUS while a push is outstanding and CANCEL stands (R41). -/
theorem test_status_word : State.statusWord { pushing with cancel := true } = 0x7B012 ∧
    State.statusWord { refilling with accErr := true } = 0x27C022 := by decide +kernel

/-! ### The transport -/

theorem test_treq_answers :
    nextIs (exec .treqConfigure { ready with seq := .initCfgWait, xreq := .configure, oracle := [0] })
      (fun t => t.xresp == some 0 && t.xreq == .none && t.oracle == [] && t.drawn == 1 && t.configured.isSome) = true ∧
    nextIs (exec .treqReleaseTx { shuttingDown with xreq := .releaseTx, oracle := [5, 6] }) (fun t => t.xresp == some 5) = true ∧
    nextIs (exec .treqReleaseRx { shuttingDown with xreq := .releaseRx, oracle := [5, 6] }) (fun t => t.oracle == [6]) = true ∧
    nextIs (exec .treqClose { shuttingDown with xreq := .close, oracle := [5, 6] }) (fun t => t.xreq == .none) = true := by
  decide +kernel

/-- The pushed block is TXBUF: pair 1 is (1000, 1000), the second pair of 0x03E8_03E8_0000_07D0. -/
theorem test_treqPush : nextIs (exec .treqPush { pushing with mem := Memory.writeWord [] 0x8000000 0x03E803E8000007D0 })
    (fun t => t.sent.take 2 == [{ i := 2000, q := 0 }, { i := 1000, q := 1000 }] && t.sent.length == 8) = true := by
  decide +kernel

/-- P2: REFILL of cycle 1 answers 32 and leaves RXBUF all (1, 0). -/
theorem test_treqRefill : nextIs (exec .treqRefill { refilling with oracle := 32 :: List.replicate 8 1 })
    (fun t => t.xresp == some 32 && t.rxbuf 0 == { i := 1, q := 0 } && t.rxbuf 7 == { i := 1, q := 0 } && t.drawn == 9) = true := by
  decide +kernel

/-! ### The sequencer -/

/-- V-F1, V-F2 and V-F5: the static checks. -/
theorem test_check_fails :
    nextIs (seqTurn { small with seq := .initCheck }) (fun t => t.err == .configuration && t.xreq == .none) = true ∧
    nextIs (seqTurn { ready with seq := .initCheck, fftSize := 9 }) (fun t => t.seq == .sdReleaseLocal) = true ∧
    nextIs (seqTurn { ready with seq := .initCheck, sampleRate := 0x7FF8000000000000 }) (fun t => t.err == .configuration) = true := by
  decide +kernel

/-- V-F3 and V-F6. -/
theorem test_init_fails :
    nextIs (seqTurn { ready with seq := .initBuild, fftSize := 1, xportOpen := true }) (fun t => t.err == .divideByZero) = true ∧
    nextIs (seqTurn { ready with seq := .initCfgWait, xresp := some 0xFFFFFFFFFFFFFFFF })
      (fun t => t.err == .configuration && !t.xportOpen) = true := by decide +kernel

/-- V-F7 and P4: LAST_TX_BYTES is −5. -/
theorem test_push_fails : nextIs (seqTurn { pushing with xreq := .none, xresp := some 0xFFFFFFFFFFFFFFFB })
    (fun t => t.err == .transportWrite && t.lastTxBytes == 0xFFFFFFFFFFFFFFFB && !t.txOwn && t.seq == .sdReleaseLocal) = true := by
  decide +kernel

/-- V-F8 and V-P2: SPEC_SEQ is unchanged. -/
theorem test_refill_fails : nextIs (seqTurn { refilling with xreq := .none, xresp := some 0xFFFFFFFFFFFFFFFF })
    (fun t => t.err == .transportRead && t.specSeq == 0) = true := by decide +kernel

/-- V-K2 and V-K4. -/
theorem test_count :
    nextIs (seqTurn { session .strCount with lastRxBytes := 7 }) (fun t => t.rxCount == 1 && t.txCount == 0) = true ∧
    nextIs (seqTurn { session .strCount with lastRxBytes := 32, rxCount := 0xFFFFFFFFFFFFFFFC })
      (fun t => t.rxCount == 4 && t.cycleCount == 1) = true := by decide +kernel

/-- BUILD at fs = 4.0: PHASE_INC is 0.25, TXBUF the zero block, WIN[0] is +0.0 (P2, S5). -/
theorem test_build : nextIs (seqTurn { ready with seq := .initBuild, xportOpen := true, phase := 5 })
    (fun t => t.phaseInc == 0x3FD0000000000000 && t.phase == 0 && t.txbuf 7 == { i := 0, q := 0 } && t.win 0 == 0) = true := by
  decide +kernel

/-- V-P1: the end of a publication. -/
theorem test_analyze_publishes : nextIs (seqTurn publishing) (fun t => t.specSeq == 2 && t.seq == .strCount) = true := by
  decide +kernel

/-- V-C8: the 1-point transform of a zero sample is the floor. -/
theorem test_analyze_floor :
    nextIs (seqTurn { publishing with
        fftSize := 1, seq := .diagAnalyze
        mem := Memory.writeWord (Memory.writeWord [] 0x1000000 0x3FF0000000000000) 0x4000000 0 })
      (fun t => t.specFreq 0 == 0 && t.specMag 0 == 0xC072C00000000000 && t.seq == .idle) = true := by decide +kernel

/-- V-Y5 and V-Y6: SYNTH with A = 20000 and both frequencies 0, saturated and wrapped; PHASE ends at 2.0. -/
theorem test_diag_synth :
    nextIs (seqTurn { ready with seq := .diagSynth, toneA := 0x40D3880000000000 })
      (fun t => t.wordAt 0x8000000 == 0x00007FFF00007FFF && t.phase == 0x4000000000000000 && t.seq == .idle) = true ∧
    nextIs (seqTurn { ready with seq := .diagSynth, toneA := 0x40D3880000000000, ctrlWrap := true })
      (fun t => t.wordAt 0x8000018 == 0x00009C4000009C40) = true := by decide +kernel

/-- R241: with `f1 = -1.0`, `f2 = 0.0` and `t = 0` the tone argument is −0.0 and the pair is (2000, 0). -/
theorem test_synth_negative_frequency :
    State.synthFn { ready with toneA := 0x408F400000000000, toneF1 := 0xBFF0000000000000 } 0 = { i := 2000, q := 0 } := by
  have hp : tonePhase 0xBFF0000000000000 0 = 0x8000000000000000 ∧ tonePhase 0 0 = 0 := by decide +kernel
  have hs : sin64 0x8000000000000000 = F64.zero Config.sinZeroSign := by
    rw [sin64, if_neg (by decide), if_pos (by decide +kernel)]
  have hq : State.synthQ { ready with toneA := 0x408F400000000000, toneF1 := 0xBFF0000000000000 } 0 =
      F64.add (F64.mul 0x408F400000000000 (F64.zero Config.sinZeroSign)) (F64.mul 0x408F400000000000 (sin64 0)) := by
    rw [State.synthQ]
    show F64.add (F64.mul 0x408F400000000000 (sin64 (tonePhase 0xBFF0000000000000 0)))
      (F64.mul 0x408F400000000000 (sin64 (tonePhase 0 0))) = _
    rw [hp.1, hp.2, hs]
  rw [State.synthFn, hq]
  cases Config.sinZeroSign <;> decide +kernel

/-- V-Y7 in STREAMING: −40000 saturates, −0.0 gives 0. -/
theorem test_streaming_synth :
    nextIs (seqTurn { session .strSynth with toneA := 0xC0D3880000000000, phaseInc := 0x3FD0000000000000 })
      (fun t => t.wordAt 0x8000000 == 0x0000800000008000 && t.seq == .strCk) = true := by decide +kernel

/-! ### The datapath -/

/-- V-Q1 to V-Q5 and V-Q8, V-Q9, V-Q10. -/
theorem test_quant_saturate :
    quant false 0x409F400000000000 = 2000 ∧ quant false 0x40E3880000000000 = 32767 ∧
    quant false 0xC0E3880000000000 = BitVec.ofInt 16 (-32768) ∧ quant false 0xBFE0000000000000 = 0 ∧
    quant false 0x408F3FFFFFFFFFFE = 999 ∧ quant false 0x7FF8000000000000 = 0 ∧
    quant false 0xFFF0000000000000 = BitVec.ofInt 16 (-32768) ∧ quant false 0x8000000000000000 = 0 := by decide +kernel

/-- V-Q2, V-Q3, V-Q7, V-Q8, V-Q10. -/
theorem test_quant_wrap :
    quant true 0x40E3880000000000 = BitVec.ofInt 16 (-25536) ∧ quant true 0xC0E3880000000000 = 25536 ∧
    quant true 0xC0E0001CCCCCCCCD = BitVec.ofInt 16 (-32768) ∧ quant true 0x40F0005000000000 = 5 ∧
    quant true 0x7FF0000000000000 = 32767 := by decide +kernel

/-- S4: the phase increments of fs = 30.72e6 and fs = 4.0. -/
theorem test_phase_increment :
    F64.div F64.one 0x417D4C0000000000 = 0x3E6179EC9CBD821E ∧ F64.div F64.one 0x4010000000000000 = 0x3FD0000000000000 := by
  decide +kernel

/-- S1 and V-S10: bins 133 and 1023 of 1024 at 30.72e6 (3990000.0, 30690000.0), bin 3 of 4 at 4.0, bin 1 of 3
at 1.0. -/
theorem test_bin_frequency :
    binFreq 1024 0x417D4C0000000000 133 = nearestDecimal false 3990000 0 ∧
    binFreq 1024 0x417D4C0000000000 1023 = nearestDecimal false 30690000 0 ∧
    binFreq 4 0x4010000000000000 3 = 0x4008000000000000 ∧ binFreq 3 F64.one 1 = nearestDecimal false 3333333333333333 (-16) := by decide +kernel

/-- Literals of the programs: 1000.0, 20000.0, 4.0, −300.0, and 30.72e6 of S4. -/
theorem test_float_literals :
    nearestDecimal false 1000 0 = 0x408F400000000000 ∧ nearestDecimal false 20000 0 = 0x40D3880000000000 ∧
    nearestDecimal false 40 (-1) = 0x4010000000000000 ∧ nearestDecimal true 300 0 = 0xC072C00000000000 ∧
    nearestDecimal false 3072 4 = 0x417D4C0000000000 := by decide +kernel

/-- P1's encodings. -/
theorem test_assembler :
    hostProgram [.wr (.reg .fftSize) (.int 4), .wrf (.win 2) false 10 (-1), .wrpairs 0 1 0 0 0, .cmd .analyze, .rd (.specMag 1)] =
      [.access (.write 0x018 64 4), .access (.write 0x1000010 64 0x3FF0000000000000), .access (.write 0x4000000 64 1),
       .access (.write 0x008 64 0x11), .access (.read 0x2000018 64)] := by decide +kernel

/-- `wait_state 2`, and the reads it encodes when STATUS returns 0x21 and then 0x8002 (R134). -/
theorem test_wait_state :
    HostLine.op (.waitState 2) = .poll 0x010 0x7 2 ∧
    HostOp.transactions (.poll 0x010 0x7 2) [0x21, 0x8002, 0x2] = [.read 0x010 64, .read 0x010 64] := by decide +kernel

/-- A poll makes one read in a turn of HOST and stays until the data meet its condition (R134). -/
theorem test_poll :
    nextIs (step pollRun) (fun t => t.bus == .data 0x10021 && t.program == pollRun.program) = true ∧
    nextIs (Host.Core.run Sys2Proof.core 3 pollRun)
      (fun t => t.bus == .data 0x38002 && t.program == [.access (writeReg .cmd 2)]) = true := by decide +kernel

/-- The pair words of 95_test_vectors 2.3. -/
theorem test_pair_words :
    sample2 { i := 2000, q := 0 } { i := 1000, q := 1000 } = 0x03E803E8000007D0 ∧
    sample2 { i := BitVec.ofInt 16 (-25536), q := 0 } { i := BitVec.ofInt 16 (-25536), q := 0 } = 0x00009C4000009C40 := by decide +kernel

/-! ### Witnesses: states and operands that meet the hypotheses of the statements, a boundary value for each clause -/

theorem test_witness_inv_idleRun : Inv idleRun := by
  constructor <;> first
    | decide
    | exact fun _ hc => (nomatch hc)
    | exact .inl ⟨rfl, rfl⟩
    | trivial

theorem test_witness_inv_analyzeRun : Inv analyzeRun := by
  constructor <;> first
    | decide
    | exact fun _ hc => (nomatch hc)
    | exact .inl ⟨rfl, rfl⟩
    | trivial

/-- The state of HOST and XPORT turns: a push outstanding, CANCEL standing. -/
theorem test_witness_inv_cancelRun : Inv cancelRun := by
  constructor <;> first
    | decide
    | exact fun _ hc => (nomatch hc)
    | exact .inl ⟨rfl, rfl⟩
    | exact ⟨by decide +kernel, by decide +kernel, by decide +kernel, by decide +kernel⟩

theorem test_witness_inv_refillRun : Inv refillRun := by
  constructor <;> first
    | decide
    | exact fun _ hc => (nomatch hc)
    | exact .inl ⟨rfl, rfl⟩
    | exact ⟨by decide +kernel, by decide +kernel, by decide +kernel, by decide +kernel⟩

/-- An answer delivered and not yet consumed. -/
theorem test_witness_inv_answered : Inv { pushing with xreq := .none, xresp := some 32 } := by
  constructor <;> first
    | decide
    | exact fun _ hc => (nomatch hc)
    | exact .inr ⟨by decide, rfl, by decide⟩
    | exact ⟨by decide +kernel, by decide +kernel, by decide +kernel, by decide +kernel⟩

theorem test_witness_inv_publishing : Inv publishing := by
  constructor <;> first
    | decide
    | exact fun _ hc => (nomatch hc)
    | exact .inl ⟨rfl, rfl⟩
    | exact ⟨by decide +kernel, by decide +kernel, by decide +kernel, by decide +kernel⟩

theorem test_witness_inv_shutdownRun : Inv shutdownRun := by
  constructor <;> first
    | decide
    | exact fun _ hc => (nomatch hc)
    | exact .inl ⟨rfl, rfl⟩
    | trivial

/-- Every form of encoding has a well-formed term. -/
theorem test_witness_DecodeInvertsEncode :
    Instr.wellFormed (.wr 0x050 64 1) = true ∧ Instr.wellFormed (.reservedCmd 0x13) = true ∧
    Instr.wellFormed (.wrRam (.win 0x1FFFFF) 1) = true ∧ Instr.wellFormed .treqClose = true := by decide

theorem test_witness_EncodeInvertsDecode :
    decode (.port 6) = .ok .treqClose ∧ decode (.bus (.write 0x048 64 9)) = .ok (.wrConfig .phase 9) ∧
    decode (.bus (.write 0x4000008 64 9)) = .ok (.wrRam (.rxbuf 1) 9) := by decide

theorem test_witness_StepRunsTheDecodedInstruction :
    State.nextTurn (small.withBusNext (writeReg .cmd 1)) = .host ∧
    State.program (small.withBusNext (writeReg .cmd 1)) = .access (writeReg .cmd 1) :: [] ∧
    decode (.bus (writeReg .cmd 1)) = .ok .start ∧ pollRun.nextTurn = .host ∧
    pollRun.program = .poll 0x010 0x7 2 :: [.access (writeReg .cmd 2)] ∧
    State.nextTurn { small with agenda := [.host] } = .host ∧ small.program = [] ∧
    State.nextTurn { pushing with agenda := [.xport, .seq] } = .xport ∧ pushing.nextTurn = .xport ∧
    decode (.port pushing.xreq.word) = .ok .treqPush ∧
    State.nextTurn { small with agenda := [.xport] } = .xport ∧ small.xreq = .none ∧ small.nextTurn = .seq ∧
    small.agenda = [] := by decide +kernel

/-- A command, a request and a reserved word, at the ends of the request range. -/
theorem test_witness_FetchWordRunsNext :
    decodeTableWord 64 (0x11 : Word).toNat = some .analyze ∧ decodeTableWord 64 (3 : Word).toNat = some .treqRefill ∧
    decodeTableWord 64 (6 : Word).toNat = some .treqClose ∧ decodeTableWord 64 (7 : Word).toNat = some (.reservedCmd 7) := by
  decide

theorem test_witness_StartBeginsASession : ready.seq = .idle ∧ (session .strCk).seq ≠ .idle := by decide

/-- N at 0 and NMAX + 1, at 1, and at 2 and NMAX. -/
theorem test_witness_WgenCommand :
    (session .strCk).seq ≠ .idle ∧ small.seq = .idle ∧ small.fftSize.toNat = 0 ∧
    small.par.nmax < (State.fftSize { small with fftSize := 9 }).toNat ∧
    (State.fftSize { small with fftSize := 1 }).toNat = 1 ∧ 1 ≤ small.par.nmax ∧
    2 ≤ (State.fftSize { small with fftSize := 2 }).toNat ∧
    (State.fftSize { small with fftSize := 8 }).toNat ≤ small.par.nmax := by decide

/-- N at 0, at min(NMAX, BLOCK_LEN) + 1, at 1 and at the greatest; a rate that is infinite, a NaN, zero, negative; 4.0. -/
theorem test_witness_AnalyzeCommand :
    small.fftSize.toNat = 0 ∧ min par.nmax par.blockLen < (9 : Word).toNat ∧
    ¬ (F64.isFinite 0x7FF0000000000000 = true ∧ F64.isPos 0x7FF0000000000000 = true) ∧
    ¬ (F64.isFinite 0x7FF8000000000000 = true ∧ F64.isPos 0x7FF8000000000000 = true) ∧
    ¬ (F64.isFinite 0x8000000000000000 = true ∧ F64.isPos 0x8000000000000000 = true) ∧
    ¬ (F64.isFinite 0xC010000000000000 = true ∧ F64.isPos 0xC010000000000000 = true) ∧
    1 ≤ (1 : Word).toNat ∧ (8 : Word).toNat ≤ min par.nmax par.blockLen ∧ F64.isFinite ready.sampleRate = true ∧
    F64.isPos ready.sampleRate = true ∧ F64.isPos 0x0000000000000001 = true ∧ ready.seq = .idle := by decide +kernel

theorem test_witness_SynthCommand :
    ready.seq = .idle ∧ F64.isFinite ready.sampleRate = true ∧ F64.isPos ready.sampleRate = true ∧
    F64.isFinite 0x7FEFFFFFFFFFFFFF = true ∧ F64.isFinite 0x7FF0000000000000 = false ∧ F64.isFinite ready.toneA = true ∧
    F64.isFinite ready.toneF1 = true ∧ F64.isFinite ready.toneF2 = true ∧
    ¬ (F64.isFinite small.sampleRate = true ∧ F64.isPos small.sampleRate = true) := by decide +kernel

theorem test_witness_RegisterReads :
    ready.seq ≠ .strSynth ∧ ready.seq ≠ .diagSynth ∧ (session .strSynth).seq = .strSynth ∧
    Reg.nmax ≠ Reg.phase := by decide

/-- Legal parameters at the ends of their ranges, and the ends of every index range. -/
theorem test_witness_RamReads :
    small.par.Legal ∧ Params.Legal { blockLen := 2, sampleBytes := 1, nmax := 2 } ∧
    Params.Legal { blockLen := 2 ^ 24, sampleBytes := 2 ^ 64 - 1, nmax := 2 ^ 21 } ∧ 7 < small.par.nmax ∧
    3 < small.par.blockLen / 2 ∧ State.readIsDraw refilling (.rxbuf 3) = true ∧
    State.readIsDraw publishing (.specMag 7) = true ∧ State.readIsDraw ready (.win 7) = false := by decide

/-- The first and the last offset of every hole, for these parameters; a narrow and a misaligned access. -/
theorem test_witness_IllegalAccessIsABusError :
    targetOf par 0x0A0 = some (.reg .nmax) ∧ targetOf par 0x0A8 = none ∧ targetOf par 0x0FFFFF8 = none ∧
    targetOf par 0x1000038 = some (.win 7) ∧ targetOf par 0x1000040 = none ∧ targetOf par 0x1FFFFF8 = none ∧
    targetOf par 0x2000078 = some (.specMag 7) ∧ targetOf par 0x2000080 = none ∧ targetOf par 0x3FFFFF8 = none ∧
    targetOf par 0x4000018 = some (.rxbuf 3) ∧ targetOf par 0x4000020 = none ∧ targetOf par 0x7FFFFF8 = none ∧
    targetOf par 0x8000018 = some (.txbuf 3) ∧ targetOf par 0x8000020 = none ∧ targetOf par 0xFFFFFF8 = none ∧
    targetOf par 0x014 = none ∧ legalTarget par 0x010 32 = none ∧ par.Legal := by decide

theorem test_witness_ConfigurationWrite :
    ready.seq = .idle ∧ (session .strCk).seq ≠ .idle ∧ Reg.toneA ≠ ConfigReg.toReg .toneF1 := by decide

theorem test_witness_WindowWrite :
    ready.seq = .idle ∧ (7 : BitVec 21).toNat < ready.par.nmax ∧ ready.par.nmax ≤ (8 : BitVec 21).toNat ∧
    (session .strCk).seq ≠ .idle := by decide

theorem test_witness_SampleWrite :
    ready.seq = .idle ∧ (3 : BitVec 23).toNat < ready.par.blockLen / 2 ∧ ready.par.blockLen / 2 ≤ (4 : BitVec 23).toNat ∧
    (session .strCk).seq ≠ .idle := by decide

theorem test_witness_WriteByTarget :
    ready.par.Legal ∧ ready.seq = .idle ∧ (session .strCk).seq ≠ .idle ∧
    0x01000000 + 8 * 7 < 0x01000000 + 8 * ready.par.nmax ∧ (0x01000000 + 8 * 7) % 8 = 0 ∧
    0x04000000 + 8 * 3 < 0x04000000 + 4 * ready.par.blockLen ∧ 15 < 2 * ready.par.nmax ∧ 3 < ready.par.blockLen / 2 := by
  decide

theorem test_witness_InitChecksTheConfiguration :
    State.seq { ready with seq := .initCheck } = .initCheck ∧ small.fftSize.toNat = 0 ∧
    min par.nmax par.blockLen < (9 : Word).toNat ∧ 1 ≤ (1 : Word).toNat ∧ (8 : Word).toNat ≤ min par.nmax par.blockLen ∧
    F64.isFinite ready.sampleRate = true ∧ F64.isPos ready.sampleRate = true ∧ F64.isFinite ready.toneA = true ∧
    ¬ (F64.isFinite 0xFFF0000000000000 = true ∧ F64.isFinite ready.toneF1 = true ∧ F64.isFinite ready.toneF2 = true) ∧
    ready.xreq = .none ∧ ready.xresp = none := by decide +kernel

/-- The answers −1 and 0, either side of the sign. -/
theorem test_witness_responses :
    (0xFFFFFFFFFFFFFFFF : Word).toInt < 0 ∧ (0x8000000000000000 : Word).toInt < 0 ∧ 0 ≤ (0 : Word).toInt ∧
    0 ≤ (0x7FFFFFFFFFFFFFFF : Word).toInt := by decide

theorem test_witness_ConfigureResponse :
    State.seq { ready with seq := .initCfgWait, xresp := some 0 } = .initCfgWait ∧
    State.xresp { ready with seq := .initCfgWait, xresp := some 0 } = some 0 := by decide

theorem test_witness_BuildPreparesTheSession :
    par.Legal ∧ State.seq { ready with seq := .initBuild, fftSize := 2 } = .initBuild ∧ (1 : Word).toNat < 2 ∧
    2 ≤ (2 : Word).toNat ∧ (8 : Word).toNat ≤ par.nmax := by decide

theorem test_witness_CheckpointStep :
    (session .strCk).seq = .strCk ∧ (session .strCk).cancel = false ∧ (session .strCk).xreq = .none ∧
    (session .strCk).xresp = none ∧ State.cancel { session .strCk with cancel := true } = true := by decide

theorem test_witness_PushResponse :
    State.seq { pushing with xreq := .none, xresp := some 32 } = .strPushWait ∧
    State.xresp { pushing with xreq := .none, xresp := some 32 } = some 32 ∧ 0 ≤ (32 : Word).toInt ∧
    State.xreq { pushing with xreq := .none, xresp := some 32 } = .none := by decide

theorem test_witness_RefillResponse :
    State.seq { refilling with xreq := .none, xresp := some 0 } = .strRefillWait ∧
    State.xresp { refilling with xreq := .none, xresp := some 0 } = some 0 := by decide

/-- Both positions; `xr`, `xi` and `m` are given by equations, which always have a solution. -/
theorem test_witness_AnalyzePublishesTheSpectrum :
    publishing.seq = .strAnalyze ∧ State.seq { publishing with seq := .diagAnalyze } = .diagAnalyze := by decide

theorem test_witness_CountStep :
    State.seq (session .strCount) = .strCount ∧ 0 ≤ (State.lastRxBytes { session .strCount with lastRxBytes := 7 }).toInt ∧
    0 ≤ (session .strCount).lastTxBytes.toInt ∧ 1 ≤ (session .strCount).par.sampleBytes := by decide

theorem test_witness_positions :
    (session .strSynth).seq = .strSynth ∧ State.seq { ready with seq := .diagWgen } = .diagWgen ∧
    State.seq { ready with seq := .diagSynth } = .diagSynth := by decide

theorem test_witness_ReleaseSteps :
    shuttingDown.seq = .sdReleaseLocal ∧ shuttingDown.xportOpen = true ∧ shuttingDown.xreq = .none ∧
    shuttingDown.xresp = none ∧ State.xportOpen { shuttingDown with xportOpen := false } = false ∧
    State.xresp { shuttingDown with seq := .sdRelTxWait, xresp := some 1 } = some 1 ∧
    State.seq { shuttingDown with seq := .sdRelRxWait, xresp := some 1 } = .sdRelRxWait ∧
    State.seq { shuttingDown with seq := .sdCloseWait, xresp := some 1 } = .sdCloseWait := by decide

theorem test_witness_SequencerWaits :
    ready.seq = .idle ∧ pushing.seq.awaits ≠ .none ∧ pushing.xresp = none := by decide

theorem test_witness_SecondRequestFaults :
    (State.nextTurn { session .strCk with xreq := .push, agenda := [.seq] } = .seq ∧
      State.xreq { session .strCk with xreq := .push, agenda := [.seq] } ≠ .none ∧
      State.cancel { session .strCk with xreq := .push, agenda := [.seq] } = false) ∧
    (State.nextTurn { session .strCk with xresp := some 0 } = .seq ∧
      State.xresp { session .strCk with xresp := some 0 } ≠ none) ∧
    (State.sizeLegal { ready with seq := .initCheck } && State.rateLegal { ready with seq := .initCheck } &&
      State.tonesLegal { ready with seq := .initCheck }) = true ∧ shuttingDown.xportOpen = true ∧
    (State.nextTurn { pushing with xresp := some 0, agenda := [.seq] } = .seq ∧ pushing.xreq ≠ .none ∧
      0 ≤ (0 : Word).toInt) ∧
    (step { session .strCk with xresp := some 0 } matches .fault .requestOutstanding) = true := by decide +kernel

theorem test_witness_ResetStep : State.nextTurn { pushing with agenda := [.reset, .seq] } = .reset := by decide

/-- Steps that go on from states with the invariant: HOST, XPORT and SEQ turns. -/
theorem test_witness_StepKeepsInvariant :
    (Inv idleRun ∧ nextIs (step idleRun) (fun t => t.fftSize == 4) = true) ∧
    (Inv cancelRun ∧ nextIs (step cancelRun) (fun t => t.xreq == .none) = true) ∧
    (Inv shutdownRun ∧ nextIs (step shutdownRun) (fun t => t.xreq == .releaseTx) = true) :=
  ⟨⟨test_witness_inv_idleRun, by decide +kernel⟩, ⟨test_witness_inv_cancelRun, by decide +kernel⟩,
   ⟨test_witness_inv_shutdownRun, by decide +kernel⟩⟩

/-- A step of each agent, as the transition table sorts them. -/
theorem test_witness_TransitionTable :
    nextIs (step (ready.withBusNext (writeReg .cmd 1))) (fun t => t.seq == .initCheck) = true ∧
    nextIs (step { session .strCk with agenda := [.seq] }) (fun t => t.seq == .strPushWait) = true ∧
    nextIs (step { pushing with agenda := [.xport] }) (fun t => t.seq == .strPushWait) = true ∧
    nextIs (step { pushing with agenda := [.reset] }) (fun t => t.seq == .idle) = true := by decide +kernel

/-- Outside IDLE, with a step other than reset: a configuration write that is refused. -/
theorem test_witness_SessionInputsAreFixed :
    pushing.seq ≠ .idle ∧ State.nextTurn (pushing.withBusNext (writeReg .fftSize 8)) ≠ .reset ∧
    nextIs (step (pushing.withBusNext (writeReg .fftSize 8))) (fun t => t.fftSize == 4 && t.accErr) = true := by
  decide +kernel

/-- CANCEL sets the flag, START and reset clear it. -/
theorem test_witness_CancelFlagWriters :
    nextIs (step (pushing.withBusNext (writeReg .cmd 2))) (fun t => t.cancel) = true ∧
    nextIs (step (State.withBusNext { ready with cancel := true } (writeReg .cmd 1))) (fun t => !t.cancel) = true ∧
    nextIs (step { pushing with cancel := true, agenda := [.reset] }) (fun t => !t.cancel) = true := by decide +kernel

/-- The three ways the counters are written or kept. -/
theorem test_witness_CounterWriters :
    nextIs (step { session .strCount with agenda := [.seq] }) (fun t => t.cycleCount == 1) = true ∧
    nextIs (step { session .strCount with cycleCount := 5, agenda := [.reset] }) (fun t => t.cycleCount == 0) = true ∧
    nextIs (step { pushing with cycleCount := 5, agenda := [.xport] }) (fun t => t.cycleCount == 5) = true := by decide +kernel

theorem test_witness_TerminatedIsTerminal :
    State.seq (State.withBusNext { ready with seq := .terminated } (writeReg .cmd 1)) = .terminated ∧
    State.xreq { ready with seq := .terminated } = .none ∧
    State.nextTurn (State.withBusNext { ready with seq := .terminated } (writeReg .cmd 1)) ≠ .reset ∧
    nextIs (step (State.withBusNext { ready with seq := .terminated } (writeReg .cmd 1)))
      (fun t => t.seq == .terminated) = true := by decide +kernel

/-- A step from a state with the invariant that keeps SPEC_SEQ, and the ends of the SPEC region; and one that changes it,
from an even value by the host's ANALYZE, and from an odd one by the analyzing step. -/
theorem test_witness_SpectrumChangesOnlyInAPublication :
    (Inv idleRun ∧ idleRun.nextTurn ≠ .reset ∧ nextIs (step idleRun) (fun t => t.specSeq == idleRun.specSeq) = true ∧
      0x02000000 ≤ 0x02000000 ∧ 0x03FFFFFF < 0x04000000) ∧
    (Inv analyzeRun ∧ analyzeRun.nextTurn ≠ .reset ∧ nextIs (step analyzeRun) (fun t => t.specSeq != analyzeRun.specSeq) = true) ∧
    (Inv publishing ∧ publishing.nextTurn ≠ .reset ∧ nextIs (step publishing) (fun t => t.specSeq != publishing.specSeq) = true) :=
  ⟨⟨test_witness_inv_idleRun, by decide, by decide +kernel, by decide, by decide⟩,
   ⟨test_witness_inv_analyzeRun, by decide, by decide +kernel⟩, ⟨test_witness_inv_publishing, by decide, by decide +kernel⟩⟩

/-- Each ownership bit set in a state with the invariant, and a step that goes on. -/
theorem test_witness_BufferInFlightIsUntouched :
    (Inv cancelRun ∧ cancelRun.nextTurn ≠ .reset ∧ cancelRun.txOwn = true ∧
      nextIs (step cancelRun) (fun t => t.txOwn) = true) ∧
    (Inv refillRun ∧ refillRun.nextTurn ≠ .reset ∧ refillRun.rxOwn = true ∧ refillRun.nextTurn ≠ .xport ∧
      nextIs (step refillRun) (fun t => t.rxOwn) = true) :=
  ⟨⟨test_witness_inv_cancelRun, by decide, rfl, by decide +kernel⟩,
   ⟨test_witness_inv_refillRun, by decide, rfl, by decide, by decide +kernel⟩⟩

theorem test_fair_alternating (s : State) : Fair alternating s := by
  refine fun n t _ => ⟨fun _ => ⟨2 * n + 1, by omega, ?_⟩, fun _ => ⟨2 * n, by omega, ?_⟩⟩
  · exact if_neg (by omega)
  · exact if_pos (by omega)

/-- A session with CANCEL, one in shutdown, and one in STREAMING with neither and no CANCEL to come, under a fair schedule. -/
theorem test_witness_ProgressOfSessions :
    (Inv cancelRun ∧ cancelRun.seq.inSession = true ∧ cancelRun.cancel = true ∧ Fair alternating cancelRun) ∧
    (Inv shutdownRun ∧ shutdownRun.seq.inSession = true ∧ shutdownRun.seq.state = .shuttingDown) ∧
    (Inv refillRun ∧ refillRun.seq.state = .streaming ∧ refillRun.cancel = false ∧ refillRun.program = [] ∧
      Fair alternating refillRun) ∧
    (∀ n, alternating n ≠ .reset) := by
  refine ⟨⟨test_witness_inv_cancelRun, rfl, rfl, test_fair_alternating _⟩, ⟨test_witness_inv_shutdownRun, rfl, rfl⟩,
    ⟨test_witness_inv_refillRun, rfl, rfl, rfl, test_fair_alternating _⟩, fun n => ?_⟩
  rw [alternating]
  split <;> decide

theorem test_witness_ShutdownReachesTerminated :
    Inv shutdownRun ∧ shutdownRun.seq = .sdReleaseLocal ∧ shutdownRun.xportOpen = true ∧
    shutdownRun.agenda = [.seq, .xport, .seq, .xport, .seq, .xport, .seq] :=
  ⟨test_witness_inv_shutdownRun, rfl, rfl, rfl⟩

theorem test_witness_CancellationLetsTheCycleComplete :
    Inv cancelRun ∧ cancelRun.seq = .strPushWait ∧ cancelRun.xreq = .push ∧ cancelRun.cancel = true ∧
    0 ≤ (cancelRun.draw 0).toInt ∧ 0 ≤ (cancelRun.draw 1).toInt ∧
    cancelRun.agenda = [.xport, .seq, .xport, .seq, .seq, .seq, .seq, .seq] :=
  ⟨test_witness_inv_cancelRun, rfl, rfl, rfl, by decide, by decide, rfl⟩

theorem test_witness_InvariantRunsAreSafe : Inv cancelRun ∧ Inv shutdownRun :=
  ⟨test_witness_inv_cancelRun, test_witness_inv_shutdownRun⟩

/-- The greatest integers that convert exactly. -/
theorem test_witness_IntegersConvertExactly :
    F64.ofInt (2 ^ 53) = 0x4340000000000000 ∧ F64.ofInt (-(2 ^ 53)) = 0xC340000000000000 ∧
    F64.ofInt (2 ^ 53 - 1) = 0x433FFFFFFFFFFFFF := by decide +kernel

/-- The greatest finite value plus itself overflows; a tie goes to even; the least value halved is a tie with zero. -/
theorem test_witness_ArithmeticRoundsToNearest :
    F64.isFinite 0x7FEFFFFFFFFFFFFF = true ∧ F64.add 0x7FEFFFFFFFFFFFFF 0x7FEFFFFFFFFFFFFF = 0x7FF0000000000000 ∧
    F64.add 0x4340000000000000 0x3FF0000000000000 = 0x4340000000000000 ∧
    F64.add 0x4340000000000001 0x3FF0000000000000 = 0x4340000000000002 ∧
    F64.mul 0x0000000000000001 0x3FE0000000000000 = 0 ∧ F64.scaled 0x3FF0000000000000 ≠ 0 := by decide +kernel

theorem test_witness_QuantiserSaturatesOrWraps :
    F64.isNaN 0x7FF0000000000001 = true ∧ F64.inf false = 0x7FF0000000000000 ∧ F64.inf true = 0xFFF0000000000000 ∧
    F64.isFinite 0xFFEFFFFFFFFFFFFF = true := by decide +kernel

/-- Two pairs (0, 0) and two window entries 1.0, analyzed at N = 2. -/
def zeroBlock : State :=
  { publishing with
    fftSize := 2
    mem := Memory.writeWord (Memory.fillWin [] (fun _ => F64.one) 2) 0x4000000 0 }

theorem test_witness_ZeroBlockGivesTheFloor :
    zeroBlock.seq = .strAnalyze ∧
    (∀ n < 2, zeroBlock.rxbuf n = { i := 0, q := 0 } ∧ F64.isFinite (zeroBlock.win n) = true) := by
  decide +kernel

end Sys2Proof.Tests
end

namespace Sys2Proof.Machine

/-- The (STATE, SUB) pairs that the table of R43 lists, in its order. -/
def SeqPos.codePairs : List (BitVec 3 × BitVec 3) :=
  [(0, 0),
    (1, 0), (1, 1), (1, 2),
    (2, 0), (2, 1), (2, 2), (2, 3), (2, 4), (2, 5),
    (3, 0), (3, 1), (3, 2), (3, 3),
    (4, 0),
    (5, 0), (5, 1), (5, 2)]

/-- A position has no code outside the table: each position is looked up in its own row. -/
theorem SeqPos.code_mem_codePairs (p : SeqPos) : (p.state.code, p.sub) ∈ SeqPos.codePairs := by
  cases p <;> decide

/-- Settles O15: the code functions are evaluated at each constructor, and the list of pairs is closed by
`SeqPos.code_mem_codePairs`. -/
theorem statusCodes : Obligations.StatusCodes := by
  unfold Obligations.StatusCodes
  refine ⟨?positions, ?errorKinds, ?causes, SeqPos.code_mem_codePairs⟩
  case positions => decide
  case errorKinds => decide
  case causes => decide

end Sys2Proof.Machine

namespace Sys2Proof.Machine

/-- An illegal access, at the instruction level: RD, WR and the row the decoder gives the write all answer with a bus
error and nothing else (R87, R328). -/
theorem exec_illegalAccess {s : State} {a : Offset} {width : Nat} (d : Word) (h : legalTarget s.par a width = none) :
    exec (.rd a width) s = .next (s.respond .err) ∧ exec (.wr a width d) s = .next (s.respond .err) ∧
    exec (decodeBus (.write a width d)) s = .next (s.respond .err) :=
  ⟨execRd_illegal h, execWr_illegal h, (execWr_eq_decodeBus a width d s).symm.trans (execWr_illegal h)⟩

/-- Settles O17: an access of another width has no target by `legalTarget_narrow`, and one of 64 bits at a misaligned
offset or in a hole of the map has none by `targetOf_none`; `exec_illegalAccess` answers it. -/
theorem illegalAccessIsABusError : Obligations.IllegalAccessIsABusError := by
  unfold Obligations.IllegalAccessIsABusError
  intro s a width d hp hillegal
  have hnone : legalTarget s.par a width = none := by
    by_cases hw : width = 64
    · subst hw
      rw [legalTarget_wide]
      exact targetOf_none hp (hillegal.resolve_left (fun hne => hne rfl))
    · exact legalTarget_narrow hw
  exact exec_illegalAccess d hnone

end Sys2Proof.Machine

namespace Sys2Proof

/-! ### Reserved command words (R123) -/

/-- The values of OP that R122 lists, in its order. -/
def opCodes : List (BitVec 8) := [0x00, 0x01, 0x02, 0x10, 0x11, 0x12]

theorem opTable_map_fst : opTable.map Prod.fst = opCodes := rfl

/-- The opcode table answers for exactly the values it lists. -/
theorem opTable_lookup_eq_none {op : BitVec 8} : opTable.lookup op = none ↔ op ∉ opCodes := by
  rw [List.lookup_eq_none_iff, ← opTable_map_fst, List.mem_map]
  simp only [bne_iff_ne, ne_comm, ne_eq, not_exists, not_and]

/-- The two ways a word has no mnemonic, RSV ≠ 0 or OP not listed: the two branches of `decodeOp`. -/
theorem decodeOp_eq_none_iff_fields {w : Word} :
    decodeOp w = none ↔ w.extractLsb' 8 56 ≠ 0 ∨ w.extractLsb' 0 8 ∉ opCodes := by
  unfold decodeOp
  split
  · next hrsv => simp only [opTable_lookup_eq_none, hrsv, ne_eq, not_true_eq_false, false_or]
  · next hrsv => exact iff_of_true rfl (.inl hrsv)

/-- A word is decoded as reserved only for want of a mnemonic: every mnemonic gives an instruction of its own. -/
theorem decodeCmd_eq_reservedCmd_iff {w : Word} : decodeCmd w = .reservedCmd w ↔ decodeOp w = none := by
  unfold decodeCmd
  cases decodeOp w with
  | none => simp
  | some op => cases op <;> simp

end Sys2Proof

namespace Sys2Proof.Machine

/-- A reserved word is acknowledged and only its rejection is recorded, in every state (R123, R326). -/
theorem exec_reservedCmd (w : Word) (s : State) :
    exec (.reservedCmd w) s = .next ((s.cmderr .reserved).respond .ack) := rfl

/-- Settles O4: a word is reserved when it has no mnemonic, which `decodeOp` decides by the fields RSV and OP; the next state
is that of `exec_reservedCmd`, its bus answer ACK. -/
theorem otherCommandWordsAreReserved : Obligations.OtherCommandWordsAreReserved := by
  unfold Obligations.OtherCommandWordsAreReserved
  refine ⟨?reservedWords, ?rejection⟩
  case reservedWords => exact fun w => decodeCmd_eq_reservedCmd_iff.trans decodeOp_eq_none_iff_fields
  case rejection => exact fun w s => ⟨.ack, exec_reservedCmd w s⟩

end Sys2Proof.Machine

namespace Sys2Proof.Machine

/-! ### The window generator run by hand (R160) -/

/-- The window generator fills its `N` entries with the Hann taper and keeps every byte outside them. -/
theorem State.buildWindow_mem (s : State) :
    (∀ j, j < s.n → s.buildWindow.win j = hann64 j s.n) ∧
    (∀ a, a < winBase ∨ winBase + 8 * s.n ≤ a → s.buildWindow.byteAt a = s.byteAt a) :=
  ⟨fun _ hj => State.win_fillWin (val := fun j => hann64 j s.n) rfl hj,
    fun _ ha => State.byteAt_fill_outside rfl rfl (by decide) ha⟩

/-- Settles O36: the step is `buildWindow` followed by a `goto`, which leaves RAM alone, so `State.buildWindow_mem` says
what RAM holds; `hann64` is the formula of R191 as written. -/
theorem diagWindowStep : Obligations.DiagWindowStep := by
  unfold Obligations.DiagWindowStep
  intro s hs
  obtain ⟨htaper, houtside⟩ := s.buildWindow_mem
  exact ⟨s.buildWindow.goto .idle, seqTurn_diagWgen hs, htaper, houtside, rfl⟩

/-! ### The commands (R153 to R159) -/

/-- NOP is acknowledged and does nothing (R154). -/
theorem exec_nop (s : State) : exec .nop s = .next (s.respond .ack) := rfl

/-- Settles O7: only the bus answer of `exec_nop` is new. -/
theorem nopChangesNothing : Obligations.NopChangesNothing := fun s => ⟨.ack, exec_nop s⟩

/-- The commands that R153 rejects outside IDLE. -/
def idleCommands : List Instr := [.start, .wgen, .analyze, .synth]

/-- The common rejection: outside IDLE such a command records cause STATE and does nothing else (R153, R326). -/
theorem exec_idleCommand_outsideIdle {i : Instr} {s : State} (hi : i ∈ idleCommands) (hs : s.seq ≠ .idle) :
    exec i s = .next ((s.cmderr .state).respond .ack) := by
  simp only [idleCommands, List.mem_cons, List.not_mem_nil, or_false] at hi
  rcases hi with rfl | rfl | rfl | rfl <;>
    simp only [exec, execStart, execWgen, execAnalyze, execSynth, State.inIdleElse_other hs]

/-- START in IDLE (R155). -/
theorem exec_start_idle {s : State} (hs : s.seq = .idle) :
    exec .start s = .next (State.respond { s with cancel := false, err := .none, seq := .initCheck } .ack) := by
  rw [exec, execStart, State.inIdleElse_idle hs]

/-- WGEN in IDLE, its checks in order (R157). -/
theorem exec_wgen_idle {s : State} (hs : s.seq = .idle) :
    exec .wgen s = .next (State.respond
      (if s.fftSize.toNat = 0 ∨ s.par.nmax < s.fftSize.toNat then s.cmderr .config
       else if s.fftSize.toNat = 1 then s.cmderr .divzero else s.goto .diagWgen) .ack) := by
  rw [exec, execWgen, State.inIdleElse_idle hs]

/-- ANALYZE in IDLE (R158). -/
theorem exec_analyze_idle {s : State} (hs : s.seq = .idle) :
    exec .analyze s = .next (State.respond
      (if s.sizeLegal && s.rateLegal then s.bumpSpecSeq.goto .diagAnalyze else s.cmderr .config) .ack) := by
  rw [exec, execAnalyze, State.inIdleElse_idle hs]

/-- SYNTH in IDLE (R159). -/
theorem exec_synth_idle {s : State} (hs : s.seq = .idle) :
    exec .synth s = .next (State.respond
      (if s.rateLegal && s.tonesLegal then s.goto .diagSynth else s.cmderr .config) .ack) := by
  rw [exec, execSynth, State.inIdleElse_idle hs]

/-- Settles O8: in IDLE by `exec_start_idle`, elsewhere by the common rejection. -/
theorem startBeginsASession : Obligations.StartBeginsASession := by
  unfold Obligations.StartBeginsASession
  intro s
  refine ⟨?inIdle, ?outsideIdle⟩
  case inIdle => exact fun hs => ⟨.ack, exec_start_idle hs⟩
  case outsideIdle => exact fun hs => ⟨.ack, exec_idleCommand_outsideIdle (by simp [idleCommands]) hs⟩

/-- Settles O10: the three cases in IDLE are the three branches of `exec_wgen_idle`. -/
theorem wgenCommand : Obligations.WgenCommand := by
  unfold Obligations.WgenCommand
  intro s
  refine ⟨?outsideIdle, ?config, ?divzero, ?starts⟩
  case outsideIdle => exact fun hs => ⟨.ack, exec_idleCommand_outsideIdle (by simp [idleCommands]) hs⟩
  case config =>
    intro hs hbad
    exact ⟨.ack, by rw [exec_wgen_idle hs, if_pos hbad]; rfl⟩
  case divzero =>
    intro hs hone hmax
    have hlegal : ¬ (s.fftSize.toNat = 0 ∨ s.par.nmax < s.fftSize.toNat) := by omega
    exact ⟨.ack, by rw [exec_wgen_idle hs, if_neg hlegal, if_pos hone]; rfl⟩
  case starts =>
    intro hs htwo hmax
    have hlegal : ¬ (s.fftSize.toNat = 0 ∨ s.par.nmax < s.fftSize.toNat) := by omega
    have hnotOne : s.fftSize.toNat ≠ 1 := by omega
    exact ⟨.ack, by rw [exec_wgen_idle hs, if_neg hlegal, if_neg hnotOne]; rfl⟩

/-- What ANALYZE checks, as R158 writes it. -/
theorem State.analyzeLegal_iff {s : State} : (s.sizeLegal && s.rateLegal) = true ↔
    (1 ≤ s.fftSize.toNat ∧ s.fftSize.toNat ≤ min s.par.nmax s.par.blockLen) ∧
    F64.isFinite s.sampleRate = true ∧ F64.isPos s.sampleRate = true := by
  rw [Bool.and_eq_true, State.sizeLegal_iff, State.rateLegal_iff]

/-- Settles O11: the two cases in IDLE are the two branches of `exec_analyze_idle`, told apart by
`State.analyzeLegal_iff`. -/
theorem analyzeCommand : Obligations.AnalyzeCommand := by
  unfold Obligations.AnalyzeCommand
  intro s
  refine ⟨?outsideIdle, ?config, ?starts⟩
  case outsideIdle => exact fun hs => ⟨.ack, exec_idleCommand_outsideIdle (by simp [idleCommands]) hs⟩
  case config =>
    intro hs hbad
    have hillegal : ¬ (s.sizeLegal && s.rateLegal) = true := by
      rw [State.analyzeLegal_iff]
      rintro ⟨⟨hpos, hmax⟩, hrate⟩
      rcases hbad with hzero | hlarge | hnorate
      · omega
      · omega
      · exact hnorate hrate
    exact ⟨.ack, by rw [exec_analyze_idle hs, if_neg hillegal]; rfl⟩
  case starts =>
    intro hs hpos hmax hfinite hrate
    have hlegal := State.analyzeLegal_iff.mpr ⟨⟨hpos, hmax⟩, hfinite, hrate⟩
    exact ⟨.ack, by rw [exec_analyze_idle hs, if_pos hlegal]; rfl⟩

/-- What SYNTH checks, as R159 writes it. -/
theorem State.synthLegal_iff {s : State} : (s.rateLegal && s.tonesLegal) = true ↔
    F64.isFinite s.sampleRate = true ∧ F64.isPos s.sampleRate = true ∧ F64.isFinite s.toneA = true ∧
    F64.isFinite s.toneF1 = true ∧ F64.isFinite s.toneF2 = true := by
  rw [Bool.and_eq_true, State.rateLegal_iff, State.tonesLegal_iff, and_assoc]

/-- Settles O12: the two cases in IDLE are the two branches of `exec_synth_idle`, told apart by `State.synthLegal_iff`. -/
theorem synthCommand : Obligations.SynthCommand := by
  unfold Obligations.SynthCommand
  intro s
  refine ⟨?outsideIdle, ?config, ?starts⟩
  case outsideIdle => exact fun hs => ⟨.ack, exec_idleCommand_outsideIdle (by simp [idleCommands]) hs⟩
  case config =>
    intro hs hbad
    have hillegal := mt State.synthLegal_iff.mp hbad
    exact ⟨.ack, by rw [exec_synth_idle hs, if_neg hillegal]; rfl⟩
  case starts =>
    intro hs hfinite hrate hA hF1 hF2
    have hlegal := State.synthLegal_iff.mpr ⟨hfinite, hrate, hA, hF1, hF2⟩
    exact ⟨.ack, by rw [exec_synth_idle hs, if_pos hlegal]; rfl⟩

/-! ### Writes of STATUS and of the configuration registers (R163, R164) -/

/-- A write of STATUS is acknowledged and clears the bits it names, in every state. -/
theorem exec_wrStatus (d : Word) (s : State) : exec (.wrStatus d) s = .next ((s.statusW1C d).respond .ack) := rfl

/-- Settles O18: the next state of `exec_wrStatus` is the update `statusW1C`, which writes the three fields and no other. -/
theorem statusWriteClearsStickyBits : Obligations.StatusWriteClearsStickyBits :=
  fun s d => ⟨.ack, exec_wrStatus d s⟩

theorem exec_wrConfig_idle {s : State} (r : ConfigReg) (d : Word) (hs : s.seq = .idle) :
    exec (.wrConfig r d) s = .next ((s.setConfig r d).respond .ack) := by
  rw [exec, execWrConfig, if_pos hs]

theorem exec_wrConfig_outsideIdle {s : State} (r : ConfigReg) (d : Word) (hs : s.seq ≠ .idle) :
    exec (.wrConfig r d) s = .next (s.accerr.respond .ack) := by
  rw [exec, execWrConfig, if_neg hs]

/-- No register shows what the bus last answered. -/
@[simp] theorem State.readReg_respond (s : State) (b : BusResp) (r : Reg) : (s.respond b).readReg r = s.readReg r := by
  cases r <;> rfl

/-- A configuration write changes the eight configuration fields at most. -/
theorem State.setConfig_frame (s : State) (r : ConfigReg) (d : Word) :
    s.setConfig r d = { s with
      ctrlWrap := (s.setConfig r d).ctrlWrap, fftSize := (s.setConfig r d).fftSize
      sampleRate := (s.setConfig r d).sampleRate, toneA := (s.setConfig r d).toneA
      toneF1 := (s.setConfig r d).toneF1, toneF2 := (s.setConfig r d).toneF2
      dbFloor := (s.setConfig r d).dbFloor, phase := (s.setConfig r d).phase } := by
  cases r <;> rfl

/-- Settles O19: in IDLE the registers are those of `State.readReg_setConfig`, the rest that of `State.setConfig_frame`,
both under the bus answer, which no register shows; outside IDLE the write is `accerr`. -/
theorem configurationWrite : Obligations.ConfigurationWrite := by
  unfold Obligations.ConfigurationWrite
  intro s r d
  refine ⟨?inIdle, ?outsideIdle⟩
  case inIdle =>
    intro hs
    obtain ⟨hwritten, hothers⟩ := s.readReg_setConfig r d
    refine ⟨(s.setConfig r d).respond .ack, exec_wrConfig_idle r d hs, ?_, ?_, ?_⟩
    · rw [State.readReg_respond, hwritten]
    · intro r' hr
      rw [State.readReg_respond, hothers r' hr]
    · exact congrArg (State.respond · .ack) (s.setConfig_frame r d)
  case outsideIdle => exact fun hs => ⟨.ack, exec_wrConfig_outsideIdle r d hs⟩

end Sys2Proof.Machine

namespace Sys2Proof.Machine

/-! ### The published spectrum (R212 to R222) -/

/-- The spectral engine fills its `N` entries with frequency and dB and keeps every byte outside them. -/
theorem State.spectrumFn_mem (s : State) :
    (∀ k, k < s.n → s.spectrumFn.specFreq k = binFreq s.n s.sampleRate k ∧ s.spectrumFn.specMag k = s.binDb k) ∧
    (∀ a, a < specBase ∨ specBase + 16 * s.n ≤ a → s.spectrumFn.byteAt a = s.byteAt a) :=
  ⟨fun _ hk => State.spec_fillSpec (freq := binFreq s.n s.sampleRate) (mag := s.binDb) rfl hk,
    fun _ ha => State.byteAt_fill_outside rfl rfl (by decide) ha⟩

/-- Where an analyzing position goes on: in a session to COUNT, else back to IDLE (R271, R161). -/
def State.afterAnalyze (s : State) : SeqPos := if s.seq = .strAnalyze then .strCount else .idle

/-- Both analyzing positions write the spectrum and end the publication. -/
theorem seqTurn_analyzing {s : State} (hs : s.seq = .strAnalyze ∨ s.seq = .diagAnalyze) :
    seqTurn s = .next (s.spectrumFn.bumpSpecSeq.goto s.afterAnalyze) := by
  rcases hs with hstr | hdiag
  case inl => rw [seqTurn_strAnalyze hstr, State.afterAnalyze, if_pos hstr, seqStrAnalyze]
  case inr =>
    have hnotStr : s.seq ≠ .strAnalyze := by rw [hdiag]; decide
    rw [seqTurn_diagAnalyze hdiag, State.afterAnalyze, if_neg hnotStr, seqDiagAnalyze]

/-- Settles O33: ending the publication leaves RAM alone, so `State.spectrumFn_mem` says what RAM holds; `binFreq` is the
formula of R218 as written, and `State.binDb` that of R217 over the transform of the windowed samples, which the equations
for `xr`, `xi` and `m` name. -/
theorem analyzePublishesTheSpectrum : Obligations.AnalyzePublishesTheSpectrum := by
  unfold Obligations.AnalyzePublishesTheSpectrum
  rintro s _ _ _ hs rfl rfl rfl
  obtain ⟨hspectrum, houtside⟩ := s.spectrumFn_mem
  exact ⟨s.spectrumFn.bumpSpecSeq.goto s.afterAnalyze, seqTurn_analyzing hs, hspectrum, houtside, rfl⟩

end Sys2Proof.Machine

namespace Sys2Proof.Machine

/-! ### The synthesized block (R241, R245) -/

/-- The synthesizer fills the BLOCK_LEN pairs of TXBUF, each at its own phase, and keeps every byte outside them. -/
theorem State.synthBlock_mem (s : State) :
    (∀ i, i < s.par.blockLen → s.synthBlock.txbuf i = s.synthFn (phaseAfter s.phase s.phaseInc i)) ∧
    (∀ a, a < txBase ∨ txBase + 4 * s.par.blockLen ≤ a → s.synthBlock.byteAt a = s.byteAt a) :=
  ⟨fun _ hi => State.txbuf_fillTx (val := fun i => s.synthFn (phaseAfter s.phase s.phaseInc i)) rfl hi,
    fun _ ha => State.byteAt_fill_outside rfl rfl (by decide) ha⟩

/-- Settles O35: the accumulator is `phaseAfter`, whose recursion is the one asked for. The step is `synthBlock` followed by
a `goto`, which leaves RAM alone, so `State.synthBlock_mem` says what RAM holds; `State.synthFn` is the formula of R241 as
written. -/
theorem synthWritesTheBlock : Obligations.SynthWritesTheBlock := by
  unfold Obligations.SynthWritesTheBlock
  intro s hs
  obtain ⟨hsamples, houtside⟩ := s.synthBlock_mem
  refine ⟨s.synthBlock.goto .strCk, phaseAfter s.phase s.phaseInc, seqTurn_strSynth hs, rfl, fun _ => rfl, ?samples,
    houtside, rfl⟩
  case samples => exact fun i hi => ⟨congrArg IQ.i (hsamples i hi), congrArg IQ.q (hsamples i hi)⟩

/-! ### The quantiser (R244) -/

/-- The integer part of a finite value is its exact quotient, truncated toward zero. -/
theorem F64.trunc_eq_tdiv (x : Word) : F64.trunc x = (F64.scaled x).tdiv F64.unit := by
  rw [F64.trunc, F64.scaled]
  cases F64.sign x
  case false => exact (Int.ofNat_tdiv _ _).symm
  case true => exact ((Int.neg_tdiv _ _).trans (congrArg Neg.neg (Int.ofNat_tdiv _ _).symm)).symm

/-- An infinity is no NaN, and has the sign it was made with. -/
theorem F64.inf_cases (sign : Bool) :
    F64.isNaN (F64.inf sign) = false ∧ F64.isInf (F64.inf sign) = true ∧ F64.sign (F64.inf sign) = sign := by
  cases sign <;> decide

theorem quant_of_isNaN (wrap : Bool) {x : Word} (h : F64.isNaN x = true) : quant wrap x = 0 := if_pos h

theorem toInt_quant_inf (wrap sign : Bool) :
    (quant wrap (F64.inf sign)).toInt = if sign then -32768 else 32767 := by
  obtain ⟨hnan, hinf, hsign⟩ := F64.inf_cases sign
  rw [quant, hnan, hinf, hsign]
  cases sign <;> rfl

theorem clamp16_bounds (v : Int) : -32768 ≤ clamp16 v ∧ clamp16 v < 32768 := by
  rw [clamp16]
  omega

/-- Of a finite value the saturated or wrapped integer part lies in the s16 range, so it reads back from the 16 bits. -/
theorem toInt_quant_of_isFinite (wrap : Bool) {x : Word} (h : F64.isFinite x = true) :
    (quant wrap x).toInt = if wrap then (F64.trunc x + 32768) % 65536 - 32768 else clamp16 (F64.trunc x) := by
  obtain ⟨hnan, hinf⟩ := F64.finite_cases h
  rw [quant, hnan, hinf]
  cases wrap
  case false =>
    obtain ⟨hlow, hhigh⟩ := clamp16_bounds (F64.trunc x)
    exact BitVec.toInt_ofInt_eq_self (by decide) hlow hhigh
  case true => exact BitVec.toInt_ofInt_eq_self (by decide) (by omega) (by omega)

/-- Settles O58: NaNs, infinities and finite values are one equation of `quant` each; `F64.trunc_eq_tdiv` says which integer
`F64.trunc` is. -/
theorem quantiserSaturatesOrWraps : Obligations.QuantiserSaturatesOrWraps := by
  unfold Obligations.QuantiserSaturatesOrWraps
  intro wrap x
  rw [← F64.trunc_eq_tdiv]
  exact ⟨quant_of_isNaN wrap, fun hplus => hplus ▸ toInt_quant_inf wrap false,
    fun hminus => hminus ▸ toInt_quant_inf wrap true, toInt_quant_of_isFinite false, toInt_quant_of_isFinite true⟩

end Sys2Proof.Machine

namespace Sys2Proof.Machine

/-! ### The building of a session (R267) -/

/-- The taper and the zero block lie in RAMs that do not meet, so BUILD leaves both behind and every byte outside them
alone. -/
theorem State.build_mem {s : State} (hp : s.par.Legal) (hn : s.n ≤ s.par.nmax) :
    (∀ j, j < s.n → s.build.win j = hann64 j s.n) ∧
    (∀ i, i < s.par.blockLen → s.build.txbuf i = { i := 0, q := 0 }) ∧
    (∀ a, ¬ (winBase ≤ a ∧ a < winBase + 8 * s.n) → ¬ (txBase ≤ a ∧ a < txBase + 4 * s.par.blockLen) →
      s.build.byteAt a = s.byteAt a) := by
  obtain ⟨htaper, houtside⟩ := s.buildWindow_mem
  have hzeroBlock : ∀ a, a < txBase ∨ txBase + 4 * s.par.blockLen ≤ a → s.build.byteAt a = s.buildWindow.byteAt a :=
    fun _ ha => State.byteAt_fill_outside rfl rfl (by decide) ha
  refine ⟨?taper, ?block, ?frame⟩
  case taper =>
    intro j hj
    obtain ⟨-, -, -, -, -, -, hnmax⟩ := hp
    have hbelow : winAddr j + 8 ≤ txBase := by
      simp only [winAddr, winBase, txBase]
      omega
    exact (State.wordAt_congr fun a _ ha => hzeroBlock a (by omega)).trans (htaper j hj)
  case block => exact fun i hi => State.txbuf_fillTx (val := fun _ => { i := 0, q := 0 }) rfl hi
  case frame =>
    intro a hwin htx
    rw [hzeroBlock a (by omega), houtside a (by omega)]

/-- Settles O29: the two clauses are the two branches of `seqInitBuild`; `State.build_mem` says what RAM holds after the
second, whose register updates are those of `State.build`. -/
theorem buildPreparesTheSession : Obligations.BuildPreparesTheSession := by
  unfold Obligations.BuildPreparesTheSession
  intro s hs
  refine ⟨?dividesByZero, ?builds⟩
  case dividesByZero =>
    intro hn
    rw [seqTurn_initBuild hs, seqInitBuild, if_pos hn]
    rfl
  case builds =>
    intro hp htwo hmax
    obtain ⟨htaper, hblock, hframe⟩ := State.build_mem hp hmax
    exact ⟨s.build, by rw [seqTurn_initBuild hs, seqInitBuild, if_neg (Nat.not_lt.mpr htwo)], htaper, hblock, hframe, rfl⟩

end Sys2Proof.Machine

namespace Sys2Proof.Machine

/-! ### The checks of INIT (R265) -/

/-- What CHECK asks of the configuration, as R265 writes it. -/
theorem State.sessionLegal_iff {s : State} : (s.sizeLegal && s.rateLegal && s.tonesLegal) = true ↔
    ((1 ≤ s.fftSize.toNat ∧ s.fftSize.toNat ≤ min s.par.nmax s.par.blockLen) ∧
      F64.isFinite s.sampleRate = true ∧ F64.isPos s.sampleRate = true) ∧
    F64.isFinite s.toneA = true ∧ F64.isFinite s.toneF1 = true ∧ F64.isFinite s.toneF2 = true := by
  rw [Bool.and_eq_true, State.analyzeLegal_iff, State.tonesLegal_iff]

/-- Settles O27: the two clauses are the two branches of `seqInitCheck`, told apart by `State.sessionLegal_iff`; the second
issues its request on an empty port. -/
theorem initChecksTheConfiguration : Obligations.InitChecksTheConfiguration := by
  unfold Obligations.InitChecksTheConfiguration
  intro s hs
  rw [seqTurn_initCheck hs, seqInitCheck]
  refine ⟨?fails, ?passes⟩
  case fails =>
    intro hbad
    have hillegal : ¬ (s.sizeLegal && s.rateLegal && s.tonesLegal) = true := by
      rw [State.sessionLegal_iff]
      rintro ⟨⟨⟨hpos, hmax⟩, hrate⟩, htones⟩
      rcases hbad with hzero | hlarge | hnorate | hnotones
      · omega
      · omega
      · exact hnorate hrate
      · exact hnotones htones
    rw [if_neg hillegal]
    rfl
  case passes =>
    intro hpos hmax hfinite hrate hA hF1 hF2 hreq hresp
    rw [if_pos (State.sessionLegal_iff.mpr ⟨⟨⟨hpos, hmax⟩, hfinite, hrate⟩, hA, hF1, hF2⟩),
      State.issue_of_empty hreq hresp]

/-! ### The responses a session tests (R266, R269, R270) -/

theorem ite_respNegative_of_neg {α : Type} {r : Word} (hr : r.toInt < 0) (failed accepted : α) :
    (if respNegative r then failed else accepted) = failed :=
  if_pos (respNegative_true.mpr hr)

theorem ite_respNegative_of_nonneg {α : Type} {r : Word} (hr : 0 ≤ r.toInt) (failed accepted : α) :
    (if respNegative r then failed else accepted) = accepted :=
  if_neg (Bool.not_eq_true _ ▸ respNegative_false.mpr hr)

/-- Settles O28: the sign of the response chooses the branch of `seqInitCfgWait`. -/
theorem configureResponse : Obligations.ConfigureResponse := by
  unfold Obligations.ConfigureResponse
  intro s r hs hresp
  rw [seqTurn_initCfgWait hs, onResponse_some hresp, seqInitCfgWait]
  refine ⟨?fails, ?opens⟩
  case fails =>
    intro hr
    rw [ite_respNegative_of_neg hr]
    rfl
  case opens =>
    intro hr
    rw [ite_respNegative_of_nonneg hr]

/-- Settles O31: the sign of the response chooses the branch of `seqStrPushWait`; the accepted one issues its request on a
port that the consumed response has left empty. -/
theorem pushResponse : Obligations.PushResponse := by
  unfold Obligations.PushResponse
  intro s r hs hresp
  rw [seqTurn_strPushWait hs, onResponse_some hresp, seqStrPushWait]
  refine ⟨?fails, ?refills⟩
  case fails =>
    intro hr
    rw [ite_respNegative_of_neg hr]
    rfl
  case refills =>
    intro hr hreq
    rw [ite_respNegative_of_nonneg hr]
    exact State.issue_of_empty hreq rfl

/-- Settles O32: the sign of the response chooses the branch of `seqStrRefillWait`; only the accepted one bumps
SPEC_SEQ. -/
theorem refillResponse : Obligations.RefillResponse := by
  unfold Obligations.RefillResponse
  intro s r hs hresp
  rw [seqTurn_strRefillWait hs, onResponse_some hresp, seqStrRefillWait]
  refine ⟨?fails, ?publishes⟩
  case fails =>
    intro hr
    rw [ite_respNegative_of_neg hr]
    rfl
  case publishes =>
    intro hr
    rw [ite_respNegative_of_nonneg hr]
    rfl

/-! ### The cumulative counters (R272) -/

/-- The quotient fits its register, so no bit of it is lost. -/
theorem State.toNat_samplesOf (s : State) (bytes : Word) :
    (s.samplesOf bytes).toNat = bytes.toNat / s.par.sampleBytes :=
  Nat.mod_eq_of_lt ((Nat.div_le_self _ _).trans_lt bytes.isLt)

/-- A counter grows by the integer quotient of a byte count that is not negative, modulo 2^64. -/
theorem State.toNat_add_samplesOf (s : State) (count : Word) {bytes : Word} (hbytes : 0 ≤ bytes.toInt) :
    ((count + s.samplesOf bytes).toNat : Int) =
      ((count.toNat : Int) + bytes.toInt / (s.par.sampleBytes : Int)) % 2 ^ 64 := by
  have hsign : bytes.toInt = bytes.toNat :=
    BitVec.toInt_eq_toNat_of_msb (respNegative_false.mpr hbytes)
  rw [BitVec.toNat_add, s.toNat_samplesOf, hsign]
  norm_cast

/-- Settles O34: the next state is that of `seqStrCount`; both counters grow as `State.toNat_add_samplesOf` says. -/
theorem countStep : Obligations.CountStep := by
  unfold Obligations.CountStep
  intro s hs hrx htx _
  exact ⟨_, seqTurn_strCount hs, s.toNat_add_samplesOf s.rxCount hrx, s.toNat_add_samplesOf s.txCount htx, rfl, rfl⟩

/-! ### The release sequence (R277 to R280) -/

/-- Settles O38: each clause is one step of the sequence; the steps that issue find the port empty, those after a response
because they have just consumed it. -/
theorem releaseSteps : Obligations.ReleaseSteps := by
  unfold Obligations.ReleaseSteps
  intro s r
  refine ⟨?localOnly, ?releaseTx, ?releaseRx, ?close, ?terminates⟩
  case localOnly =>
    intro hs hclosed
    rw [seqTurn_sdReleaseLocal hs, seqSdReleaseLocal, hclosed, if_neg Bool.false_ne_true]
  case releaseTx =>
    intro hs hopen hreq hresp
    rw [seqTurn_sdReleaseLocal hs, seqSdReleaseLocal, if_pos hopen]
    exact State.issue_of_empty hreq hresp
  case releaseRx =>
    intro hs hresp hreq
    rw [seqTurn_sdRelTxWait hs, onResponse_some hresp]
    exact State.issue_of_empty hreq rfl
  case close =>
    intro hs hresp hreq
    rw [seqTurn_sdRelRxWait hs, onResponse_some hresp]
    exact State.issue_of_empty hreq rfl
  case terminates =>
    intro hs hresp
    rw [seqTurn_sdCloseWait hs, onResponse_some hresp, seqSdCloseWait]

end Sys2Proof.Machine

namespace Sys2Proof

open Sys2Proof.Laws

/-! ### Encodings (R121, R129, R131, R133) -/

/-- Settles O1: one round trip for each row of the opcode table. -/
theorem decodeInvertsEncode : Obligations.DecodeInvertsEncode := by
  unfold Obligations.DecodeInvertsEncode
  intro i
  cases i with
  | nop => exact RoundTrip.nop
  | start => exact RoundTrip.start
  | cancel => exact RoundTrip.cancel
  | wgen => exact RoundTrip.wgen
  | analyze => exact RoundTrip.analyze
  | synth => exact RoundTrip.synth
  | reservedCmd w => exact RoundTrip.reservedCmd w
  | rd a width => exact RoundTrip.rd a width
  | wr a width d => exact RoundTrip.wr a width d
  | wrStatus d => exact RoundTrip.wrStatus d
  | wrConfig r d => exact RoundTrip.wrConfig r d
  | wrRam t d => exact RoundTrip.wrRam t d
  | treqConfigure => exact RoundTrip.treqConfigure
  | treqPush => exact RoundTrip.treqPush
  | treqRefill => exact RoundTrip.treqRefill
  | treqReleaseTx => exact RoundTrip.treqReleaseTx
  | treqReleaseRx => exact RoundTrip.treqReleaseRx
  | treqClose => exact RoundTrip.treqClose

end Sys2Proof


namespace Sys2Proof.Machine

/-! ### The step, agent by agent -/

/-- The state a turn is taken from: the turn is no longer to come. -/
def State.spendTurn (s : State) : State := { s with agenda := s.agenda.tail }

theorem step_eq (s : State) : step s = turn s.nextTurn s.spendTurn := rfl

/-- Everything a step can do, one case for each agent. -/
theorem step_cases {s t : State} (h : step s = .next t) :
    (s.nextTurn = .host ∧ HostTurnEffect s.spendTurn t) ∨ (s.nextTurn = .seq ∧ SeqEffect s.spendTurn t) ∨
    (s.nextTurn = .xport ∧ XportEffect s.spendTurn t) ∨ (s.nextTurn = .reset ∧ t = s.spendTurn.resetStep) := by
  have heffect := step_next h
  cases hturn : s.nextTurn <;> simp only [hturn] at heffect
  case host => exact .inl ⟨rfl, heffect⟩
  case seq => exact .inr (.inl ⟨rfl, heffect⟩)
  case xport => exact .inr (.inr (.inl ⟨rfl, heffect⟩))
  case reset => exact .inr (.inr (.inr ⟨rfl, heffect⟩))

/-- A read changes nothing but what the bus answered and the draws (R91; log 23). -/
theorem ReadEffect.frame {s t : State} (h : ReadEffect s t) :
    t = { s with bus := t.bus, oracle := t.oracle, drawn := t.drawn } := by
  cases h <;> rfl

/-! ### The table of transitions (R263) -/

/-- A bus transaction moves the sequencer only out of IDLE, by a command. -/
theorem HostEffect.seq_transition {b : BusAccess} {s t : State} (h : HostEffect b s t) :
    t.seq = s.seq ∨ (s.seq, t.seq) ∈ hostTransitions := by
  cases h with
  | answered | drew | rejected | refused | cleared | cancelled | stored => exact .inl rfl
  | configured r d => exact .inl (by simp)
  | started _ hs | wgen hs | analyze _ hs | synth hs => exact .inr (by simp [hostTransitions, hs])

theorem HostTurnEffect.seq_transition {s t : State} (h : HostTurnEffect s t) :
    t.seq = s.seq ∨ (s.seq, t.seq) ∈ hostTransitions := by
  cases h with
  | nothing => exact .inl rfl
  | access b rest _ _ ht => exact ht.seq_transition
  | poll a mask value rest _ t ht =>
    rw [ht.frame]
    exact .inl rfl

/-- SEQ's turn moves along a row of the table, unless its step is not enabled and nothing changes. -/
theorem SeqEffect.stays_or_moves {s t : State} (h : SeqEffect s t) :
    (t = s ∧ ¬ SeqEnabled s) ∨ (s.seq, t.seq) ∈ seqTransitions := by
  cases h with
  | rests hs => exact .inl ⟨rfl, fun ⟨hidle, hterminated, _⟩ => hs.elim hidle hterminated⟩
  | waits hawaits hresp => exact .inl ⟨rfl, fun ⟨_, _, hready⟩ => hready hawaits hresp⟩
  | built hs => exact .inr (by simp [seqTransitions, State.build, hs])
  | checkFails hs | checked hs | configureFails _ hs | configured _ hs | dividesByZero hs | cancelled hs | pushes hs
  | pushFails _ hs | refills _ hs | refillFails _ hs | publishes _ hs | analyzes hs | counts hs | synthesizes hs
  | releases hs | releasesLocal hs | releasedTx _ hs | releasedRx _ hs | closed _ hs | diagWindow hs | diagSpectrum hs
  | diagBlock hs => exact .inr (by simp [seqTransitions, hs])

theorem SeqEffect.seq_transition {s t : State} (h : SeqEffect s t) :
    t.seq = s.seq ∨ (s.seq, t.seq) ∈ seqTransitions :=
  h.stays_or_moves.imp (fun hstays => congrArg State.seq hstays.1) id

/-- The transport does not move the sequencer. -/
theorem XportEffect.seq_eq {s t : State} (h : XportEffect s t) : t.seq = s.seq := by
  cases h <;> rfl

/-- Settles O46: the effect of the next turn moves the sequencer as that agent may. -/
theorem transitionTable : Obligations.TransitionTable := by
  unfold Obligations.TransitionTable
  intro s t hstep
  rcases step_cases hstep with ⟨hturn, heffect⟩ | ⟨hturn, heffect⟩ | ⟨hturn, heffect⟩ | ⟨hturn, heffect⟩ <;> rw [hturn]
  case inl => exact heffect.seq_transition
  case inr.inl => exact heffect.seq_transition
  case inr.inr.inl => exact heffect.seq_eq
  case inr.inr.inr => exact congrArg State.seq heffect

end Sys2Proof.Machine

namespace Sys2Proof.Machine

/-! ### The invariant (R69, R262, R274) -/

/-- RAM in its canonical form, with nothing written but entries that exist. -/
def RamLegal (p : Params) (m : Memory) : Prop := m.wf = true ∧ ∀ c ∈ m, mapped p c.1

/-- The part of the invariant that no position settles: the parameters, RAM, and the recorded cause. -/
structure Static (s : State) : Prop where
  par : s.par.Legal
  ram : RamLegal s.par s.mem
  cause : s.cmdErr = true ↔ s.cmdErrCause ≠ .none

/-- The flags as a position other than RELEASE_LOCAL settles them; RELEASE_LOCAL may find plan, sink and transport held
or not. -/
structure Flags (s : State) (p : SeqPos) : Prop where
  txOwn : s.txOwn = (p == .strPushWait)
  rxOwn : s.rxOwn = (p == .strRefillWait)
  plan : s.planValid = (p.state == .streaming)
  sink : s.sinkOpen = (p.state == .streaming)
  xport : s.xportOpen = p.xportMustBeOpen
  publishing : s.publishing = (p == .strAnalyze || p == .diagAnalyze)

theorem Inv.static {s : State} (h : Inv s) : Static s := ⟨h.par, ⟨h.memWf, h.memMapped⟩, h.cause⟩

theorem Inv.flags {s : State} {p : SeqPos} (h : Inv s) (hs : s.seq = p) (hp : p ≠ .sdReleaseLocal) : Flags s p := by
  subst hs
  have hplan : s.planValid = (s.seq.state == .streaming) := by
    rw [Bool.eq_iff_iff, beq_iff_eq]
    exact ⟨fun hv => (h.plan hv).resolve_right hp, h.planHeld⟩
  exact {
    txOwn := by rw [Bool.eq_iff_iff, beq_iff_eq, h.txOwn]
    rxOwn := by rw [Bool.eq_iff_iff, beq_iff_eq, h.rxOwn]
    plan := hplan
    sink := h.sink.trans hplan
    xport := Bool.eq_iff_iff.mpr ⟨fun ho => (h.xportClosed ho).resolve_right hp, h.xportOpen⟩
    publishing := by rw [Bool.eq_iff_iff, Bool.or_eq_true, beq_iff_eq, beq_iff_eq, h.specSeq] }

/-- The invariant from its parts, where the flags are those the position settles. -/
theorem Inv.of_flags {t : State} (q : SeqPos) (hs : t.seq = q) (hstatic : Static t) (hflags : Flags t q)
    (hport : t.xreq = q.awaits ∧ t.xresp = none) (herr : t.err ≠ .none → q.state = .shuttingDown ∨ q = .terminated)
    (hchecked : ConfigChecked t)
    (htx : q = .strRefillWait ∨ q = .strAnalyze ∨ q = .strCount → respNegative t.lastTxBytes = false := by simp)
    (hrx : q = .strAnalyze ∨ q = .strCount → respNegative t.lastRxBytes = false := by simp) : Inv t := by
  subst hs
  exact {
    par := hstatic.par
    memWf := hstatic.ram.1
    memMapped := hstatic.ram.2
    port := .inl hport
    txOwn := by rw [hflags.txOwn, beq_iff_eq]
    rxOwn := by rw [hflags.rxOwn, beq_iff_eq]
    plan := fun hv => .inl (by rwa [hflags.plan, beq_iff_eq] at hv)
    sink := hflags.sink.trans hflags.plan.symm
    planHeld := fun h => by rw [hflags.plan, h]; rfl
    xportOpen := fun hm => hflags.xport.trans hm
    xportClosed := fun ho => .inl (hflags.xport.symm.trans ho)
    err := herr
    specSeq := by rw [hflags.publishing, Bool.or_eq_true, beq_iff_eq, beq_iff_eq]
    cause := hstatic.cause
    checked := hchecked
    txBytes := htx
    rxBytes := hrx }

/-- The invariant at RELEASE_LOCAL, where every session ends (R277): nothing in flight, nothing being published. -/
theorem Inv.of_releaseLocal {t : State} (hs : t.seq = .sdReleaseLocal) (hstatic : Static t)
    (hport : t.xreq = .none ∧ t.xresp = none) (htx : t.txOwn = false) (hrx : t.rxOwn = false)
    (hsink : t.sinkOpen = t.planValid) (hpub : t.publishing = false) : Inv t where
  par := hstatic.par
  memWf := hstatic.ram.1
  memMapped := hstatic.ram.2
  port := .inl ⟨by rw [hs]; exact hport.1, hport.2⟩
  txOwn := by simp [htx, hs]
  rxOwn := by simp [hrx, hs]
  plan := fun _ => .inr hs
  sink := hsink
  planHeld := fun h => by rw [hs] at h; cases h
  xportOpen := fun h => by rw [hs] at h; cases h
  xportClosed := fun _ => .inr hs
  err := fun _ => .inl (by rw [hs]; rfl)
  specSeq := by simp [hpub, hs]
  cause := hstatic.cause
  checked := by rw [ConfigChecked, hs]; trivial
  txBytes := fun h => by simp [hs] at h
  rxBytes := fun h => by simp [hs] at h

/-- The model's own fields, ACCERR and CANCEL are no concern of the invariant. -/
theorem Inv.congr {s t : State} (h : Inv s) (e : t = { s with
    bus := t.bus, oracle := t.oracle, drawn := t.drawn, sent := t.sent, configured := t.configured
    program := t.program, agenda := t.agenda, ramEpoch := t.ramEpoch, accErr := t.accErr, cancel := t.cancel }) :
    Inv t := by
  rw [e]
  exact ⟨h.par, h.memWf, h.memMapped, h.port, h.txOwn, h.rxOwn, h.plan, h.sink, h.planHeld, h.xportOpen, h.xportClosed,
    h.err, h.specSeq, h.cause, h.checked, h.txBytes, h.rxBytes⟩

/-- A host write of RAM, a rejection and a cleared cause leave the position and what it settles alone. -/
theorem Inv.of_static {s t : State} (h : Inv s) (hstatic : Static t) (e : t = { s with
    mem := t.mem, cmdErr := t.cmdErr, cmdErrCause := t.cmdErrCause, accErr := t.accErr, bus := t.bus }) : Inv t := by
  rw [e] at hstatic ⊢
  exact ⟨hstatic.par, hstatic.ram.1, hstatic.ram.2, h.port, h.txOwn, h.rxOwn, h.plan, h.sink, h.planHeld, h.xportOpen,
    h.xportClosed, h.err, h.specSeq, hstatic.cause, h.checked, h.txBytes, h.rxBytes⟩

/-! What the invariant says of the port, the error and the flags at a position. -/

section
variable {s : State} (hi : Inv s)
include hi

theorem Inv.port_empty {p : SeqPos} (hs : s.seq = p) (hw : p.awaits = .none) : s.xreq = .none ∧ s.xresp = none := by
  subst hs
  rcases hi.port with ⟨hreq, hresp⟩ | ⟨hne, -⟩
  · exact ⟨hreq.trans hw, hresp⟩
  · exact absurd hw hne

theorem Inv.xreq_of_resp {r : Word} (hx : s.xresp = some r) : s.xreq = .none := by
  rcases hi.port with ⟨-, hresp⟩ | ⟨-, hreq, -⟩
  · rw [hresp] at hx; cases hx
  · exact hreq

/-- A request outstanding is the one the position waits for. -/
theorem Inv.awaits_of_req (hx : s.xreq ≠ .none) : s.seq.awaits = s.xreq ∧ s.xresp = none := by
  rcases hi.port with ⟨hreq, hresp⟩ | ⟨-, hreq, -⟩
  · exact ⟨hreq.symm, hresp⟩
  · exact absurd hreq hx

theorem Inv.err_none {p : SeqPos} (hs : s.seq = p) (hp : p.state ≠ .shuttingDown ∧ p ≠ .terminated) : s.err = .none := by
  subst hs
  by_contra hne
  exact (hi.err hne).elim hp.1 hp.2

end

/-! What RAM keeps (R82 to R85). -/

section
variable {p : Params} {m : Memory}

theorem RamLegal.fill (h : RamLegal p m) {base size : Nat} (val : Nat → Nat) {n : Nat}
    (hr : ∀ a, base ≤ a → a < base + size * n → mapped p a) : RamLegal p (m.fill base size val n) :=
  ⟨Memory.wf_fill _ _ _ _ h.1, fun c hc => (Memory.mem_fill hc).elim (fun hb => hr _ hb.1 hb.2) (h.2 c)⟩

theorem RamLegal.fillWin (h : RamLegal p m) (val : Nat → Word) {n : Nat} (hn : n ≤ p.nmax) :
    RamLegal p (m.fillWin val n) := h.fill _ fun _ _ _ => .inl (by omega)

theorem RamLegal.fillSpec (h : RamLegal p m) (freq mag : Nat → Word) {n : Nat} (hn : n ≤ p.nmax) :
    RamLegal p (m.fillSpec freq mag n) := h.fill _ fun _ _ _ => .inr (.inl (by omega))

theorem RamLegal.fillRx (h : RamLegal p m) (val : Nat → IQ) : RamLegal p (m.fillRx val p.blockLen) :=
  h.fill _ fun _ h1 h2 => .inr (.inr (.inl ⟨h1, h2⟩))

theorem RamLegal.fillTx (h : RamLegal p m) (val : Nat → IQ) : RamLegal p (m.fillTx val p.blockLen) :=
  h.fill _ fun _ h1 h2 => .inr (.inr (.inr ⟨h1, h2⟩))

theorem RamLegal.writeWord (h : RamLegal p m) {a : Nat} (d : Word) (ha : storable p a) :
    RamLegal p (m.writeWord a d) := by
  refine ⟨Memory.wf_writeWord _ _ h.1, fun c hc => ?_⟩
  rcases Memory.mem_writeLE hc with hb | hold
  · rcases ha with hwin | hrx
    · exact .inl (by omega)
    · exact .inr (.inr (.inl (by omega)))
  · exact h.2 c hold

end

/-- A size that passes the check fits the RAMs. -/
theorem State.n_le_nmax {s : State} (h : s.sizeLegal = true) : s.n ≤ s.par.nmax :=
  (State.sizeLegal_iff.mp h).2.trans (Nat.min_le_left _ _)

/-! HOST. -/

theorem HostEffect.keepsInv {b : BusAccess} {s t : State} (hi : Inv s) (h : HostEffect b s t) : Inv t := by
  have hidle : s.seq = .idle → Flags s .idle ∧ (s.xreq = .none ∧ s.xresp = none) ∧ s.err = .none := fun hs =>
    ⟨hi.flags hs (by decide), hi.port_empty hs rfl, hi.err_none hs (by decide)⟩
  cases h with
  | answered | drew | refused | cancelled => exact hi.congr rfl
  | rejected c hc => exact hi.of_static ⟨hi.par, hi.static.ram, by simp [hc]⟩ rfl
  | cleared d =>
    refine hi.of_static ⟨hi.par, hi.static.ram, ?_⟩ rfl
    cases hd : d.getLsbD 20 <;> simp [hd, hi.cause]
  | stored a d hs ha => exact hi.of_static ⟨hi.par, hi.static.ram.writeWord d ha, hi.cause⟩ rfl
  | configured r d hs =>
    obtain ⟨hflags, hport, herr⟩ := hidle hs
    refine .of_flags .idle (by simp [hs]) ?_ ?_ (by simpa [SeqPos.awaits] using hport) (by simp [herr]) ?_
    · exact ⟨by simpa using hi.par, by simpa using hi.static.ram, by simpa using hi.cause⟩
    · exact ⟨by simp [hflags.txOwn], by simp [hflags.rxOwn], by simp [hflags.plan], by simp [hflags.sink],
        by simp [hflags.xport], by simpa [State.publishing] using hflags.publishing⟩
    · simp [ConfigChecked, hs]
  | started _ hs =>
    obtain ⟨hflags, hport, -⟩ := hidle hs
    exact .of_flags .initCheck rfl ⟨hi.par, hi.static.ram, hi.cause⟩ { hflags with } hport (fun h => absurd rfl h) trivial
  | wgen hs hn hm =>
    obtain ⟨hflags, hport, herr⟩ := hidle hs
    exact .of_flags .diagWgen rfl ⟨hi.par, hi.static.ram, hi.cause⟩ { hflags with } hport (fun h => absurd herr h) ⟨hn, hm⟩
  | analyze _ hs hsize hrate =>
    obtain ⟨hflags, hport, herr⟩ := hidle hs
    exact .of_flags .diagAnalyze rfl ⟨hi.par, hi.static.ram, hi.cause⟩
      { hflags with publishing := by rw [State.publishing_of_bump (s := s) rfl, hflags.publishing]; rfl } hport
      (fun h => absurd herr h) ⟨hsize, hrate⟩
  | synth hs hrate htones =>
    obtain ⟨hflags, hport, herr⟩ := hidle hs
    exact .of_flags .diagSynth rfl ⟨hi.par, hi.static.ram, hi.cause⟩ { hflags with } hport (fun h => absurd herr h)
      ⟨hrate, htones⟩

theorem HostTurnEffect.keepsInv {s t : State} (hi : Inv s) (h : HostTurnEffect s t) : Inv t := by
  cases h with
  | nothing => exact hi
  | access b rest _ _ ht => exact ht.keepsInv (hi.congr rfl)
  | poll a mask value rest _ t ht =>
    rw [ht.frame]
    exact hi.congr rfl

/-! XPORT. -/

/-- The answer takes the place of the request. -/
theorem Inv.of_answer {s t : State} (hi : Inv s) (hreq : s.xreq ≠ .none) (hram : RamLegal s.par t.mem)
    (e : t = { s with mem := t.mem, xreq := .none, xresp := some (s.draw 0), oracle := t.oracle, drawn := t.drawn
                      sent := t.sent, configured := t.configured }) : Inv t := by
  rw [e] at hram ⊢
  obtain ⟨hawaits, -⟩ := hi.awaits_of_req hreq
  exact ⟨hi.par, hram.1, hram.2, .inr ⟨hawaits ▸ hreq, rfl, Option.some_ne_none _⟩, hi.txOwn, hi.rxOwn, hi.plan, hi.sink,
    hi.planHeld, hi.xportOpen, hi.xportClosed, hi.err, hi.specSeq, hi.cause, hi.checked, hi.txBytes, hi.rxBytes⟩

theorem XportEffect.keepsInv {s t : State} (hi : Inv s) (h : XportEffect s t) : Inv t := by
  cases h with
  | nothing => exact hi
  | answered h => exact hi.of_answer (by rcases h with h | h | h <;> rw [h] <;> decide) hi.static.ram rfl
  | configured h | pushed h => exact hi.of_answer (by rw [h]; decide) hi.static.ram rfl
  | refilled h => exact hi.of_answer (by rw [h]; decide) (hi.static.ram.fillRx _) rfl

end Sys2Proof.Machine

namespace Sys2Proof.Machine

/-! SEQ. -/

section
variable {s : State} (hi : Inv s)
include hi

theorem Inv.err_of_none {p q : SeqPos} (hs : s.seq = p) (hp : p.state ≠ .shuttingDown ∧ p ≠ .terminated) :
    s.err ≠ .none → q.state = .shuttingDown ∨ q = .terminated := fun h => absurd (hi.err_none hs hp) h

/-- The flags that RELEASE_LOCAL settles too. -/
theorem Inv.flags_releaseLocal (hs : s.seq = .sdReleaseLocal) :
    s.txOwn = false ∧ s.rxOwn = false ∧ s.publishing = false :=
  ⟨by simpa [hs] using hi.txOwn, by simpa [hs] using hi.rxOwn, by simpa [hs] using hi.specSeq⟩

end

theorem SeqEffect.keepsInv {s t : State} (hi : Inv s) (h : SeqEffect s t) : Inv t := by
  have hchecked := hi.checked
  cases h with
  | rests | waits => exact hi
  | checkFails hs | dividesByZero hs | cancelled hs =>
    have hf := hi.flags hs (by decide)
    exact .of_releaseLocal rfl ⟨hi.par, hi.static.ram, hi.cause⟩ (hi.port_empty hs rfl) hf.txOwn hf.rxOwn hi.sink
      hf.publishing
  | configureFails r hs hx =>
    have hf := hi.flags hs (by decide)
    exact .of_releaseLocal rfl ⟨hi.par, hi.static.ram, hi.cause⟩ ⟨hi.xreq_of_resp hx, rfl⟩ hf.txOwn hf.rxOwn hi.sink
      hf.publishing
  | pushFails r hs hx =>
    have hf := hi.flags hs (by decide)
    exact .of_releaseLocal rfl ⟨hi.par, hi.static.ram, hi.cause⟩ ⟨hi.xreq_of_resp hx, rfl⟩ rfl hf.rxOwn hi.sink
      hf.publishing
  | refillFails r hs hx =>
    have hf := hi.flags hs (by decide)
    exact .of_releaseLocal rfl ⟨hi.par, hi.static.ram, hi.cause⟩ ⟨hi.xreq_of_resp hx, rfl⟩ hf.txOwn rfl hi.sink
      hf.publishing
  | checked hs hp hc =>
    have hf := hi.flags hs (by decide)
    exact .of_flags .initCfgWait rfl ⟨hi.par, hi.static.ram, hi.cause⟩ { hf with } ⟨rfl, hp.2⟩
      (hi.err_of_none hs (by decide)) hc
  | configured r hs hx hr =>
    have hf := hi.flags hs (by decide)
    rw [ConfigChecked, hs] at hchecked
    exact .of_flags .initBuild rfl ⟨hi.par, hi.static.ram, hi.cause⟩ { hf with xport := rfl } ⟨hi.xreq_of_resp hx, rfl⟩
      (hi.err_of_none hs (by decide)) hchecked
  | built hs hn =>
    have hf := hi.flags hs (by decide)
    rw [ConfigChecked, hs] at hchecked
    obtain ⟨hsize, hrate, htones⟩ := hchecked
    exact .of_flags .strCk rfl
      ⟨hi.par, (hi.static.ram.fillWin _ (State.n_le_nmax hsize)).fillTx _, hi.cause⟩ { hf with plan := rfl, sink := rfl }
      (hi.port_empty hs rfl) (hi.err_of_none hs (by decide)) ⟨hsize, hrate, htones, hn⟩
  | pushes hs hc hp =>
    have hf := hi.flags hs (by decide)
    rw [ConfigChecked, hs] at hchecked
    exact .of_flags .strPushWait rfl ⟨hi.par, hi.static.ram, hi.cause⟩ { hf with txOwn := rfl } ⟨rfl, hp.2⟩
      (hi.err_of_none hs (by decide)) hchecked
  | refills r hs hx hr hp =>
    have hf := hi.flags hs (by decide)
    rw [ConfigChecked, hs] at hchecked
    exact .of_flags .strRefillWait rfl ⟨hi.par, hi.static.ram, hi.cause⟩ { hf with txOwn := rfl, rxOwn := rfl } ⟨rfl, rfl⟩
      (hi.err_of_none hs (by decide)) hchecked (fun _ => hr)
  | publishes r hs hx hr =>
    have hf := hi.flags hs (by decide)
    rw [ConfigChecked, hs] at hchecked
    exact .of_flags .strAnalyze rfl ⟨hi.par, hi.static.ram, hi.cause⟩
      { hf with
        rxOwn := rfl
        publishing := by rw [State.publishing_of_bump (s := s) rfl, hf.publishing]; rfl } ⟨hi.xreq_of_resp hx, rfl⟩
      (hi.err_of_none hs (by decide)) hchecked (fun _ => hi.txBytes (.inl hs)) (fun _ => hr)
  | analyzes hs =>
    have hf := hi.flags hs (by decide)
    rw [ConfigChecked, hs] at hchecked
    exact .of_flags .strCount rfl ⟨hi.par, hi.static.ram.fillSpec _ _ (State.n_le_nmax hchecked.1), hi.cause⟩
      { hf with publishing := by rw [State.publishing_of_bump (s := s) rfl, hf.publishing]; rfl } (hi.port_empty hs rfl)
      (hi.err_of_none hs (by decide)) hchecked (fun _ => hi.txBytes (.inr (.inl hs))) (fun _ => hi.rxBytes (.inl hs))
  | counts hs =>
    have hf := hi.flags hs (by decide)
    rw [ConfigChecked, hs] at hchecked
    exact .of_flags .strSynth rfl ⟨hi.par, hi.static.ram, hi.cause⟩ { hf with } (hi.port_empty hs rfl)
      (hi.err_of_none hs (by decide)) hchecked
  | synthesizes hs =>
    have hf := hi.flags hs (by decide)
    rw [ConfigChecked, hs] at hchecked
    exact .of_flags .strCk rfl ⟨hi.par, hi.static.ram.fillTx _, hi.cause⟩ { hf with } (hi.port_empty hs rfl)
      (hi.err_of_none hs (by decide)) hchecked
  | releases hs ho hp =>
    obtain ⟨htx, hrx, hpub⟩ := hi.flags_releaseLocal hs
    exact .of_flags .sdRelTxWait rfl ⟨hi.par, hi.static.ram, hi.cause⟩ ⟨htx, hrx, rfl, rfl, ho, hpub⟩ ⟨rfl, hp.2⟩
      (fun _ => .inl rfl) trivial
  | releasesLocal hs ho =>
    obtain ⟨htx, hrx, hpub⟩ := hi.flags_releaseLocal hs
    exact .of_flags .terminated rfl ⟨hi.par, hi.static.ram, hi.cause⟩ ⟨htx, hrx, rfl, rfl, ho, hpub⟩
      (hi.port_empty hs rfl) (fun _ => .inr rfl) trivial
  | releasedTx r hs hx hp =>
    have hf := hi.flags hs (by decide)
    exact .of_flags .sdRelRxWait rfl ⟨hi.par, hi.static.ram, hi.cause⟩ { hf with } ⟨rfl, rfl⟩
      (fun _ => .inl rfl) trivial
  | releasedRx r hs hx hp =>
    have hf := hi.flags hs (by decide)
    exact .of_flags .sdCloseWait rfl ⟨hi.par, hi.static.ram, hi.cause⟩ { hf with } ⟨rfl, rfl⟩
      (fun _ => .inl rfl) trivial
  | closed r hs hx =>
    have hf := hi.flags hs (by decide)
    exact .of_flags .terminated rfl ⟨hi.par, hi.static.ram, hi.cause⟩ { hf with xport := rfl } ⟨hi.xreq_of_resp hx, rfl⟩
      (fun _ => .inr rfl) trivial
  | diagWindow hs =>
    have hf := hi.flags hs (by decide)
    rw [ConfigChecked, hs] at hchecked
    exact .of_flags .idle rfl ⟨hi.par, hi.static.ram.fillWin _ hchecked.2, hi.cause⟩ { hf with } (hi.port_empty hs rfl)
      (hi.err_of_none hs (by decide)) trivial
  | diagSpectrum hs =>
    have hf := hi.flags hs (by decide)
    rw [ConfigChecked, hs] at hchecked
    exact .of_flags .idle rfl ⟨hi.par, hi.static.ram.fillSpec _ _ (State.n_le_nmax hchecked.1), hi.cause⟩
      { hf with publishing := by rw [State.publishing_of_bump (s := s) rfl, hf.publishing]; rfl } (hi.port_empty hs rfl)
      (hi.err_of_none hs (by decide)) trivial
  | diagBlock hs =>
    have hf := hi.flags hs (by decide)
    exact .of_flags .idle rfl ⟨hi.par, hi.static.ram.fillTx _, hi.cause⟩ { hf with } (hi.port_empty hs rfl)
      (hi.err_of_none hs (by decide)) trivial

/-! RESET. -/

theorem params_legal : Config.params.Legal := by
  simp only [Params.Legal, Config.params]
  omega

/-- After reset the invariant holds whatever the legal parameters are: every flag is down and nothing is written. -/
theorem Inv.of_reset {p : Params} (hp : p.Legal) : Inv { State.reset with par := p } :=
  .of_flags .idle rfl ⟨hp, ⟨rfl, by simp [State.reset]⟩, by simp [State.reset]⟩
    ⟨rfl, rfl, rfl, rfl, rfl, (by decide : State.reset.publishing = false)⟩ ⟨rfl, rfl⟩
    (fun h => absurd rfl h) trivial

theorem State.resetStep_keepsInv {s : State} (hi : Inv s) : Inv s.resetStep := (Inv.of_reset hi.par).congr rfl

/-- Settles O43: `Inv.of_reset` at this implementation's parameters. -/
theorem resetMeetsInvariant : Obligations.ResetMeetsInvariant := Inv.of_reset params_legal

/-- Settles O44: each agent's turn keeps the invariant. -/
theorem stepKeepsInvariant : Obligations.StepKeepsInvariant := by
  unfold Obligations.StepKeepsInvariant
  intro s t hi hstep
  have hspent : Inv s.spendTurn := hi.congr rfl
  rcases step_cases hstep with ⟨-, heffect⟩ | ⟨-, heffect⟩ | ⟨-, heffect⟩ | ⟨-, rfl⟩
  case inl => exact heffect.keepsInv hspent
  case inr.inl => exact heffect.keepsInv hspent
  case inr.inr.inl => exact heffect.keepsInv hspent
  case inr.inr.inr => exact State.resetStep_keepsInv hspent

/-! ### No run stops (R262, R274) -/

/-- The port of a state with the invariant is never one at which a second request could be issued. -/
theorem Inv.not_secondRequest {s : State} (hi : Inv s) (hready : s.seq.awaits ≠ .none → s.xresp ≠ none) :
    ¬ (s.xreq ≠ .none ∨ (s.seq.awaits = .none ∧ s.xresp ≠ none)) := by
  rcases hi.port with ⟨hreq, hresp⟩ | ⟨hawaits, hreq, -⟩
  · rintro (hne | ⟨-, hne⟩)
    · exact hready (hreq ▸ hne) hresp
    · exact hne hresp
  · rintro (hne | ⟨hnone, -⟩)
    · exact hne hreq
    · exact hawaits hnone

theorem Inv.step_next {s : State} (hi : Inv s) : ∃ t, step s = .next t ∧ Inv t := by
  rcases step_effect s with ⟨t, ht⟩ | ⟨-, -, -, hready, hport⟩
  · exact ⟨t, ht, stepKeepsInvariant s t hi ht⟩
  · exact absurd hport (hi.not_secondRequest hready)

/-- Settles O45: by induction on the number of steps, each of which goes on and keeps the invariant. -/
theorem invariantRunsAreSafe : Obligations.InvariantRunsAreSafe := by
  unfold Obligations.InvariantRunsAreSafe
  intro s hi k
  induction k generalizing s with
  | zero => exact ⟨s, rfl⟩
  | succ k ih =>
    obtain ⟨t, hstep, ht⟩ := hi.step_next
    obtain ⟨u, hrun⟩ := ih t ht
    exact ⟨u, (core_run_next hstep k).trans hrun⟩

/-- A SEQ turn at a step that issues, with a port that is not empty, is the fault. -/
theorem seqTurn_faults {s : State} (hport : s.xreq ≠ .none ∨ s.xresp ≠ none)
    (hs : (s.seq = .initCheck ∧ s.sizeLegal = true ∧ s.rateLegal = true ∧ s.tonesLegal = true) ∨
      (s.seq = .strCk ∧ s.cancel = false) ∨ (s.seq = .sdReleaseLocal ∧ s.xportOpen = true)) :
    seqTurn s = .fault .requestOutstanding := by
  have hfull : ¬ (s.xreq = .none ∧ s.xresp = none) := fun h => hport.elim (absurd h.1) (absurd h.2)
  rcases hs with ⟨hs, hsize, hrate, htones⟩ | ⟨hs, hcancel⟩ | ⟨hs, hopen⟩
  · rw [seqTurn_initCheck hs, seqInitCheck, hsize, hrate, htones]
    exact State.issue_of_outstanding hfull
  · rw [seqTurn_strCk hs, seqStrCk, hcancel]
    exact State.issue_of_outstanding hfull
  · rw [seqTurn_sdReleaseLocal hs, seqSdReleaseLocal, hopen]
    exact State.issue_of_outstanding hfull

/-- So is one at a wait that has a response to consume while a request is still outstanding. -/
theorem seqTurn_faults_waiting {s : State} {r : Word} (hreq : s.xreq ≠ .none) (hresp : s.xresp = some r)
    (hs : (s.seq = .strPushWait ∧ 0 ≤ r.toInt) ∨ s.seq = .sdRelTxWait ∨ s.seq = .sdRelRxWait) :
    seqTurn s = .fault .requestOutstanding := by
  rcases hs with ⟨hs, hr⟩ | hs | hs
  · rw [seqTurn_strPushWait hs, onResponse_some hresp, seqStrPushWait, ite_respNegative_of_nonneg hr]
    exact State.issue_of_outstanding fun h => hreq h.1
  · rw [seqTurn_sdRelTxWait hs, onResponse_some hresp]
    exact State.issue_of_outstanding fun h => hreq h.1
  · rw [seqTurn_sdRelRxWait hs, onResponse_some hresp]
    exact State.issue_of_outstanding fun h => hreq h.1

/-- Settles O40: `step_effect` names the one fault and where it comes from, the invariant excludes that port, and
`seqTurn_faults` shows each of the six issuing steps to fault on it. -/
theorem secondRequestFaults : Obligations.SecondRequestFaults := by
  unfold Obligations.SecondRequestFaults
  refine ⟨?noRefusal, ?onlyThere, ?issues, ?waits⟩
  case noRefusal =>
    intro s r href
    rcases step_effect s with ⟨t, ht⟩ | ⟨hfault, -⟩
    · cases ht.symm.trans href
    · cases hfault.symm.trans href
  case onlyThere =>
    intro s f hf
    rcases step_effect s with ⟨t, ht⟩ | ⟨hfault, hturn, hissuing, hready, hport⟩
    · cases ht.symm.trans hf
    · cases hfault.symm.trans hf
      exact ⟨rfl, hturn, hissuing, hready, hport, fun hi => hi.not_secondRequest hready hport⟩
  case issues =>
    intro s hturn hport hs
    rw [step_eq, hturn]
    exact seqTurn_faults (s := s.spendTurn) hport hs
  case waits =>
    intro s r hturn hreq hresp hs
    rw [step_eq, hturn]
    exact seqTurn_faults_waiting (s := s.spendTurn) hreq hresp hs

end Sys2Proof.Machine

namespace Sys2Proof

/-! ### What decodes is an encoding (R121, R129, R131, R133) -/

/-- A command word is the encoding of the instruction it decodes to. -/
theorem encode_decodeCmd (w : Word) :
    (decodeCmd w).wellFormed = true ∧ encode (decodeCmd w) = .bus (writeReg .cmd w) := by
  cases ho : decodeOp w with
  | none =>
    rw [decodeCmd, ho]
    exact ⟨by rw [Instr.wellFormed, decodeOp_eq_none.mp ho]; rfl, rfl⟩
  | some op =>
    rw [eq_word_of_decodeOp ho]
    cases op <;> exact ⟨rfl, rfl⟩

/-- A bus transaction is the encoding of the instruction it decodes to: its class fixes offset and width. -/
theorem encode_decodeBus (b : BusAccess) : (decodeBus b).wellFormed = true ∧ encode (decodeBus b) = .bus b := by
  cases b with
  | read a width => exact ⟨rfl, rfl⟩
  | write a width d =>
    obtain ⟨hcommand, hstatus, hconfig, hram⟩ := writeClass_cases a width
    rw [decodeBus]
    cases hc : writeClass a width with
    | command =>
      obtain ⟨rfl, rfl⟩ := hcommand hc
      exact encode_decodeCmd d
    | status =>
      obtain ⟨rfl, rfl⟩ := hstatus hc
      exact ⟨rfl, rfl⟩
    | config r =>
      obtain ⟨rfl, rfl⟩ := hconfig r hc
      exact ⟨rfl, rfl⟩
    | ram t =>
      obtain ⟨rfl, rfl⟩ := hram t hc
      exact ⟨rfl, rfl⟩
    | other => exact ⟨by rw [Instr.wellFormed, hc]; rfl, rfl⟩

/-- A word without bits above TOP is its TOP (R129). -/
theorem eq_setWidth_top {w : Word} (h : w.extractLsb' 3 61 = 0) : w = (w.extractLsb' 0 3).setWidth 64 := by
  have hw := w.isLt
  have hupper : w.toNat / 2 ^ 3 % 2 ^ 61 = 0 := by
    simpa [BitVec.extractLsb'_toNat, Nat.shiftRight_eq_div_pow] using congrArg BitVec.toNat h
  apply BitVec.eq_of_toNat_eq
  simp only [BitVec.toNat_setWidth, BitVec.extractLsb'_toNat, Nat.shiftRight_zero]
  omega

/-- A word on the transport port that is a request is the encoding of it. -/
theorem encode_decodePort {w : Word} {i : Instr} (h : decodePort w = .ok i) :
    i.wellFormed = true ∧ encode i = .port w := by
  unfold decodePort at h
  split at h
  · cases h
  · next hupper =>
    have hw := eq_setWidth_top (not_not.mp hupper)
    generalize w.extractLsb' 0 3 = top at h hw
    subst hw
    split at h <;> cases h <;> exact ⟨rfl, rfl⟩

/-- Settles O2: a bus transaction is the encoding of what it decodes to by its class, a request by the table of R129. -/
theorem encodeInvertsDecode : Obligations.EncodeInvertsDecode := by
  unfold Obligations.EncodeInvertsDecode
  intro p i h
  cases p with
  | bus b =>
    cases h
    exact encode_decodeBus b
  | port w => exact encode_decodePort h

/-- Settles O3: each word is looked up in its table. -/
theorem writtenOutWordsDecode : Obligations.WrittenOutWordsDecode := by
  unfold Obligations.WrittenOutWordsDecode
  decide

end Sys2Proof

namespace Sys2Proof.Machine

/-! ### STATUS (R41) -/

section
variable {w : Word} {k : Nat}

theorem extractLsb'_eq_of_toNat {n : Nat} {v : BitVec n} (h : w.toNat / 2 ^ k % 2 ^ n = v.toNat) :
    w.extractLsb' k n = v := by
  apply BitVec.eq_of_toNat_eq
  rw [BitVec.extractLsb'_toNat, Nat.shiftRight_eq_div_pow, h]

theorem flag_false : flag false = 0 := rfl

theorem getLsbD_eq_of_toNat {b : Bool} (h : w.toNat / 2 ^ k % 2 = flag b) : w.getLsbD k = b := by
  rw [BitVec.getLsbD, Nat.testBit_eq_decide_div_mod_eq]
  exact decide_eq_flag h

end

/-- Settles O14: STATUS is the sum of its fields, each below the lowest bit of the next, so dividing by the place of a field
and cutting to its width gives it back. -/
theorem statusLayout : Obligations.StatusLayout := by
  unfold Obligations.StatusLayout
  intro s
  have hsum := s.statusWord_toNat
  have hbusy : (decide (s.xreq ≠ .none) || s.xresp.isSome) = s.xbusy := by
    rw [Bool.eq_iff_iff]
    simp [State.xbusy]
  have hstate := s.seq.state.code.isLt
  have hsub := s.seq.sub.isLt
  have herr := s.err.code.isLt
  have hcause := s.cmdErrCause.code.isLt
  have hCancel := flag_le s.cancel
  have hTxOwn := flag_le s.txOwn
  have hRxOwn := flag_le s.rxOwn
  have hPlanValid := flag_le s.planValid
  have hXportOpen := flag_le s.xportOpen
  have hSinkOpen := flag_le s.sinkOpen
  have hXbusy := flag_le s.xbusy
  have hCmdErr := flag_le s.cmdErr
  have hAccErr := flag_le s.accErr
  rw [hbusy]
  refine ⟨?_, ?_, ?_, ?_, ?_, ?_, ?_, ?_, ?_, ?_, ?_, ?_, ?_, ?_, ?_, ?_, ?_, ?_, ?_⟩
  iterate 4 exact extractLsb'_eq_of_toNat (by omega)
  iterate 9 exact getLsbD_eq_of_toNat (by omega)
  iterate 4 exact getLsbD_eq_of_toNat (flag_false ▸ (by omega))
  iterate 2 exact extractLsb'_eq_of_toNat (by simp only [BitVec.ofNat_eq_ofNat, BitVec.toNat_ofNat]; omega)

/-! ### Host reads (R88) -/

/-- The state after a read that is a draw: the answer, and the draw's bookkeeping. -/
theorem exec_rd_of_target {s : State} {a : Offset} {t : Target} (h : targetOf s.par a.toNat = some t) :
    exec (.rd a 64) s = if s.readIsDraw t = true
      then .next { s with bus := .data (s.draw 0), oracle := s.oracle.drop 1, drawn := s.drawn + 1 }
      else .next { s with bus := .data (s.valueAt t) } :=
  execRd_of_target ((legalTarget_wide s.par a).trans h)

theorem exec_rd_reg (s : State) (r : Reg) :
    exec (.rd (BitVec.ofNat 28 r.offset) 64) s = if s.readIsDraw (.reg r) = true
      then .next { s with bus := .data (s.draw 0), oracle := s.oracle.drop 1, drawn := s.drawn + 1 }
      else .next { s with bus := .data (s.readReg r) } :=
  exec_rd_of_target (by rw [Reg.toNat_offset, targetOf_reg])

/-- The only register whose read can be a draw is PHASE (R88). -/
theorem State.readIsDraw_reg (s : State) {r : Reg} (h : r ≠ .phase) : s.readIsDraw (.reg r) = false := by
  cases r with
  | phase => exact absurd rfl h
  | cmd | status | ctrl | fftSize | sampleRate | toneA | toneF1 | toneF2 | dbFloor | phaseInc | rxCount | txCount | cycleCount
  | lastTxBytes | lastRxBytes | specSeq | exitStatus | blockLen | sampleBytes | nmax => rfl

theorem State.readIsDraw_phase {s : State} : s.readIsDraw (.reg .phase) = true ↔ s.seq = .strSynth ∨ s.seq = .diagSynth := by
  rw [State.readIsDraw, Bool.or_eq_true, beq_iff_eq, beq_iff_eq]

/-- Settles O13: every register stands at its offset; only PHASE can be a draw, and what is read is `State.readReg`. -/
theorem registerReads : Obligations.RegisterReads := by
  unfold Obligations.RegisterReads
  intro s
  refine ⟨?anyButPhase, ?phase, ?phaseDraw, rfl, rfl, rfl, rfl, rfl, rfl, rfl, rfl, rfl, rfl, rfl, rfl, rfl, rfl, rfl, rfl,
    rfl, rfl, rfl, rfl, rfl⟩
  case anyButPhase =>
    intro r hr
    rw [exec_rd_reg, s.readIsDraw_reg hr, if_neg Bool.false_ne_true]
  case phase =>
    intro hstr hdiag
    exact (exec_rd_reg s .phase).trans (if_neg fun h => (State.readIsDraw_phase.mp h).elim hstr hdiag)
  case phaseDraw => exact fun hs => (exec_rd_reg s .phase).trans (if_pos (State.readIsDraw_phase.mpr hs))

/-- A word of RAM below the window's end, read at its offset. -/
theorem exec_rd_ram {s : State} {a : Nat} {t : Target} {draws : Prop} [Decidable draws] {v : Word} (ha : a < 2 ^ 28)
    (ht : targetOf s.par a = some t) (hdraw : s.readIsDraw t = true ↔ draws) (hv : s.valueAt t = v) :
    exec (.rd (BitVec.ofNat 28 a) 64) s = if draws
      then .next { s with bus := .data (s.draw 0), oracle := s.oracle.drop 1, drawn := s.drawn + 1 }
      else .next { s with bus := .data v } := by
  have hnat : (BitVec.ofNat 28 a).toNat = a := by rw [BitVec.toNat_ofNat, Nat.mod_eq_of_lt ha]
  rw [exec_rd_of_target (hnat.symm ▸ ht), hv]
  exact if_congr hdraw rfl rfl

/-- A word of RXBUF or TXBUF is its two pairs. -/
theorem State.wordAt_pairs (s : State) (base m : Nat) :
    s.wordAt (base + 8 * m) = sample2 (s.pairAt (base + 4 * (2 * m))) (s.pairAt (base + 4 * (2 * m + 1))) := by
  rw [State.wordAt_eq_sample2, show base + 4 * (2 * m) = base + 8 * m by omega,
    show base + 4 * (2 * m + 1) = base + 8 * m + 4 by omega]

/-- Settles O16: each word stands at its offset, `State.readIsDraw` is the condition of R88, and a sample word is its two
pairs. -/
theorem ramReads : Obligations.RamReads := by
  unfold Obligations.RamReads
  rintro s ⟨-, -, hblock, -, -, -, hnmax⟩
  refine ⟨?win, ?specFreq, ?specMag, ?rxbuf, ?txbuf⟩
  case win =>
    intro j hj
    exact exec_rd_ram (by omega) (targetOf_win hj (by omega)) (by simp [State.readIsDraw]) rfl
  case specFreq =>
    intro k hk
    exact exec_rd_ram (by omega) (targetOf_specFreq hk (by omega)) State.publishing_iff rfl
  case specMag =>
    intro k hk
    exact exec_rd_ram (by omega) (targetOf_specMag hk (by omega)) State.publishing_iff rfl
  case rxbuf =>
    intro m hm
    exact exec_rd_ram (by omega) (targetOf_rxbuf hm (by omega)) Iff.rfl (s.wordAt_pairs rxBase m)
  case txbuf =>
    intro m hm
    exact exec_rd_ram (by omega) (targetOf_txbuf hm (by omega)) (by simp [State.readIsDraw, or_assoc]) (s.wordAt_pairs txBase m)

end Sys2Proof.Machine

namespace Sys2Proof.Machine

/-! ### Host writes of RAM (R165, R82, R83) -/

/-- A word stored in IDLE reads back, and every byte outside it keeps its value. -/
theorem State.ramWrite_mem {s : State} (a : Nat) (d : Word) (hs : s.seq = .idle) :
    (s.ramWrite a d).wordAt a = d ∧
    (∀ x, x < a ∨ a + 8 ≤ x → (s.ramWrite a d).byteAt x = s.byteAt x) ∧
    s.ramWrite a d = { s with mem := (s.ramWrite a d).mem } := by
  rw [State.ramWrite, if_pos hs]
  exact ⟨State.wordAt_writeWord rfl, fun _ hx => State.byteAt_writeWord_outside rfl rfl hx, rfl⟩

theorem State.ramWrite_refused {s : State} (a : Nat) (d : Word) (hs : s.seq ≠ .idle) : s.ramWrite a d = s.accerr :=
  if_neg hs

theorem exec_wrRam_of_exists {s : State} {w : RamWord} (d : Word) (h : s.ramWordExists w = true) :
    exec (.wrRam w d) s = .next ((s.ramWrite w.offset d).respond .ack) := by
  rw [exec, execWrRam, if_pos h]

theorem exec_wrRam_missing {s : State} {w : RamWord} (d : Word) (h : s.ramWordExists w = false) :
    exec (.wrRam w d) s = .next (s.respond .err) := by
  rw [exec, execWrRam, if_neg (by rw [h]; exact Bool.false_ne_true)]

/-- A RAM write by the row of the opcode table, in its three cases. -/
theorem exec_wrRam_cases (s : State) (w : RamWord) (d : Word) :
    (s.seq = .idle → s.ramWordExists w = true → ∃ t, exec (.wrRam w d) s = .next t ∧ t.wordAt w.offset = d ∧
      (∀ a, a < w.offset ∨ w.offset + 8 ≤ a → t.byteAt a = s.byteAt a) ∧ t = { s with mem := t.mem, bus := .ack }) ∧
    (s.seq ≠ .idle → s.ramWordExists w = true →
      exec (.wrRam w d) s = .next { s with accErr := true, bus := .ack }) ∧
    (s.ramWordExists w = false → exec (.wrRam w d) s = .next { s with bus := .err }) := by
  refine ⟨?stored, ?refused, exec_wrRam_missing d⟩
  case stored =>
    intro hs hw
    obtain ⟨hword, hframe, hrest⟩ := State.ramWrite_mem w.offset d hs
    exact ⟨_, exec_wrRam_of_exists d hw, hword, hframe, congrArg (State.respond · .ack) hrest⟩
  case refused =>
    intro hs hw
    rw [exec_wrRam_of_exists d hw, State.ramWrite_refused _ _ hs]
    rfl

/-- Settles O20: `exec_wrRam_cases` for a word of WIN, which exists below NMAX. -/
theorem windowWrite : Obligations.WindowWrite := by
  unfold Obligations.WindowWrite
  intro s j d
  obtain ⟨hstored, hrefused, hmissing⟩ := exec_wrRam_cases s (.win j) d
  exact ⟨fun hs hj => hstored hs (decide_eq_true hj), fun hs hj => hrefused hs (decide_eq_true hj),
    fun hj => hmissing (decide_eq_false (Nat.not_lt.mpr hj))⟩

/-- Settles O21: `exec_wrRam_cases` for a word of RXBUF, which exists below BLOCK_LEN / 2; the word holds two pairs. -/
theorem sampleWrite : Obligations.SampleWrite := by
  unfold Obligations.SampleWrite
  intro s m d
  obtain ⟨hstored, hrefused, hmissing⟩ := exec_wrRam_cases s (.rxbuf m) d
  refine ⟨?stored, fun hs hm => hrefused hs (decide_eq_true hm),
    fun hm => hmissing (decide_eq_false (Nat.not_lt.mpr hm))⟩
  case stored =>
    intro hs hm
    obtain ⟨t, ht, hword, hframe⟩ := hstored hs (decide_eq_true hm)
    obtain ⟨hfirst, hsecond⟩ := State.pairAt_of_wordAt hword
    have hoffset : rxAddr (2 * m.toNat) = RamWord.offset (.rxbuf m) := by
      rw [rxAddr, RamWord.offset]
      omega
    have hoffset' : rxAddr (2 * m.toNat + 1) = RamWord.offset (.rxbuf m) + 4 := by
      rw [rxAddr, RamWord.offset]
      omega
    exact ⟨t, ht, by rw [State.rxbuf, hoffset, hfirst], by rw [State.rxbuf, hoffset', hsecond], hframe⟩

/-! ### WR (R152) -/

/-- Settles O22. -/
theorem writeIsItsSubcase : Obligations.WriteIsItsSubcase := fun s a width d => execWr_eq_decodeBus a width d s

/-- The registers that only the block writes (R89). -/
def readOnlyRegs : List Reg :=
  [.phaseInc, .rxCount, .txCount, .cycleCount, .lastTxBytes, .lastRxBytes, .specSeq, .exitStatus, .blockLen, .sampleBytes,
    .nmax]

/-- The targets a host write is always refused at (R89). -/
def readOnlyTarget : Target → Prop
  | .reg r => r ∈ readOnlyRegs
  | .specFreq _ | .specMag _ | .txbuf _ => True
  | .win _ | .rxbuf _ => False

/-- A write of a read-only word is refused, in every state (R152). -/
theorem exec_wr_readOnly {s : State} {a : Nat} {t : Target} (d : Word) (ha : a < 2 ^ 28) (ht : targetOf s.par a = some t)
    (h : readOnlyTarget t) : exec (.wr (BitVec.ofNat 28 a) 64 d) s = .next (s.accerr.respond .ack) := by
  have htarget : legalTarget s.par (BitVec.ofNat 28 a) 64 = some t := by
    rw [legalTarget_wide, BitVec.toNat_ofNat, Nat.mod_eq_of_lt ha, ht]
  cases t with
  | reg r =>
    simp only [readOnlyTarget, readOnlyRegs, List.mem_cons, List.not_mem_nil, or_false] at h
    rcases h with rfl | rfl | rfl | rfl | rfl | rfl | rfl | rfl | rfl | rfl | rfl <;>
      simp only [exec, execWr, htarget, Reg.config?]
  | specFreq k | specMag k | txbuf k => simp only [exec, execWr, htarget]
  | win j | rxbuf m => exact absurd h not_false

/-- WR at a command, status, configuration or RAM offset is the row of the opcode table for it (R152). -/
theorem exec_wr_command (d : Word) (s : State) : exec (.wr 0x008 64 d) s = exec (decodeCmd d) s := by
  rw [show (0x008 : Offset) = BitVec.ofNat 28 Reg.cmd.offset from rfl, writeIsItsSubcase, decodeBus, writeClass_command]

theorem exec_wr_status (d : Word) (s : State) : exec (.wr 0x010 64 d) s = exec (.wrStatus d) s := by
  rw [show (0x010 : Offset) = BitVec.ofNat 28 Reg.status.offset from rfl, writeIsItsSubcase, decodeBus, writeClass_status]

theorem exec_wr_config (r : ConfigReg) (d : Word) (s : State) :
    exec (.wr (BitVec.ofNat 28 r.toReg.offset) 64 d) s = exec (.wrConfig r d) s := by
  rw [writeIsItsSubcase, decodeBus, writeClass_config]

theorem exec_wr_ram (w : RamWord) (d : Word) (s : State) :
    exec (.wr (BitVec.ofNat 28 w.offset) 64 d) s = exec (.wrRam w d) s := by
  rw [writeIsItsSubcase, decodeBus, writeClass_ram]

/-- The writable word of RAM at an offset. -/
theorem exists_ramWord {s : State} {a : Nat} (hp : s.par.Legal)
    (ha : (winBase ≤ a ∧ a < winBase + 8 * s.par.nmax) ∨ (rxBase ≤ a ∧ a < rxBase + 4 * s.par.blockLen))
    (h8 : a % 8 = 0) : ∃ w : RamWord, w.offset = a ∧ s.ramWordExists w = true := by
  obtain ⟨heven, -, hblock, -, -, -, hnmax⟩ := hp
  simp only [winBase, rxBase] at ha
  rcases ha with hwin | hrx
  · refine ⟨.win (BitVec.ofNat 21 ((a - winBase) / 8)), ?_, decide_eq_true ?_⟩ <;>
      simp only [RamWord.offset, BitVec.toNat_ofNat, winBase] <;> omega
  · refine ⟨.rxbuf (BitVec.ofNat 23 ((a - rxBase) / 8)), ?_, decide_eq_true ?_⟩ <;>
      simp only [RamWord.offset, BitVec.toNat_ofNat, rxBase] <;> omega

/-- Settles O23: at a writable offset WR is the row for it, and elsewhere `exec_wr_readOnly` refuses it. -/
theorem writeByTarget : Obligations.WriteByTarget := by
  unfold Obligations.WriteByTarget
  intro s d hp
  have ⟨_, _, hblock, _, _, _, hnmax⟩ := hp
  refine ⟨?config, ?configRefused, exec_wr_command d s, exec_wr_status d s, ?ram, ?registers, ?spec, ?txbuf⟩
  case config =>
    intro r hs
    obtain ⟨hwritten, hothers⟩ := s.readReg_setConfig r d
    refine ⟨(s.setConfig r d).respond .ack, (exec_wr_config r d s).trans (exec_wrConfig_idle r d hs), ?_, ?_, ?_⟩
    · rw [State.readReg_respond, hwritten]
    · intro r' hr
      rw [State.readReg_respond, hothers r' hr]
    · exact congrArg (State.respond · .ack) (s.setConfig_frame r d)
  case configRefused => exact fun r hs => (exec_wr_config r d s).trans (exec_wrConfig_outsideIdle r d hs)
  case ram =>
    intro a ha h8 hs
    obtain ⟨w, rfl, hw⟩ := exists_ramWord hp ha h8
    rw [exec_wr_ram]
    exact (exec_wrRam_cases s w d).1 hs hw
  case registers =>
    intro r hr
    exact exec_wr_readOnly d ((regAt_lt (regAt_offset r)).trans (by decide)) (targetOf_reg s.par r) hr
  case spec =>
    intro w hw
    rcases Nat.mod_two_eq_zero_or_one w with heven | hodd
    · rw [show 0x02000000 + 8 * w = specBase + 16 * (w / 2) by simp only [specBase]; omega]
      exact exec_wr_readOnly d (by simp only [specBase]; omega) (targetOf_specFreq (by omega) (by omega)) trivial
    · rw [show 0x02000000 + 8 * w = specBase + 16 * (w / 2) + 8 by simp only [specBase]; omega]
      exact exec_wr_readOnly d (by simp only [specBase]; omega) (targetOf_specMag (by omega) (by omega)) trivial
  case txbuf =>
    intro m hm
    exact exec_wr_readOnly d (by omega) (targetOf_txbuf hm (by omega)) trivial

/-! ### The transport (R261) -/

/-- Settles O24. -/
theorem transportAnswers : Obligations.TransportAnswers := by
  unfold Obligations.TransportAnswers
  intro s
  refine ⟨?releases, rfl⟩
  case releases =>
    intro i hi
    simp only [List.mem_cons, List.not_mem_nil, or_false] at hi
    rcases hi with rfl | rfl | rfl <;> rfl

/-- Settles O25: the block taken is TXBUF, pair by pair. -/
theorem pushTakesTheBlock : Obligations.PushTakesTheBlock := by
  unfold Obligations.PushTakesTheBlock
  intro s
  refine ⟨_, rfl, ?block, by simp, rfl⟩
  case block =>
    intro n hn
    simp [hn]

/-- The low half of a draw, as a pair. -/
theorem pairOfBits_setWidth (w : Word) :
    pairOfBits (w.setWidth 32) = { i := w.extractLsb' 0 16, q := w.extractLsb' 16 16 } := by
  have half : ∀ k, k + 16 ≤ 32 → (w.setWidth 32).extractLsb' k 16 = w.extractLsb' k 16 := by
    intro k hk
    ext j hj
    simp only [BitVec.getElem_extractLsb', BitVec.getLsbD_setWidth]
    simp only [show k + j < 32 by omega, decide_true, Bool.true_and]
  rw [pairOfBits, half 0 (by decide), half 16 (by decide)]

/-- Settles O26: the run of RXBUF is filled with draws, and only it. -/
theorem refillDrawsTheBlock : Obligations.RefillDrawsTheBlock := by
  unfold Obligations.RefillDrawsTheBlock
  intro s
  refine ⟨_, rfl, ?pairs, fun a ha => State.byteAt_fill_outside rfl rfl (by decide) ha, rfl⟩
  case pairs =>
    intro n hn
    exact (State.rxbuf_fillRx (val := s.refilled) rfl hn).trans (pairOfBits_setWidth _)

end Sys2Proof.Machine

namespace Sys2Proof

/-! ### Words of the opcode table (log 10) -/

/-- The word of a request decodes to it (R129). -/
theorem decodePort_word {i : Instr} {op : TReq} (h : i.request? = some op) : decodePort op.word = .ok i := by
  cases i <;> cases h <;> rfl

/-- Every word that decodes on the transport port is a request. -/
theorem request?_of_decodePort {w : Word} {i : Instr} (h : decodePort w = .ok i) : i.request?.isSome = true := by
  unfold decodePort at h
  split at h
  · cases h
  · split at h <;> cases h <;> rfl

/-- A word of the table is a command word or a request. -/
theorem decodeTableWord_cases {w : Word} {i : Instr} (h : decodeTableWord 64 w.toNat = some i) :
    i = decodeCmd w ∨ i.request?.isSome = true := by
  rw [decodeTableWord, if_pos ⟨rfl, w.isLt⟩, BitVec.ofNat_toNat, BitVec.setWidth_eq] at h
  split at h
  · exact .inl (Option.some.inj h).symm
  · next hport => exact .inr (request?_of_decodePort (Option.some.inj h ▸ hport))
  · exact .inl (Option.some.inj h).symm

end Sys2Proof

namespace Sys2Proof.Machine

/-! ### The step (R18, R364) -/

theorem hostTurn_poll_eq {s t : State} {a : Offset} {mask value : Word} {ops : List HostOp}
    (h : s.program = .poll a mask value :: ops) (ht : exec (.rd a 64) s = .next t) :
    hostTurn s = .next (if t.bus.endsPoll mask value then { t with program := ops } else t) := by
  rw [hostTurn_poll h ht, State.afterPoll]
  cases t.bus.endsPoll mask value <;> rfl

theorem xportTurn_of_decodePort {s : State} {i : Instr} (h : decodePort s.xreq.word = .ok i) : xportTurn s = exec i s := by
  rw [xportTurn, h]

/-- Settles O5: `step` hands the state to the agent of `State.nextTurn`; HOST's and XPORT's turns run what they decode. -/
theorem stepRunsTheDecodedInstruction : Obligations.StepRunsTheDecodedInstruction := by
  unfold Obligations.StepRunsTheDecodedInstruction
  refine ⟨?access, ?poll, ?done, ?request, ?noRequest, ?seq, fun _ _ _ h => State.nextTurn_of_agenda h,
    fun _ h => State.nextTurn_of_end h⟩
  case access =>
    intro s b ops i hturn hprogram hdecode
    cases hdecode
    rw [step_eq, hturn]
    exact hostTurn_access (s := s.spendTurn) hprogram
  case poll =>
    intro s a mask value ops hturn hprogram
    obtain ⟨t, ht, -⟩ := exec_read_effect a 64 s.spendTurn
    have hstep : step s = .next (if t.bus.endsPoll mask value then { t with program := ops } else t) := by
      rw [step_eq, hturn]
      exact hostTurn_poll_eq hprogram ht
    refine ⟨t, ht, ?met, ?notMet⟩
    case met =>
      intro v hv hmet
      rw [hstep, if_pos (BusResp.endsPoll_iff.mpr ⟨v, hv, hmet⟩)]
    case notMet =>
      intro hnot
      rw [hstep, if_neg]
      rintro hends
      obtain ⟨v, hv, hmet⟩ := BusResp.endsPoll_iff.mp hends
      exact hnot v hv hmet
  case done =>
    intro s hturn hprogram
    rw [step_eq, hturn]
    exact hostTurn_done (s := s.spendTurn) hprogram
  case request =>
    intro s i hturn hdecode
    rw [step_eq, hturn]
    exact xportTurn_of_decodePort (s := s.spendTurn) hdecode
  case noRequest =>
    intro s hturn hreq
    rw [step_eq, hturn]
    exact xportTurn_none (s := s.spendTurn) hreq
  case seq =>
    intro s hturn
    rw [step_eq, hturn]
    rfl

/-- Settles O6: a request is placed on the port it is decoded from, any other word written to CMD. -/
theorem fetchWordRunsNext : Obligations.FetchWordRunsNext := by
  unfold Obligations.FetchWordRunsNext
  intro s w i h
  rw [State.withFetchWord, h, Option.bind_some]
  cases hreq : i.request? with
  | some op =>
    rw [step_eq]
    exact xportTurn_of_decodePort (s := { s with xreq := op }) (decodePort_word hreq)
  | none =>
    rcases decodeTableWord_cases h with rfl | hsome
    · have hw : BitVec.ofNat 64 w.toNat = w := by rw [BitVec.ofNat_toNat, BitVec.setWidth_eq]
      have hdecode : decodeBus (writeReg .cmd w) = decodeCmd w := by rw [writeReg, decodeBus, writeClass_command]
      rw [hw, step_eq, ← hdecode]
      exact hostTurn_access (s := { s with program := .access (writeReg .cmd w) :: s.program }) rfl
    · rw [hreq] at hsome
      cases hsome

/-! ### Steps of the sequencer -/

/-- Settles O9. -/
theorem cancelSetsTheFlag : Obligations.CancelSetsTheFlag := fun _ => rfl

/-- Settles O30: the two clauses are the two branches of `seqStrCk`; the second issues its request on an empty port. -/
theorem checkpointStep : Obligations.CheckpointStep := by
  unfold Obligations.CheckpointStep
  intro s hs
  rw [seqTurn_strCk hs, seqStrCk]
  refine ⟨?cancelled, ?pushes⟩
  case cancelled =>
    intro hcancel
    rw [if_pos hcancel]
    rfl
  case pushes =>
    intro hcancel hreq hresp
    rw [hcancel]
    exact State.issue_of_empty hreq hresp

/-- Settles O37: `synthBlock` does not look at the position, so the streaming step and the diagnostic one do the same with
the same PHASE_INC. -/
theorem diagSynthIsTheStreamingStep : Obligations.DiagSynthIsTheStreamingStep := by
  unfold Obligations.DiagSynthIsTheStreamingStep
  intro s hs
  exact ⟨_, _, seqTurn_diagSynth hs, seqTurn_strSynth rfl, rfl, rfl⟩

/-- Every wait position waits for a response (R260). -/
theorem seqTurn_waits {s : State} (hs : s.seq.awaits ≠ .none) (hresp : s.xresp = none) : seqTurn s = .next s := by
  cases hp : s.seq with
  | initCfgWait => exact (seqTurn_initCfgWait hp).trans (onResponse_none hresp)
  | strPushWait => exact (seqTurn_strPushWait hp).trans (onResponse_none hresp)
  | strRefillWait => exact (seqTurn_strRefillWait hp).trans (onResponse_none hresp)
  | sdRelTxWait => exact (seqTurn_sdRelTxWait hp).trans (onResponse_none hresp)
  | sdRelRxWait => exact (seqTurn_sdRelRxWait hp).trans (onResponse_none hresp)
  | sdCloseWait => exact (seqTurn_sdCloseWait hp).trans (onResponse_none hresp)
  | idle | initCheck | initBuild | strCk | strAnalyze | strCount | strSynth | sdReleaseLocal | terminated | diagWgen
  | diagAnalyze | diagSynth => exact absurd (congrArg SeqPos.awaits hp) hs

/-- Settles O39. -/
theorem sequencerWaits : Obligations.SequencerWaits := by
  unfold Obligations.SequencerWaits
  rintro s (hidle | hterminated | ⟨hs, hresp⟩)
  · exact seqTurn_rests (.inl hidle)
  · exact seqTurn_rests (.inr hterminated)
  · exact seqTurn_waits hs hresp

/-! ### Reset (R68, R350 to R352) -/

/-- Settles O41: the fields of `State.reset`; STATUS is assembled from flags that are all down. -/
theorem resetValues : Obligations.ResetValues := by
  unfold Obligations.ResetValues
  exact ⟨rfl, rfl, rfl, rfl, rfl, rfl, rfl, rfl, rfl, rfl, rfl, rfl, rfl, rfl, rfl, rfl, rfl, rfl, rfl⟩

/-- Settles O42: nothing is written after a reset, so every byte is the fresh image's. -/
theorem resetStep : Obligations.ResetStep := by
  unfold Obligations.ResetStep
  intro s hturn
  exact ⟨s.spendTurn.resetStep, by rw [step_eq, hturn]; rfl, rfl, fun _ => rfl, rfl⟩

end Sys2Proof.Machine

namespace Sys2Proof.Machine

/-! ### What each agent leaves alone -/

/-- Outside IDLE a bus transaction reaches only CANCEL, the sticky bits and the bus (R153, R164, R165). -/
theorem HostEffect.frame_outsideIdle {b : BusAccess} {s t : State} (h : HostEffect b s t) (hs : s.seq ≠ .idle) :
    t = { s with
      cancel := t.cancel, cmdErr := t.cmdErr, cmdErrCause := t.cmdErrCause, accErr := t.accErr, bus := t.bus
      oracle := t.oracle, drawn := t.drawn } := by
  cases h with
  | answered | drew | rejected | refused | cleared | cancelled => rfl
  | configured _ _ hidle | stored _ _ hidle | started _ hidle | wgen hidle | analyze _ hidle | synth hidle =>
    exact absurd hidle hs

theorem HostTurnEffect.frame_outsideIdle {s t : State} (h : HostTurnEffect s t) (hs : s.seq ≠ .idle) :
    t = { s with
      cancel := t.cancel, cmdErr := t.cmdErr, cmdErrCause := t.cmdErrCause, accErr := t.accErr, bus := t.bus
      oracle := t.oracle, drawn := t.drawn, program := t.program } := by
  cases h with
  | nothing => rfl
  | access b rest _ _ ht =>
    rw [ht.frame_outsideIdle hs]
  | poll a mask value rest _ t ht =>
    rw [ht.frame]
    rfl

/-- A bus transaction reaches neither the port nor what the session owns, holds and counts. -/
theorem HostEffect.frame {b : BusAccess} {s t : State} (h : HostEffect b s t) :
    t = { s with
      ctrlWrap := t.ctrlWrap, fftSize := t.fftSize, sampleRate := t.sampleRate, toneA := t.toneA, toneF1 := t.toneF1
      toneF2 := t.toneF2, dbFloor := t.dbFloor, phase := t.phase, seq := t.seq, err := t.err, cancel := t.cancel
      cmdErr := t.cmdErr, cmdErrCause := t.cmdErrCause, accErr := t.accErr, specSeq := t.specSeq, mem := t.mem
      bus := t.bus, oracle := t.oracle, drawn := t.drawn } := by
  cases h with
  | configured r d => cases r <;> rfl
  | answered | drew | rejected | refused | cleared | cancelled | stored | started | wgen | analyze | synth => rfl

theorem HostTurnEffect.frame {s t : State} (h : HostTurnEffect s t) :
    t = { s with
      ctrlWrap := t.ctrlWrap, fftSize := t.fftSize, sampleRate := t.sampleRate, toneA := t.toneA, toneF1 := t.toneF1
      toneF2 := t.toneF2, dbFloor := t.dbFloor, phase := t.phase, seq := t.seq, err := t.err, cancel := t.cancel
      cmdErr := t.cmdErr, cmdErrCause := t.cmdErrCause, accErr := t.accErr, specSeq := t.specSeq, mem := t.mem
      bus := t.bus, oracle := t.oracle, drawn := t.drawn, program := t.program } := by
  cases h with
  | nothing => rfl
  | access b rest _ _ ht =>
    rw [ht.frame]
  | poll a mask value rest _ t ht =>
    rw [ht.frame]
    rfl

/-- The transport reaches only the port and RXBUF (R261). -/
theorem XportEffect.frame {s t : State} (h : XportEffect s t) :
    t = { s with
      xreq := t.xreq, xresp := t.xresp, mem := t.mem, oracle := t.oracle, drawn := t.drawn, sent := t.sent
      configured := t.configured } := by
  cases h <;> rfl

/-- SEQ reaches neither the configuration nor CANCEL, nor what records the host's errors. -/
theorem SeqEffect.frame {s t : State} (h : SeqEffect s t) :
    t = { s with
      phase := t.phase, phaseInc := t.phaseInc, seq := t.seq, err := t.err, txOwn := t.txOwn, rxOwn := t.rxOwn
      planValid := t.planValid, xportOpen := t.xportOpen, sinkOpen := t.sinkOpen, rxCount := t.rxCount
      txCount := t.txCount, cycleCount := t.cycleCount, lastTxBytes := t.lastTxBytes, lastRxBytes := t.lastRxBytes
      specSeq := t.specSeq, xreq := t.xreq, xresp := t.xresp, mem := t.mem } := by
  cases h <;> rfl

/-! ### The session's inputs (R285) -/

/-- Settles O47: outside IDLE none of HOST, SEQ and XPORT reaches a configuration register. -/
theorem sessionInputsAreFixed : Obligations.SessionInputsAreFixed := by
  unfold Obligations.SessionInputsAreFixed
  intro s t hs hreset hstep
  rcases step_cases hstep with ⟨-, heffect⟩ | ⟨-, heffect⟩ | ⟨-, heffect⟩ | ⟨hturn, -⟩
  case inl =>
    rw [heffect.frame_outsideIdle hs]
    exact ⟨rfl, rfl, rfl, rfl, rfl, rfl, rfl⟩
  case inr.inl =>
    rw [heffect.frame]
    exact ⟨rfl, rfl, rfl, rfl, rfl, rfl, rfl⟩
  case inr.inr.inl =>
    rw [heffect.frame]
    exact ⟨rfl, rfl, rfl, rfl, rfl, rfl, rfl⟩
  case inr.inr.inr => exact absurd hturn hreset

/-! ### STATUS.CANCEL (R45) -/

/-- HOST writes CANCEL only by the two commands that do. -/
theorem HostEffect.cancel_cases {b : BusAccess} {s t : State} (h : HostEffect b s t) :
    t.cancel = s.cancel ∨ (decodeBus b = .cancel ∧ t.cancel = true) ∨
      (decodeBus b = .start ∧ s.seq = .idle ∧ t.seq = .initCheck ∧ t.cancel = false) := by
  cases h with
  | answered | drew | rejected | refused | cleared | stored | wgen | analyze | synth => exact .inl rfl
  | configured r d => exact .inl (by simp)
  | cancelled hb => exact .inr (.inl ⟨hb, rfl⟩)
  | started hb hs => exact .inr (.inr ⟨hb, hs, rfl, rfl⟩)

theorem HostTurnEffect.cancel_cases {s t : State} (h : HostTurnEffect s t) :
    t.cancel = s.cancel ∨ ∃ b ops, s.program = .access b :: ops ∧ ((decodeBus b = .cancel ∧ t.cancel = true) ∨
      (decodeBus b = .start ∧ s.seq = .idle ∧ t.seq = .initCheck ∧ t.cancel = false)) := by
  cases h with
  | nothing => exact .inl rfl
  | access b rest hp _ ht => exact ht.cancel_cases.imp id fun hw => ⟨b, rest, hp, hw⟩
  | poll a mask value rest _ t ht =>
    rw [ht.frame]
    exact .inl rfl

/-- A flag that is kept has been neither set nor cleared. -/
theorem writers_of_kept {old new : Bool} {setter clearer : Prop} (h : new = old) :
    (old = false → new = true → setter) ∧ (old = true → new = false → clearer) := by
  subst h
  exact ⟨fun hclear hset => absurd (hclear.symm.trans hset) Bool.false_ne_true,
    fun hset hclear => absurd (hclear.symm.trans hset) Bool.false_ne_true⟩

/-- Settles O48: SEQ and XPORT do not reach CANCEL, and HOST writes it by CANCEL and START only. -/
theorem cancelFlagWriters : Obligations.CancelFlagWriters := by
  unfold Obligations.CancelFlagWriters
  intro s t hstep
  rcases step_cases hstep with ⟨hturn, heffect⟩ | ⟨-, heffect⟩ | ⟨-, heffect⟩ | ⟨hturn, rfl⟩
  case inl =>
    rcases heffect.cancel_cases with hsame | ⟨b, ops, hp, ⟨hb, hset⟩ | ⟨hb, hidle, hcheck, hclear⟩⟩
    · exact writers_of_kept hsame
    · exact ⟨fun _ _ => ⟨hturn, b, ops, hp, hb⟩, fun _ h => absurd (h.symm.trans hset) Bool.false_ne_true⟩
    · exact ⟨fun _ h => absurd (hclear.symm.trans h) Bool.false_ne_true,
        fun _ _ => .inr ⟨hidle, hcheck, hturn, b, ops, hp, hb⟩⟩
  case inr.inl =>
    have hsame : t.cancel = s.cancel := by rw [heffect.frame]; rfl
    exact writers_of_kept hsame
  case inr.inr.inl =>
    have hsame : t.cancel = s.cancel := by rw [heffect.frame]; rfl
    exact writers_of_kept hsame
  case inr.inr.inr => exact ⟨fun _ h => absurd h Bool.false_ne_true, fun _ _ => .inl hturn⟩

/-! ### The counters (R50, R51) -/

theorem SeqEffect.counters {s t : State} (h : SeqEffect s t) :
    (t.rxCount = s.rxCount ∧ t.txCount = s.txCount ∧ t.cycleCount = s.cycleCount) ∨ s.seq = .initBuild ∨
      s.seq = .strCount := by
  cases h with
  | built hs => exact .inr (.inl hs)
  | counts hs => exact .inr (.inr hs)
  | rests | waits | checkFails | checked | configureFails | configured | dividesByZero | cancelled | pushes | pushFails
  | refills | refillFails | publishes | analyzes | synthesizes | releases | releasesLocal | releasedTx | releasedRx
  | closed | diagWindow | diagSpectrum | diagBlock => exact .inl ⟨rfl, rfl, rfl⟩

/-- Settles O49: HOST and XPORT do not reach the counters, and SEQ writes them at two positions only. -/
theorem counterWriters : Obligations.CounterWriters := by
  unfold Obligations.CounterWriters
  intro s t hstep
  rcases step_cases hstep with ⟨-, heffect⟩ | ⟨hturn, heffect⟩ | ⟨-, heffect⟩ | ⟨hturn, -⟩
  case inl =>
    rw [heffect.frame]
    exact .inl ⟨rfl, rfl, rfl⟩
  case inr.inl => exact heffect.counters.imp id fun hs => .inr ⟨hturn, hs⟩
  case inr.inr.inl =>
    rw [heffect.frame]
    exact .inl ⟨rfl, rfl, rfl⟩
  case inr.inr.inr => exact .inr (.inl hturn)

/-! ### TERMINATED (R281) -/

/-- SEQ rests in TERMINATED. -/
theorem SeqEffect.of_terminated {s t : State} (h : SeqEffect s t) (hs : s.seq = .terminated) : t = s := by
  cases h with
  | rests | waits => rfl
  | checkFails hp | checked hp | configureFails _ hp | configured _ hp | dividesByZero hp | built hp | cancelled hp
  | pushes hp | pushFails _ hp | refills _ hp | refillFails _ hp | publishes _ hp | analyzes hp | counts hp
  | synthesizes hp | releases hp | releasesLocal hp | releasedTx _ hp | releasedRx _ hp | closed _ hp | diagWindow hp
  | diagSpectrum hp | diagBlock hp => exact absurd (hs.symm.trans hp) (by decide)

/-- The transport does nothing without a request. -/
theorem XportEffect.of_none {s t : State} (h : XportEffect s t) (hreq : s.xreq = .none) : t = s := by
  cases h with
  | nothing => rfl
  | answered h => simp [hreq] at h
  | configured h | pushed h | refilled h => exact absurd (hreq.symm.trans h) (by decide)

/-- Settles O50: in TERMINATED SEQ rests, XPORT has no request, and HOST reaches none of these registers. -/
theorem terminatedIsTerminal : Obligations.TerminatedIsTerminal := by
  unfold Obligations.TerminatedIsTerminal
  intro s t hs hreset hreq hstep
  rcases step_cases hstep with ⟨-, heffect⟩ | ⟨-, heffect⟩ | ⟨-, heffect⟩ | ⟨hturn, -⟩
  case inl =>
    have hidle : s.seq ≠ .idle := by rw [hs]; decide
    rw [heffect.frame_outsideIdle hidle]
    exact ⟨hs, rfl, rfl, rfl, rfl, rfl, rfl, rfl, fun _ => rfl⟩
  case inr.inl =>
    rw [heffect.of_terminated hs]
    exact ⟨hs, rfl, rfl, rfl, rfl, rfl, rfl, rfl, fun _ => rfl⟩
  case inr.inr.inl =>
    rw [heffect.of_none hreq]
    exact ⟨hs, rfl, rfl, rfl, rfl, rfl, rfl, rfl, fun _ => rfl⟩
  case inr.inr.inr => exact absurd hturn hreset

end Sys2Proof.Machine

namespace Sys2Proof.Machine

/-! ### Which bytes of RAM each agent writes -/

/-- The offsets of each RAM's region (R82 to R85). -/
def inWin (a : Nat) : Prop := winBase ≤ a ∧ a < specBase
def inSpec (a : Nat) : Prop := specBase ≤ a ∧ a < rxBase
def inRx (a : Nat) : Prop := rxBase ≤ a ∧ a < txBase
def inTx (a : Nat) : Prop := txBase ≤ a ∧ a < mapEnd

/-! The entries of each RAM lie in its region. -/

section
variable {p : Params} {a : Nat} (hp : p.Legal)
include hp

theorem outside_win {n : Nat} (hn : n ≤ p.nmax) (ha : ¬ inWin a) : a < winBase ∨ winBase + 8 * n ≤ a := by
  obtain ⟨-, -, -, -, -, -, hnmax⟩ := hp
  simp only [inWin, winBase, specBase] at *
  omega

theorem outside_spec {n : Nat} (hn : n ≤ p.nmax) (ha : ¬ inSpec a) : a < specBase ∨ specBase + 16 * n ≤ a := by
  obtain ⟨-, -, -, -, -, -, hnmax⟩ := hp
  simp only [inSpec, specBase, rxBase] at *
  omega

theorem outside_rx (ha : ¬ inRx a) : a < rxBase ∨ rxBase + 4 * p.blockLen ≤ a := by
  obtain ⟨-, -, hblock, -⟩ := hp
  simp only [inRx, rxBase, txBase] at *
  omega

theorem outside_tx (ha : ¬ inTx a) : a < txBase ∨ txBase + 4 * p.blockLen ≤ a := by
  obtain ⟨-, -, hblock, -⟩ := hp
  simp only [inTx, txBase, mapEnd] at *
  omega

end

/-- HOST writes WIN and RXBUF, in IDLE (R165). -/
theorem HostEffect.byteAt {b : BusAccess} {s t : State} (h : HostEffect b s t) (a : Nat) :
    t.byteAt a = s.byteAt a ∨ (s.seq = .idle ∧ (inWin a ∨ inRx a)) := by
  cases h with
  | configured r d => exact .inl (State.byteAt_congr (by simp) (by simp))
  | answered | drew | rejected | refused | cleared | cancelled | started | wgen | analyze | synth => exact .inl rfl
  | stored x d hs hx =>
    by_cases ha : x ≤ a ∧ a < x + 8
    · exact .inr ⟨hs, hx.imp (fun hwin => ⟨by omega, by omega⟩) (fun hrx => ⟨by omega, by omega⟩)⟩
    · exact .inl (State.byteAt_writeWord_outside rfl rfl (by omega))

theorem HostTurnEffect.byteAt {s t : State} (h : HostTurnEffect s t) (a : Nat) :
    t.byteAt a = s.byteAt a ∨ (s.seq = .idle ∧ (inWin a ∨ inRx a)) := by
  cases h with
  | nothing => exact .inl rfl
  | access b rest _ _ ht => exact ht.byteAt a
  | poll a mask value rest _ t ht =>
    rw [ht.frame]
    exact .inl rfl

/-- XPORT writes RXBUF, to answer REFILL (R261). -/
theorem XportEffect.byteAt {s t : State} (hp : s.par.Legal) (h : XportEffect s t) (a : Nat) :
    t.byteAt a = s.byteAt a ∨ (s.xreq = .refill ∧ inRx a) := by
  cases h with
  | nothing | answered | configured | pushed => exact .inl rfl
  | refilled hreq =>
    by_cases ha : inRx a
    · exact .inr ⟨hreq, ha⟩
    · exact .inl (State.byteAt_fill_outside rfl rfl (by decide) (outside_rx hp ha))

/-- SEQ writes WIN where it builds a window, SPEC where it analyzes, TXBUF where it builds a block. -/
theorem SeqEffect.byteAt {s t : State} (hi : Inv s) (h : SeqEffect s t) (a : Nat) :
    t.byteAt a = s.byteAt a ∨ ((s.seq = .initBuild ∨ s.seq = .diagWgen) ∧ inWin a) ∨
      ((s.seq = .strAnalyze ∨ s.seq = .diagAnalyze) ∧ inSpec a) ∨
      ((s.seq = .initBuild ∨ s.seq = .strSynth ∨ s.seq = .diagSynth) ∧ inTx a) := by
  have hchecked := hi.checked
  have window : ∀ {n}, n ≤ s.par.nmax → ¬ inWin a → a < winBase ∨ winBase + 8 * n ≤ a := outside_win hi.par
  have spectrum : s.sizeLegal = true → inSpec a ∨ s.spectrumFn.byteAt a = s.byteAt a := fun hsize =>
    or_iff_not_imp_left.mpr fun ha => s.spectrumFn_mem.2 a (outside_spec hi.par (State.n_le_nmax hsize) ha)
  have block : ∀ u : State, u.par = s.par → inTx a ∨ u.synthBlock.byteAt a = u.byteAt a := fun u hu =>
    or_iff_not_imp_left.mpr fun ha => u.synthBlock_mem.2 a (hu ▸ outside_tx hi.par ha)
  cases h with
  | rests | waits | checkFails | checked | configureFails | configured | dividesByZero | cancelled | pushes | pushFails
  | refills | refillFails | publishes | counts | releases | releasesLocal | releasedTx | releasedRx | closed => exact .inl rfl
  | built hs =>
    rw [ConfigChecked, hs] at hchecked
    have hn := State.n_le_nmax hchecked.1
    by_cases hwin : inWin a
    · exact .inr (.inl ⟨.inl hs, hwin⟩)
    by_cases htx : inTx a
    · exact .inr (.inr (.inr ⟨.inl hs, htx⟩))
    have houtWin := outside_win hi.par hn hwin
    have houtTx := outside_tx hi.par htx
    exact .inl ((State.build_mem hi.par hn).2.2 a (by omega) (by omega))
  | diagWindow hs =>
    rw [ConfigChecked, hs] at hchecked
    by_cases ha : inWin a
    · exact .inr (.inl ⟨.inr hs, ha⟩)
    · exact .inl (s.buildWindow_mem.2 a (outside_win hi.par hchecked.2 ha))
  | analyzes hs =>
    rw [ConfigChecked, hs] at hchecked
    exact (spectrum hchecked.1).elim (fun ha => .inr (.inr (.inl ⟨.inl hs, ha⟩))) .inl
  | diagSpectrum hs =>
    rw [ConfigChecked, hs] at hchecked
    exact (spectrum hchecked.1).elim (fun ha => .inr (.inr (.inl ⟨.inr hs, ha⟩))) .inl
  | synthesizes hs => exact (block s rfl).elim (fun ha => .inr (.inr (.inr ⟨.inr (.inl hs), ha⟩))) .inl
  | diagBlock hs => exact (block s.setPhaseInc rfl).elim (fun ha => .inr (.inr (.inr ⟨.inr (.inr hs), ha⟩))) .inl

/-! ### The publication (R96) -/

/-- HOST leaves SPEC_SEQ alone, or begins a publication by ANALYZE. -/
theorem HostTurnEffect.specSeq_cases {s t : State} (h : HostTurnEffect s t) :
    t.specSeq = s.specSeq ∨ (t.specSeq = s.specSeq + 1 ∧ s.seq = .idle ∧ t.seq = .diagAnalyze ∧
      ∃ b ops, s.program = .access b :: ops ∧ decodeBus b = .analyze) := by
  cases h with
  | nothing => exact .inl rfl
  | poll a mask value rest _ t ht =>
    rw [ht.frame]
    exact .inl rfl
  | access b rest hp _ ht =>
    cases ht with
    | answered | drew | rejected | refused | cleared | stored | started | cancelled | wgen | synth => exact .inl rfl
    | configured r d => exact .inl (by simp)
    | analyze hb hs => exact .inr ⟨rfl, hs, rfl, b, rest, hp, hb⟩

/-- SEQ leaves SPEC_SEQ alone, begins a publication at REFILL_WAIT, or ends one at an analyzing position. -/
theorem SeqEffect.specSeq_cases {s t : State} (h : SeqEffect s t) :
    (t.specSeq = s.specSeq ∧ ¬ (s.seq = .strAnalyze ∨ s.seq = .diagAnalyze)) ∨
    (t.specSeq = s.specSeq + 1 ∧ ((s.seq = .strRefillWait ∧ t.seq = .strAnalyze) ∨
      (s.seq = .strAnalyze ∧ t.seq = .strCount) ∨ (s.seq = .diagAnalyze ∧ t.seq = .idle))) := by
  cases h with
  | publishes _ hs => exact .inr ⟨rfl, .inl ⟨hs, rfl⟩⟩
  | analyzes hs => exact .inr ⟨rfl, .inr (.inl ⟨hs, rfl⟩)⟩
  | diagSpectrum hs => exact .inr ⟨rfl, .inr (.inr ⟨hs, rfl⟩)⟩
  | rests hs => exact .inl ⟨rfl, by rcases hs with hs | hs <;> simp [hs]⟩
  | waits hs => exact .inl ⟨rfl, by rintro (h | h) <;> exact hs (congrArg SeqPos.awaits h)⟩
  | checkFails hs | checked hs | configureFails _ hs | configured _ hs | dividesByZero hs | built hs | cancelled hs
  | pushes hs | pushFails _ hs | refills _ hs | refillFails _ hs | counts hs | synthesizes hs | releases hs
  | releasesLocal hs | releasedTx _ hs | releasedRx _ hs | closed _ hs | diagWindow hs | diagBlock hs =>
    exact .inl ⟨rfl, by simp [hs]⟩

/-- The parity of SPEC_SEQ at a position (R56, R69). -/
theorem Inv.specSeq_odd {s : State} (hi : Inv s) : s.specSeq.toNat % 2 = 1 ↔ s.seq = .strAnalyze ∨ s.seq = .diagAnalyze :=
  State.publishing_iff.symm.trans hi.specSeq

theorem Inv.specSeq_even {s : State} (hi : Inv s) (hs : ¬ (s.seq = .strAnalyze ∨ s.seq = .diagAnalyze)) :
    s.specSeq.toNat % 2 = 0 := by
  have := hi.specSeq_odd.not.mpr hs
  omega

theorem inSpec_not_other {a : Nat} (h : inSpec a) : ¬ inWin a ∧ ¬ inRx a ∧ ¬ inTx a := by
  simp only [inSpec, inWin, inRx, inTx, winBase, specBase, rxBase, txBase, mapEnd] at *
  omega

/-- SPEC is written only at an analyzing position. -/
theorem SeqEffect.spec_kept {s t : State} (hi : Inv s) (h : SeqEffect s t)
    (hs : ¬ (s.seq = .strAnalyze ∨ s.seq = .diagAnalyze)) {a : Nat} (ha : inSpec a) : t.byteAt a = s.byteAt a := by
  obtain ⟨hwin, -, htx⟩ := inSpec_not_other ha
  rcases h.byteAt hi a with hsame | ⟨-, h⟩ | ⟨h, -⟩ | ⟨-, h⟩
  · exact hsame
  · exact absurd h hwin
  · exact absurd h hs
  · exact absurd h htx

/-- Settles O51: SPEC_SEQ and SPEC change only as `HostTurnEffect.specSeq_cases` and `SeqEffect.specSeq_cases` say; the
invariant gives the parity at each position. -/
theorem spectrumChangesOnlyInAPublication : Obligations.SpectrumChangesOnlyInAPublication := by
  unfold Obligations.SpectrumChangesOnlyInAPublication
  intro s t hi hreset hstep
  have hspent : Inv s.spendTurn := hi.congr rfl
  rcases step_cases hstep with ⟨hturn, heffect⟩ | ⟨hturn, heffect⟩ | ⟨-, heffect⟩ | ⟨hturn, -⟩
  case inl =>
    have hspec : ∀ a, specBase ≤ a → a < rxBase → t.byteAt a = s.byteAt a := by
      intro a h1 h2
      obtain ⟨hwin, hrx, -⟩ := inSpec_not_other ⟨h1, h2⟩
      exact (heffect.byteAt a).resolve_right fun h => h.2.elim hwin hrx
    refine ⟨fun _ => hspec, fun hne => ?_⟩
    obtain ⟨hbump, hs, ht, hprogram⟩ := heffect.specSeq_cases.resolve_left hne
    have hs' : s.seq = .idle := hs
    exact ⟨hbump, .inl ⟨hi.specSeq_even (by simp [hs']), hspec, .inr ⟨hturn, hs, ht, hprogram⟩⟩⟩
  case inr.inl =>
    rcases heffect.specSeq_cases with ⟨hsame, hs⟩ | ⟨hbump, ⟨hs, ht⟩ | hanalyzing⟩
    · exact ⟨fun _ _ h1 h2 => heffect.spec_kept hspent hs ⟨h1, h2⟩, fun hne => absurd hsame hne⟩
    · have hs' : s.seq = .strRefillWait := hs
      have hnot : ¬ (s.seq = .strAnalyze ∨ s.seq = .diagAnalyze) := by simp [hs']
      have hspec : ∀ a, specBase ≤ a → a < rxBase → t.byteAt a = s.byteAt a := fun _ h1 h2 =>
        heffect.spec_kept hspent hnot ⟨h1, h2⟩
      exact ⟨fun _ => hspec, fun _ => ⟨hbump, .inl ⟨hi.specSeq_even hnot, hspec, .inl ⟨hturn, hs, ht⟩⟩⟩⟩
    · have hodd := hi.specSeq_odd.mpr (hanalyzing.imp And.left And.left)
      refine ⟨fun hsame => ?_, fun _ => ⟨hbump, .inr ⟨hodd, hturn, hanalyzing⟩⟩⟩
      have hkept : t.publishing = s.publishing := by rw [State.publishing, hsame, State.publishing]
      exact absurd (hkept.symm.trans (State.publishing_of_bump (s := s) hbump)) (by simp)
  case inr.inr.inl =>
    refine ⟨fun _ a h1 h2 => ?_, fun hne => absurd (by rw [heffect.frame]; rfl) hne⟩
    exact (heffect.byteAt hspent.par a).resolve_right fun h => (inSpec_not_other ⟨h1, h2⟩).2.1 h.2
  case inr.inr.inr => exact absurd hturn hreset

/-! ### Buffers in flight (R274, R101) -/

/-- While a buffer is in flight SEQ waits, and writes no RAM. -/
theorem SeqEffect.waits_keep_ram {s t : State} (hi : Inv s) (h : SeqEffect s t)
    (hs : s.seq = .strPushWait ∨ s.seq = .strRefillWait) (a : Nat) : t.byteAt a = s.byteAt a := by
  rcases h.byteAt hi a with hsame | ⟨h, -⟩ | ⟨h, -⟩ | ⟨h, -⟩
  · exact hsame
  all_goals rcases hs with hs | hs <;> simp [hs] at h

/-- Settles O52: an ownership bit says where SEQ waits; HOST writes RAM in IDLE only, XPORT no TXBUF. -/
theorem bufferInFlightIsUntouched : Obligations.BufferInFlightIsUntouched := by
  unfold Obligations.BufferInFlightIsUntouched
  intro s t hi hreset hstep
  have hspent : Inv s.spendTurn := hi.congr rfl
  have hwaits : s.txOwn = true ∨ s.rxOwn = true → s.seq = .strPushWait ∨ s.seq = .strRefillWait :=
    Or.imp hi.txOwn.mp hi.rxOwn.mp
  rcases step_cases hstep with ⟨-, heffect⟩ | ⟨-, heffect⟩ | ⟨hturn, heffect⟩ | ⟨hturn, -⟩
  case inl =>
    have hkeep : s.txOwn = true ∨ s.rxOwn = true → ∀ a, t.byteAt a = s.byteAt a := by
      intro hown a
      refine (heffect.byteAt a).resolve_right fun ⟨hidle, _⟩ => ?_
      have hidle' : s.seq = .idle := hidle
      rcases hwaits hown with hs | hs <;> simp [hidle'] at hs
    exact ⟨fun h a _ _ => hkeep (.inl h) a, fun h _ a _ _ => hkeep (.inr h) a⟩
  case inr.inl =>
    exact ⟨fun h a _ _ => heffect.waits_keep_ram hspent (hwaits (.inl h)) a,
      fun h _ a _ _ => heffect.waits_keep_ram hspent (hwaits (.inr h)) a⟩
  case inr.inr.inl =>
    refine ⟨fun _ a h1 _ => ?_, fun _ hnot => absurd hturn hnot⟩
    exact (heffect.byteAt hspent.par a).resolve_right fun h => absurd h.2.2 (Nat.not_lt.mpr h1)
  case inr.inr.inr => exact absurd hturn hreset

end Sys2Proof.Machine

namespace Sys2Proof.Machine

/-! ### Rounding, zeros among the results (R11) -/

theorem roundLow_zero (d : Nat) : roundLow 0 d = 0 := by
  simp [roundLow, roundShift, roundDiv, Nat.zero_div]

/-- A zero is what its sign and the number 0 round to. -/
theorem F64.zero_eq_round (sign : Bool) (d : Nat) : F64.zero sign = F64.round sign 0 d := by
  rw [F64.round, roundLow_zero, F64.zero]

/-- Rounding a signed quotient gives the nearest value, ties to even, and the infinity of its sign past the finite
range. -/
theorem F64.round_nearestEven (sign : Bool) (n : Nat) {d : Nat} (hd : 0 < d) :
    F64.NearestEven (F64.round sign n d) (if sign then -(n : Int) else n) d := by
  have habs : |if sign then -(n : Int) else n| = n := by cases sign <;> simp
  have hrange : ((18014398509481983 * (d * F64.topStep) : Nat) : Int) = 18014398509481983 * ((d : Int) * (F64.topStep : Int)) := by
    push_cast
    rfl
  rw [F64.NearestEven, habs, ← hrange]
  refine ⟨?finite, ?overflow⟩
  case finite =>
    intro h
    have hfinite : F64.isFinite (F64.round sign n d) = true := (F64.isFinite_round hd).mpr (by omega)
    exact ⟨hfinite, fun y _ => F64.round_nearest hd hfinite y⟩
  case overflow =>
    intro h
    have hpos : 0 < d * F64.topStep := Nat.mul_pos hd F64.topStep_pos
    rw [F64.round_overflow hd (by omega)]
    have hn : 0 < n := by omega
    have hsign : decide ((if sign then -(n : Int) else n) < 0) = sign := by cases sign <;> simp [hn]
    rw [hsign]

/-- Rounding an integer multiple of the step of the subnormals. -/
theorem F64.roundInt_nearestEven (zeroSign : Bool) (v : Int) : F64.NearestEven (F64.roundInt zeroSign v) v 1 := by
  rw [F64.roundInt]
  split
  · next hv =>
    subst hv
    have h := F64.round_nearestEven zeroSign 0 (d := 1) Nat.one_pos
    rw [← F64.zero_eq_round] at h
    simpa using h
  · have h := F64.round_nearestEven (decide (v < 0)) v.natAbs (d := 1) Nat.one_pos
    have hv : (if decide (v < 0) = true then -(v.natAbs : Int) else v.natAbs) = v := by
      split
      · next hneg => rw [decide_eq_true_eq] at hneg; omega
      · next hpos => rw [decide_eq_true_eq] at hpos; omega
    rwa [hv, Nat.cast_one] at h

/-! ### The four operations on finite values (R11, R16) -/

theorem F64.sign_neg (x : Word) : F64.sign (F64.neg x) = !F64.sign x := F64.sign_pack (Nat.mod_lt _ (by decide))

theorem F64.scaled_neg (x : Word) : F64.scaled (F64.neg x) = -F64.scaled x := by
  rw [F64.neg, F64.scaled_pack (Nat.mod_lt _ (by decide)), F64.scaled_eq x]
  cases F64.sign x <;> simp

theorem F64.isFinite_neg {x : Word} (h : F64.isFinite x = true) : F64.isFinite (F64.neg x) = true := by
  have hlow := F64.isFinite_low h
  exact (F64.isFinite_pack hlow.le).mpr hlow

section
variable {a b : Word} (ha : F64.isFinite a = true) (hb : F64.isFinite b = true)
include ha hb

theorem F64.addCore_of_finite (op : NanSource) (a0 b0 : Word) :
    F64.addCore op a b a0 b0 = F64.roundInt (F64.sign a && F64.sign b) (F64.scaled a + F64.scaled b) := by
  simp [F64.addCore, F64.finite_cases ha, F64.finite_cases hb]

theorem F64.add_of_finite : F64.add a b = F64.roundInt (F64.sign a && F64.sign b) (F64.scaled a + F64.scaled b) := by
  rw [F64.add, (F64.finite_cases ha).1, (F64.finite_cases hb).1, Bool.or_self, if_neg Bool.false_ne_true,
    F64.addCore_of_finite ha hb]

theorem F64.sub_of_finite : F64.sub a b = F64.roundInt (F64.sign a && !F64.sign b) (F64.scaled a - F64.scaled b) := by
  rw [F64.sub, (F64.finite_cases ha).1, (F64.finite_cases hb).1, Bool.or_self, if_neg Bool.false_ne_true,
    F64.addCore_of_finite ha (F64.isFinite_neg hb), F64.sign_neg, F64.scaled_neg, Int.sub_eq_add_neg]

/-- The sign of a product or a quotient of finite values is the sign its zeros have too. -/
theorem F64.mul_of_finite :
    F64.mul a b = F64.round (F64.sign a != F64.sign b) (F64.mag a * F64.mag b) F64.unit := by
  simp only [F64.mul, F64.finite_cases ha, F64.finite_cases hb, Bool.or_self, Bool.false_eq_true, if_false]
  split
  · next hzero =>
    have hmag : F64.mag a * F64.mag b = 0 := by
      rw [Bool.or_eq_true, F64.isZero_iff_mag, F64.isZero_iff_mag] at hzero
      exact mul_eq_zero.mpr hzero
    rw [hmag, ← F64.zero_eq_round]
  · rfl

theorem F64.div_of_finite (hzero : F64.mag b ≠ 0) :
    F64.div a b = F64.round (F64.sign a != F64.sign b) (F64.mag a * F64.unit) (F64.mag b) := by
  have hb0 : F64.isZero b = false := Bool.not_eq_true _ ▸ F64.isZero_iff_mag.not.mpr hzero
  simp only [F64.div, F64.finite_cases ha, F64.finite_cases hb, hb0, Bool.or_self, Bool.false_eq_true, if_false]
  split
  · next ha0 => rw [F64.isZero_iff_mag.mp ha0, Nat.zero_mul, ← F64.zero_eq_round]
  · rfl

end

/-- Settles O57: each operation on finite values is one rounding of its exact result, which is nearest by
`F64.round_nearestEven`. -/
theorem arithmeticRoundsToNearest : Obligations.ArithmeticRoundsToNearest := by
  unfold Obligations.ArithmeticRoundsToNearest
  intro a b ha hb
  refine ⟨?add, ?sub, ?mul, ?div⟩
  case add =>
    rw [F64.add_of_finite ha hb]
    exact F64.roundInt_nearestEven _ _
  case sub =>
    rw [F64.sub_of_finite ha hb]
    exact F64.roundInt_nearestEven _ _
  case mul =>
    rw [F64.mul_of_finite ha hb]
    have hx : F64.scaled a * F64.scaled b = if (F64.sign a != F64.sign b) = true
        then -((F64.mag a * F64.mag b : Nat) : Int) else (F64.mag a * F64.mag b : Nat) := by
      rw [F64.scaled, F64.scaled]
      cases F64.sign a <;> cases F64.sign b <;> simp
    rw [hx]
    exact F64.round_nearestEven _ _ F64.unit_pos
  case div =>
    intro hne
    have habs : |F64.scaled b| = F64.mag b := by
      rw [F64.scaled]
      cases F64.sign b <;> simp
    have hmag : F64.mag b ≠ 0 := by
      intro h
      rw [h] at habs
      exact hne (abs_eq_zero.mp habs)
    have hsign : 0 < F64.scaled b ↔ F64.sign b = false := by
      rw [F64.scaled]
      cases F64.sign b <;> simp
      omega
    rw [F64.div_of_finite ha hb hmag, habs]
    have hx : (if 0 < F64.scaled b then F64.scaled a * F64.unit else -(F64.scaled a * F64.unit)) =
        if (F64.sign a != F64.sign b) = true then -((F64.mag a * F64.unit : Nat) : Int) else (F64.mag a * F64.unit : Nat) := by
      simp only [hsign]
      rw [F64.scaled]
      generalize F64.unit = unit
      cases F64.sign a <;> cases F64.sign b <;> simp
    rw [hx]
    exact F64.round_nearestEven _ _ (Nat.pos_of_ne_zero hmag)

end Sys2Proof.Machine

namespace Sys2Proof.Machine

/-! ### Integers (R16) -/

/-- A number of at most 53 significant bits is a multiple of its own step, so rounding keeps it. -/
theorem lowMag_roundLow_exact {k m : Nat} (hk : k < 2 ^ 53) (hf : roundLow (k * 2 ^ m) 1 < F64.infLow) :
    lowMag (roundLow (k * 2 ^ m) 1) = k * 2 ^ m := by
  have hshift : roundShift (k * 2 ^ m) 1 ≤ m := by
    refine Nat.lt_succ_iff.mp ((roundShift_lt Nat.one_pos).mpr ?_)
    rw [Nat.mul_one, Nat.pow_add]
    exact Nat.mul_lt_mul_of_pos_right hk (Nat.pow_pos (by decide))
  have hdvd : 2 ^ roundShift (k * 2 ^ m) 1 ∣ k * 2 ^ m := (Nat.pow_dvd_pow 2 hshift).mul_left k
  rw [(lowMag_roundLow hf).1, Nat.one_mul]
  generalize 2 ^ roundShift (k * 2 ^ m) 1 = step at hdvd ⊢
  have hround : roundDiv (k * 2 ^ m) step = k * 2 ^ m / step := by
    have hrem : k * 2 ^ m % step = 0 := Nat.mod_eq_zero_of_dvd hdvd
    rcases roundDiv_cases (k * 2 ^ m) step with ⟨h, -⟩ | ⟨-, hle, htie⟩
    · exact h
    · rw [hrem] at hle htie
      obtain rfl : step = 0 := by omega
      simp at htie
  rw [hround, Nat.div_mul_cancel hdvd]

/-- An integer up to 2^53 in size has at most 53 significant bits as a multiple of 2^-1074. -/
theorem exists_significand {n : Nat} (hn : n ≤ 2 ^ 53) : ∃ k m, k < 2 ^ 53 ∧ n * F64.unit = k * 2 ^ m := by
  obtain ⟨e, hunit⟩ : ∃ e, F64.unit = 2 ^ e := ⟨1074, rfl⟩
  rw [hunit]
  rcases Nat.lt_or_ge n (2 ^ 53) with hlt | hge
  · exact ⟨n, e, hlt, rfl⟩
  · exact ⟨1, 53 + e, by decide, by rw [Nat.pow_add, show n = 2 ^ 53 by omega, Nat.one_mul]⟩

theorem two_pow_mul_two_le {a b : Nat} (h : a < b) : 2 ^ a * 2 ≤ 2 ^ b :=
  (Nat.pow_succ ..).symm.trans_le (Nat.pow_le_pow_right (by decide) h)

/-- Integers up to 2^53 in size lie far below the greatest finite values. -/
theorem ofInt_in_range {n : Nat} (hn : n ≤ 2 ^ 53) : 2 * (n * F64.unit) < 18014398509481983 * (1 * F64.topStep) := by
  have htop : F64.unit * 2 ≤ F64.topStep := by
    rw [F64.unit, F64.topStep]
    exact two_pow_mul_two_le (a := 1074) (b := 2045) (by decide)
  have hunit := F64.unit_pos
  have hmul : n * F64.unit ≤ 2 ^ 53 * F64.unit := Nat.mul_le_mul_right _ hn
  generalize F64.unit = unit at htop hunit hmul ⊢
  generalize F64.topStep = top at htop ⊢
  generalize n * unit = v at hmul ⊢
  omega

/-- Conversion rounds the size of the integer and takes its sign. -/
theorem F64.ofInt_eq (i : Int) : F64.ofInt i = F64.round (decide (i < 0)) (i.natAbs * F64.unit) 1 := by
  have hunit : (0 : Int) < F64.unit := Int.natCast_pos.mpr F64.unit_pos
  have hsign : i * F64.unit < 0 ↔ i < 0 := ⟨fun h => neg_of_mul_neg_left h hunit.le, fun h => mul_neg_of_neg_of_pos h hunit⟩
  rw [F64.ofInt, F64.roundInt]
  split
  · next hzero =>
    obtain rfl : i = 0 := (mul_eq_zero.mp hzero).resolve_right hunit.ne'
    rw [Int.natAbs_zero, Nat.zero_mul, ← F64.zero_eq_round]
    rfl
  · rw [Int.natAbs_mul, Int.natAbs_natCast, decide_eq_decide.mpr hsign]

theorem F64.ofInt_zero : F64.ofInt 0 = 0 := by
  rw [F64.ofInt_eq, Int.natAbs_zero, Nat.zero_mul, ← F64.zero_eq_round]
  rfl

/-- Settles O56: the rounding in `F64.ofInt_eq` keeps a number of at most 53 significant bits. -/
theorem integersConvertExactly : Obligations.IntegersConvertExactly := by
  unfold Obligations.IntegersConvertExactly
  intro i hlow hhigh
  have hn : i.natAbs ≤ 2 ^ 53 := by omega
  have hbelow := (roundLow_finite Nat.one_pos).mpr (ofInt_in_range hn)
  have hmag : lowMag (roundLow (i.natAbs * F64.unit) 1) = i.natAbs * F64.unit := by
    obtain ⟨k, m, hk, heq⟩ := exists_significand hn
    rw [heq] at hbelow ⊢
    exact lowMag_roundLow_exact hk hbelow
  have hscaled : F64.scaled (F64.ofInt i) = i * F64.unit := by
    rw [F64.ofInt_eq, F64.round, F64.scaled_pack (hbelow.trans (by decide)), hmag]
    generalize F64.unit = unit
    split
    · next hneg =>
      rw [decide_eq_true_eq] at hneg
      push_cast
      rw [abs_of_neg hneg]
      ring
    · next hpos =>
      rw [decide_eq_true_eq, Int.not_lt] at hpos
      push_cast
      rw [abs_of_nonneg hpos]
  refine ⟨?finite, hscaled, ?trunc⟩
  case finite =>
    rw [F64.ofInt_eq]
    exact (F64.isFinite_round Nat.one_pos).mpr (ofInt_in_range hn)
  case trunc =>
    rw [F64.trunc_eq_tdiv, hscaled]
    exact Int.mul_tdiv_cancel i (Int.natCast_pos.mpr F64.unit_pos).ne'

/-! ### Zeros (R191, R222) -/

theorem F64.zero_cases (sign : Bool) :
    F64.isZero (F64.zero sign) = true ∧ F64.isFinite (F64.zero sign) = true ∧ F64.sign (F64.zero sign) = sign := by
  cases sign <;> decide

/-- A finite value less itself is +0.0. -/
theorem F64.sub_self {x : Word} (h : F64.isFinite x = true) : F64.sub x x = 0 := by
  rw [F64.sub_of_finite h h, Int.sub_self, Bool.and_not_self, F64.roundInt, if_pos rfl]
  rfl

/-- A finite value times a zero is a zero. -/
theorem F64.mul_zero_of_finite {a b : Word} (ha : F64.isFinite a = true) (hb : F64.isFinite b = true)
    (h : F64.isZero a = true ∨ F64.isZero b = true) : F64.mul a b = F64.zero (F64.sign a != F64.sign b) := by
  have hmag : F64.mag a * F64.mag b = 0 :=
    mul_eq_zero.mpr (h.imp F64.isZero_iff_mag.mp F64.isZero_iff_mag.mp)
  rw [F64.mul_of_finite ha hb, hmag, ← F64.zero_eq_round]

/-- A number of at least one step of the subnormals does not round to zero. -/
theorem roundLow_pos {n d : Nat} (hd : 0 < d) (h : d ≤ n) : 0 < roundLow n d := by
  have hquot : 0 < n / d := Nat.div_pos h hd
  rw [roundLow]
  refine Nat.lt_min.mpr ⟨?_, by decide⟩
  rcases Nat.eq_zero_or_pos (roundShift n d) with hsub | hnormal
  · have hround := roundDiv_cases n d
    rw [hsub, Nat.pow_zero, Nat.mul_one]
    omega
  · omega

/-- A positive integer converts to a positive value, which may be infinite. -/
theorem F64.ofInt_pos {i : Int} (hi : 0 < i) :
    F64.isNaN (F64.ofInt i) = false ∧ F64.isZero (F64.ofInt i) = false ∧ F64.sign (F64.ofInt i) = false := by
  have hge : 1 ≤ i.natAbs * F64.unit := Nat.mul_pos (by omega) F64.unit_pos
  have hpos := roundLow_pos Nat.one_pos hge
  have hle := roundLow_le (i.natAbs * F64.unit) 1
  rw [F64.ofInt_eq, F64.round]
  generalize roundLow (i.natAbs * F64.unit) 1 = low at hpos hle ⊢
  rw [F64.infLow] at hle
  have hlow : low < 2 ^ 63 := by omega
  rw [F64.isNaN, F64.isZero, F64.sign_pack hlow, F64.biasedExp_pack hlow, F64.frac_pack hlow]
  refine ⟨?nan, ?zero, decide_eq_false (by omega)⟩
  case nan =>
    rw [Bool.and_eq_false_iff, beq_eq_false_iff_ne, bne_eq_false_iff_eq]
    omega
  case zero =>
    rw [Bool.and_eq_false_iff, beq_eq_false_iff_ne, beq_eq_false_iff_ne]
    omega

/-- +0.0 over a positive integer is +0.0. -/
theorem F64.zero_div_ofInt {i : Int} (hi : 0 < i) : F64.div 0 (F64.ofInt i) = 0 := by
  obtain ⟨hnan, hzero, hsign⟩ := F64.ofInt_pos hi
  obtain ⟨h0zero, h0finite, h0sign⟩ := F64.zero_cases false
  obtain ⟨h0nan, h0inf⟩ := F64.finite_cases h0finite
  change F64.div (F64.zero false) (F64.ofInt i) = F64.zero false
  simp only [F64.div, hnan, hzero, hsign, h0zero, h0sign, h0nan, h0inf, Bool.or_self, bne_self_eq_false,
    Bool.false_eq_true, if_false, if_true, ite_self]

/-- Settles O59: every operation of the formula meets a zero, and the cosine of zero is 1. -/
theorem windowStartsAtZero : Obligations.WindowStartsAtZero := by
  unfold Obligations.WindowStartsAtZero
  intro n hn
  have hangle : F64.mul twoPi (F64.ofInt 0) = 0 := by
    rw [F64.ofInt_zero]
    exact F64.mul_zero_of_finite (by decide) (by decide) (.inr (by decide))
  have hquot : F64.div 0 (F64.ofInt ((n : Int) - 1)) = 0 := F64.zero_div_ofInt (by omega)
  have hcos : cos64 0 = F64.one := if_pos (by decide)
  have hdiff : F64.sub F64.one F64.one = 0 := F64.sub_self (by decide)
  have hhalf : F64.mul F64.half 0 = 0 := F64.mul_zero_of_finite (by decide) (by decide) (.inr (by decide))
  calc hann64 0 n
      = F64.mul F64.half (F64.sub F64.one (cos64 (F64.div (F64.mul twoPi (F64.ofInt 0)) (F64.ofInt ((n : Int) - 1))))) := rfl
    _ = 0 := by rw [hangle, hquot, hcos, hdiff, hhalf]

theorem F64.isFinite_of_isZero {x : Word} (h : F64.isZero x = true) : F64.isFinite x = true := by
  rw [F64.isZero, Bool.and_eq_true, beq_iff_eq] at h
  rw [F64.isFinite, h.1]
  rfl

/-- CABS0 (R216). -/
theorem cabs64_of_isZero {re im : Word} (hre : F64.isZero re = true) (him : F64.isZero im = true) : cabs64 re im = 0 := by
  simp only [cabs64, hre, him, F64.finite_cases (F64.isFinite_of_isZero hre), F64.finite_cases (F64.isFinite_of_isZero him),
    Bool.or_self, Bool.and_self, Bool.false_eq_true, if_false, if_true]

/-- DFT_ZERO (R214): zeros transform to zeros, which for one sample are the sample itself. -/
theorem dft64_of_isZero {n k : Nat} {re im : Nat → Word}
    (h : ∀ j, j < n → F64.isZero (re j) = true ∧ F64.isZero (im j) = true) :
    F64.isZero (dft64 n ((List.range n).map re) ((List.range n).map im) k).1 = true ∧
      F64.isZero (dft64 n ((List.range n).map re) ((List.range n).map im) k).2 = true := by
  have hre : ((List.range n).map re).all F64.isZero = true := by
    simp only [List.all_map, List.all_eq_true, List.mem_range]
    exact fun j hj => (h j hj).1
  have him : ((List.range n).map im).all F64.isZero = true := by
    simp only [List.all_map, List.all_eq_true, List.mem_range]
    exact fun j hj => (h j hj).2
  rw [dft64]
  split
  · next hone => subst hone; exact h 0 Nat.one_pos
  · rw [hre, him, Bool.and_self, if_pos rfl]
    exact ⟨(F64.zero_cases _).1, (F64.zero_cases _).1⟩

/-- A zero sample under a finite window entry stays a zero. -/
theorem isZero_windowed {x : S16} {w : Word} (hx : x = 0) (hw : F64.isFinite w = true) :
    F64.isZero (F64.mul (F64.ofInt x.toInt) w) = true := by
  have hint : (0 : S16).toInt = 0 := rfl
  rw [hx, hint, F64.ofInt_zero, F64.mul_zero_of_finite (by decide) hw (.inl (by decide))]
  exact (F64.zero_cases _).1

/-- Settles O60: both analyzing positions write the spectrum of the block, and of zero samples every magnitude is zero. -/
theorem zeroBlockGivesTheFloor : Obligations.ZeroBlockGivesTheFloor := by
  unfold Obligations.ZeroBlockGivesTheFloor
  intro s hs hblock
  refine ⟨_, seqTurn_analyzing hs, fun k hk => ?_⟩
  have hbin : F64.isZero (s.bin k).1 = true ∧ F64.isZero (s.bin k).2 = true := by
    refine dft64_of_isZero fun j hj => ?_
    obtain ⟨hsample, hwin⟩ := hblock j hj
    exact ⟨isZero_windowed (congrArg IQ.i hsample) hwin, isZero_windowed (congrArg IQ.q hsample) hwin⟩
  calc (s.spectrumFn.bumpSpecSeq.goto s.afterAnalyze).specMag k
      = s.binDb k := (s.spectrumFn_mem.1 k hk).2
    _ = magToDb s.dbFloor 0 := by rw [State.binDb, cabs64_of_isZero hbin.1 hbin.2]
    _ = s.dbFloor := if_pos (by decide)

end Sys2Proof.Machine

namespace Sys2Proof.Machine

/-! ### The steps at the waits of a session (R269, R270, R277 to R280) -/

/-- With an empty port and the transport open, RELEASE_LOCAL lets go of plan and sink and asks for TXBUF back. -/
theorem seqTurn_releases {s : State} (hs : s.seq = .sdReleaseLocal) (hopen : s.xportOpen = true)
    (hport : s.xreq = .none ∧ s.xresp = none) :
    seqTurn s = .next { s with planValid := false, sinkOpen := false, xreq := .releaseTx, seq := .sdRelTxWait } := by
  obtain ⟨-, h, -, -, -⟩ := releaseSteps s 0
  exact h hs hopen hport.1 hport.2

section
variable {s : State} {r : Word} (hresp : s.xresp = some r)
include hresp

/-- The three waits of the release sequence go on whatever the answer is. -/
theorem seqTurn_releasedTx (hs : s.seq = .sdRelTxWait) (hreq : s.xreq = .none) :
    seqTurn s = .next { s with xresp := none, xreq := .releaseRx, seq := .sdRelRxWait } := by
  obtain ⟨-, -, h, -, -⟩ := releaseSteps s r
  exact h hs hresp hreq

theorem seqTurn_releasedRx (hs : s.seq = .sdRelRxWait) (hreq : s.xreq = .none) :
    seqTurn s = .next { s with xresp := none, xreq := .close, seq := .sdCloseWait } := by
  obtain ⟨-, -, -, h, -⟩ := releaseSteps s r
  exact h hs hresp hreq

theorem seqTurn_closed (hs : s.seq = .sdCloseWait) :
    seqTurn s = .next { s with xresp := none, xportOpen := false, seq := .terminated } := by
  obtain ⟨-, -, -, -, h⟩ := releaseSteps s r
  exact h hs hresp

/-- An answer that is not negative takes the cycle on. -/
theorem seqTurn_refills (hs : s.seq = .strPushWait) (hr : 0 ≤ r.toInt) (hreq : s.xreq = .none) :
    seqTurn s = .next { s with
      xresp := none, txOwn := false, lastTxBytes := r, rxOwn := true, xreq := .refill, seq := .strRefillWait } :=
  (pushResponse s r hs hresp).2 hr hreq

theorem seqTurn_publishes (hs : s.seq = .strRefillWait) (hr : 0 ≤ r.toInt) :
    seqTurn s = .next { s with
      xresp := none, rxOwn := false, lastRxBytes := r, specSeq := s.specSeq + 1, seq := .strAnalyze } :=
  (refillResponse s r hs hresp).2 hr

end

/-! A run whose agenda says whose turn is next. -/

section
variable {s t : State} {es : List Event} (k : Nat)

theorem run_seq (hagenda : s.agenda = .seq :: es) (hturn : seqTurn { s with agenda := es } = .next t) :
    Host.Core.run Sys2Proof.core (k + 1) s = Host.Core.run Sys2Proof.core k t :=
  core_run_next ((step_seq hagenda).trans hturn) k

theorem run_xport (hagenda : s.agenda = .xport :: es) (hturn : xportTurn { s with agenda := es } = .next t) :
    Host.Core.run Sys2Proof.core (k + 1) s = Host.Core.run Sys2Proof.core k t :=
  core_run_next ((step_xport hagenda).trans hturn) k

end

/-! ### Shutdown (R284) -/

/-- The session is over and nothing is outstanding; plan, sink and ERR are as they were. -/
def Terminated (s t : State) : Prop :=
  t.seq = .terminated ∧ t.planValid = s.planValid ∧ t.sinkOpen = s.sinkOpen ∧ t.xportOpen = false ∧ t.xreq = .none ∧
  t.xresp = none ∧ t.err = s.err

theorem run_closed {s : State} {r : Word} (hs : s.seq = .sdCloseWait) (hresp : s.xresp = some r) (hreq : s.xreq = .none)
    (hagenda : s.agenda = [.seq]) : ∃ t, Host.Core.run Sys2Proof.core 1 s = .next t ∧ Terminated s t :=
  ⟨_, run_seq 0 hagenda (seqTurn_closed hresp hs), rfl, rfl, rfl, rfl, hreq, rfl, rfl⟩

theorem run_releasedRx {s : State} {r : Word} (hs : s.seq = .sdRelRxWait) (hresp : s.xresp = some r)
    (hreq : s.xreq = .none) (hagenda : s.agenda = [.seq, .xport, .seq]) :
    ∃ t, Host.Core.run Sys2Proof.core 3 s = .next t ∧ Terminated s t := by
  rw [run_seq 2 hagenda (seqTurn_releasedRx hresp hs hreq), run_xport 1 rfl (xportTurn_release (.inr (.inr rfl)))]
  exact run_closed rfl rfl rfl rfl

theorem run_releasedTx {s : State} {r : Word} (hs : s.seq = .sdRelTxWait) (hresp : s.xresp = some r)
    (hreq : s.xreq = .none) (hagenda : s.agenda = [.seq, .xport, .seq, .xport, .seq]) :
    ∃ t, Host.Core.run Sys2Proof.core 5 s = .next t ∧ Terminated s t := by
  rw [run_seq 4 hagenda (seqTurn_releasedTx hresp hs hreq), run_xport 3 rfl (xportTurn_release (.inr (.inl rfl)))]
  exact run_releasedRx rfl rfl rfl rfl

/-- Settles O53: RELEASE_LOCAL and then its three waits, each after the transport's answer. -/
theorem shutdownReachesTerminated : Obligations.ShutdownReachesTerminated := by
  unfold Obligations.ShutdownReachesTerminated
  intro s hi hs hopen hagenda
  rw [run_seq 6 hagenda (seqTurn_releases hs hopen (hi.port_empty hs rfl)),
    run_xport 5 rfl (xportTurn_release (.inl rfl))]
  exact run_releasedTx rfl rfl rfl rfl

/-! ### Cancellation (R282) -/

/-- The session is shutting down after one more cycle, with this SPEC_SEQ and these answers of the two transfers. -/
def CycleCompleted (s t : State) (specSeq tx rx : Word) : Prop :=
  t.seq = .sdReleaseLocal ∧ t.err = s.err ∧ t.cycleCount = s.cycleCount + 1 ∧ t.specSeq = specSeq ∧
  t.lastTxBytes = tx ∧ t.lastRxBytes = rx

section
variable {s : State} (hcancel : s.cancel = true)
include hcancel

theorem run_checkpoint (hs : s.seq = .strCk) (hagenda : s.agenda = [.seq]) :
    Host.Core.run Sys2Proof.core 1 s = .next { s with agenda := [], seq := .sdReleaseLocal } := by
  rw [run_seq 0 hagenda ((checkpointStep { s with agenda := [] } hs).1 hcancel)]
  rfl

theorem run_counts (hs : s.seq = .strCount) (hagenda : s.agenda = [.seq, .seq, .seq]) :
    ∃ t, Host.Core.run Sys2Proof.core 3 s = .next t ∧ CycleCompleted s t s.specSeq s.lastTxBytes s.lastRxBytes := by
  rw [run_seq 2 hagenda (seqTurn_strCount hs), run_seq 1 rfl (seqTurn_strSynth rfl)]
  exact ⟨_, run_checkpoint (by exact hcancel) rfl rfl, rfl, rfl, rfl, rfl, rfl, rfl⟩

/-- From a good refill on, the cycle needs SEQ alone. -/
theorem run_refilled {r : Word} (hs : s.seq = .strRefillWait) (hresp : s.xresp = some r) (hr : 0 ≤ r.toInt)
    (hagenda : s.agenda = [.seq, .seq, .seq, .seq, .seq]) :
    ∃ t, Host.Core.run Sys2Proof.core 5 s = .next t ∧ CycleCompleted s t (s.specSeq + 1 + 1) s.lastTxBytes r := by
  rw [run_seq 4 hagenda (seqTurn_publishes hresp hs hr), run_seq 3 rfl (seqTurn_strAnalyze rfl)]
  exact run_counts (by exact hcancel) rfl rfl

theorem run_pushed {r : Word} (hs : s.seq = .strPushWait) (hresp : s.xresp = some r) (hr : 0 ≤ r.toInt)
    (hreq : s.xreq = .none) (hrefill : 0 ≤ (s.draw 0).toInt)
    (hagenda : s.agenda = [.seq, .xport, .seq, .seq, .seq, .seq, .seq]) :
    ∃ t, Host.Core.run Sys2Proof.core 7 s = .next t ∧ CycleCompleted s t (s.specSeq + 1 + 1) r (s.draw 0) := by
  rw [run_seq 6 hagenda (seqTurn_refills hresp hs hr hreq), run_xport 5 rfl (xportTurn_refill rfl)]
  exact run_refilled (by exact hcancel) rfl rfl hrefill rfl

end

/-- Settles O54: the push, the refill and the rest of the cycle complete, and the checkpoint after it finds CANCEL set; ERR is
NONE throughout STREAMING. -/
theorem cancellationLetsTheCycleComplete : Obligations.CancellationLetsTheCycleComplete := by
  unfold Obligations.CancellationLetsTheCycleComplete
  intro s hi hs hreq hcancel hpush hrefill hagenda
  have hnext : s.answer.draw 0 = s.draw 1 := s.draw_consume 1 0
  have hspec : s.specSeq + 1 + 1 = s.specSeq + 2 := BitVec.add_assoc _ 1 1
  rw [← hi.err_none hs (by decide), ← hnext, ← hspec, run_xport 7 hagenda (xportTurn_push hreq)]
  rw [← hnext] at hrefill
  exact run_pushed (by exact hcancel) (by exact hs) rfl hpush rfl (by exact hrefill) rfl

end Sys2Proof.Machine

namespace Sys2Proof.Machine

/-! ### Turns that do not move the sequencer -/

/-- What a turn that is not a step of SEQ keeps: the sequencer, the cycle counter, and CANCEL, unless the host's program writes
it; the program only gets shorter. -/
structure Quiet (s t : State) : Prop where
  seq : t.seq = s.seq
  cycleCount : t.cycleCount = s.cycleCount
  cancel : t.cancel = s.cancel ∨ (t.cancel = true ∧ ∃ b, HostOp.access b ∈ s.program ∧ decodeBus b = .cancel)
  program : t.program ⊆ s.program

/-- The agenda is none of it. -/
theorem Quiet.of_agenda {s t : State} {es : List Event} (h : Quiet { s with agenda := es } t) : Quiet s t :=
  ⟨h.seq, h.cycleCount, h.cancel, h.program⟩

theorem HostTurnEffect.program_subset {s t : State} (h : HostTurnEffect s t) : t.program ⊆ s.program := by
  cases h with
  | nothing => exact List.Subset.refl _
  | access b rest hp _ ht =>
    rw [ht.frame, hp]
    exact List.subset_cons_self _ _
  | poll a mask value rest hp t ht =>
    rw [ht.frame, State.afterPoll]
    simp only
    split
    · rw [hp]
      exact List.subset_cons_self _ _
    · exact List.Subset.refl _

theorem HostTurnEffect.quiet {s t : State} (h : HostTurnEffect s t) (hs : s.seq ≠ .idle) : Quiet s t where
  seq := by rw [h.frame_outsideIdle hs]
  cycleCount := by rw [h.frame]
  cancel := by
    rcases h.cancel_cases with hsame | ⟨b, ops, hp, ⟨hb, hset⟩ | ⟨-, hidle, -⟩⟩
    · exact .inl hsame
    · exact .inr ⟨hset, b, hp ▸ List.mem_cons_self, hb⟩
    · exact absurd hidle hs
  program := h.program_subset

theorem XportEffect.quiet {s t : State} (h : XportEffect s t) : Quiet s t := by
  rw [h.frame]
  exact ⟨rfl, rfl, .inl rfl, List.Subset.refl _⟩

/-- Once a request has been answered the port holds none. -/
theorem XportEffect.xreq_none {s t : State} (h : XportEffect s t) : t.xreq = .none := by
  cases h with
  | nothing h => exact h
  | answered | configured | pushed | refilled => rfl

/-! ### Who can go on -/

/-- The agent that can go on in a session: XPORT while a request is outstanding, else SEQ (R260, R261). -/
def State.agent (s : State) : Event := if s.xreq = .none then .seq else .xport

theorem SeqPos.inSession_cases {p : SeqPos} (h : p.inSession = true) : p ≠ .idle ∧ p ≠ .terminated := by
  constructor <;> rintro rfl <;> exact absurd h (by decide)

/-- With no request outstanding SEQ is not waiting, or its response is there. -/
theorem Inv.seqEnabled {s : State} (hi : Inv s) (hs : s.seq.inSession = true) (hreq : s.xreq = .none) : SeqEnabled s := by
  obtain ⟨hidle, hterminated⟩ := SeqPos.inSession_cases hs
  refine ⟨hidle, hterminated, fun hawaits => ?_⟩
  rcases hi.port with ⟨hport, -⟩ | ⟨-, -, hresp⟩
  · exact absurd (hport.symm.trans hreq) hawaits
  · exact hresp

/-! ### Runs under a schedule (R18) -/

/-- The states of a run in which the schedule says whose turn each step is, without a reset. -/
structure Run (σ : Nat → Event) (u : Nat → State) : Prop where
  inv (n : Nat) : Inv (u n)
  turn (n : Nat) : step { u n with agenda := [σ n] } = .next (u (n + 1))
  noReset (n : Nat) : σ n ≠ .reset

/-- From a state with the invariant every schedule has its run, since no step stops. -/
theorem Inv.exists_run {s : State} {σ : Nat → Event} (hi : Inv s) (hreset : ∀ n, σ n ≠ .reset) :
    ∃ u, Run σ u ∧ u 0 = s ∧ ∀ n, s.under σ n = .next (u n) := by
  have hreached (n : Nat) : ∃ t, s.under σ n = .next t ∧ Inv t := by
    induction n with
    | zero => exact ⟨s, rfl, hi⟩
    | succ n ih =>
      obtain ⟨t, ht, hit⟩ := ih
      have hready : Inv { t with agenda := [σ n] } := hit.congr rfl
      simpa only [State.under, ht] using hready.step_next
  choose u hu hinv using hreached
  refine ⟨u, ⟨hinv, fun n => ?_, hreset⟩, (Host.Outcome.next.inj (hu 0)).symm, hu⟩
  have hnext := hu (n + 1)
  rwa [State.under, hu n] at hnext

/-- A schedule gives the agent that can go on a turn from every state of the run (R364). -/
def Run.Fair (σ : Nat → Event) (u : Nat → State) : Prop :=
  ∀ n, (u n).seq.inSession = true → ∃ k, σ (n + k) = (u n).agent

theorem Run.fair_of_fair {s : State} {σ : Nat → Event} {u : Nat → State} (hrun : Run σ u)
    (hunder : ∀ n, s.under σ n = .next (u n)) (hfair : Machine.Fair σ s) : Run.Fair σ u := by
  intro n hs
  obtain ⟨hxport, hseq⟩ := hfair n (u n) (hunder n)
  have hturn : ∃ m, n ≤ m ∧ σ m = (u n).agent := by
    rw [State.agent]
    split
    · next hreq => exact hseq ((hrun.inv n).seqEnabled hs hreq)
    · next hreq => exact hxport hreq
  obtain ⟨m, hm, hσ⟩ := hturn
  exact ⟨m - n, by rwa [Nat.add_sub_cancel' hm]⟩

section
variable {σ : Nat → Event} {u : Nat → State} (hrun : Run σ u)
include hrun

/-- In a session a turn is a step of SEQ, or XPORT's answer, or leaves it open who goes on. -/
theorem Run.turn_cases (n : Nat) (hs : (u n).seq.inSession = true) :
    (SeqEnabled (u n) ∧ SeqEffect { u n with agenda := [] } (u (n + 1))) ∨
    (Quiet (u n) (u (n + 1)) ∧ (u n).xreq ≠ .none ∧ (u (n + 1)).xreq = .none) ∨
    (Quiet (u n) (u (n + 1)) ∧ σ n ≠ (u n).agent ∧ (u (n + 1)).xreq = (u n).xreq) := by
  have hunchanged (e : u (n + 1) = { u n with agenda := [] }) :
      Quiet (u n) (u (n + 1)) ∧ (u (n + 1)).xreq = (u n).xreq := by
    rw [e]
    exact ⟨⟨rfl, rfl, .inl rfl, List.Subset.refl _⟩, rfl⟩
  rcases step_cases (hrun.turn n) with ⟨hturn, heffect⟩ | ⟨hturn, heffect⟩ | ⟨hturn, heffect⟩ | ⟨hturn, -⟩ <;>
    change σ n = _ at hturn
  case inl =>
    refine .inr (.inr ⟨.of_agenda (es := []) (heffect.quiet (SeqPos.inSession_cases hs).1), ?_, by rw [heffect.frame]; rfl⟩)
    rw [hturn, State.agent]
    split <;> decide
  case inr.inl =>
    by_cases hreq : (u n).xreq = .none
    · exact .inl ⟨(hrun.inv n).seqEnabled hs hreq, heffect⟩
    · obtain ⟨hawaits, hresp⟩ := (hrun.inv n).awaits_of_req hreq
      have hstays := seqTurn_waits (s := { u n with agenda := [] }) (hawaits ▸ hreq) hresp
      have hstep := hrun.turn n
      rw [hturn] at hstep
      obtain ⟨hquiet, hsame⟩ := hunchanged (Host.Outcome.next.inj (hstep.symm.trans hstays))
      exact .inr (.inr ⟨hquiet, by rw [hturn, State.agent, if_neg hreq]; decide, hsame⟩)
  case inr.inr.inl =>
    by_cases hreq : (u n).xreq = .none
    · obtain ⟨hquiet, hsame⟩ := hunchanged (heffect.of_none hreq)
      exact .inr (.inr ⟨hquiet, by rw [hturn, State.agent, if_pos hreq]; decide, hsame⟩)
    · exact .inr (.inl ⟨.of_agenda (es := []) heffect.quiet, hreq, heffect.xreq_none⟩)
  case inr.inr.inr => exact absurd hturn (hrun.noReset n)

end

/-! ### Progress (R364) -/

/-- The steps of SEQ left, and XPORT's answer where one is due. -/
def turnsLeft (left : SeqPos → Nat) (s : State) : Nat := 2 * left s.seq + if s.xreq = .none then 0 else 1

theorem turnsLeft_of_answer {left : SeqPos → Nat} {s t : State} (hseq : t.seq = s.seq) (hs : s.xreq ≠ .none)
    (ht : t.xreq = .none) : turnsLeft left t < turnsLeft left s := by
  rw [turnsLeft, turnsLeft, hseq, if_pos ht, if_neg hs]
  omega

theorem turnsLeft_of_step {left : SeqPos → Nat} {s t : State} (h : left t.seq < left s.seq) :
    turnsLeft left t < turnsLeft left s := by
  rw [turnsLeft, turnsLeft]
  split <;> split <;> omega

section
variable {σ : Nat → Event} {u : Nat → State} (hrun : Run σ u) {P Goal : State → Prop} {left : SeqPos → Nat}
  (hsession : ∀ s, P s → s.seq.inSession = true) (hquiet : ∀ s t, P s → Quiet s t → P t)
  (hstep : ∀ s t, P s → SeqEnabled s → SeqEffect { s with agenda := [] } t →
    Goal s ∨ Goal t ∨ (P t ∧ left t.seq < left s.seq))
include hrun hsession hquiet hstep

/-- A turn is progress, or it is not that of the agent that can go on and nothing moves. -/
theorem Run.progress_or_same (n : Nat) (hP : P (u n)) :
    (∃ m, Goal (u m) ∨ (P (u m) ∧ turnsLeft left (u m) < turnsLeft left (u n))) ∨
    (P (u (n + 1)) ∧ σ n ≠ (u n).agent ∧ (u (n + 1)).agent = (u n).agent ∧
      turnsLeft left (u (n + 1)) = turnsLeft left (u n)) := by
  rcases hrun.turn_cases n (hsession _ hP) with ⟨henabled, heffect⟩ | ⟨hq, hreq, hanswered⟩ | ⟨hq, hother, hsame⟩
  · rcases hstep _ _ hP henabled heffect with hgoal | hgoal | ⟨hnext, hless⟩
    · exact .inl ⟨n, .inl hgoal⟩
    · exact .inl ⟨n + 1, .inl hgoal⟩
    · exact .inl ⟨n + 1, .inr ⟨hnext, turnsLeft_of_step hless⟩⟩
  · exact .inl ⟨n + 1, .inr ⟨hquiet _ _ hP hq, turnsLeft_of_answer hq.seq hreq hanswered⟩⟩
  · refine .inr ⟨hquiet _ _ hP hq, hother, ?_, ?_⟩
    · rw [State.agent, State.agent, hsame]
    · rw [turnsLeft, turnsLeft, hsame, hq.seq]

/-- So the turn of the agent that can go on, when it comes, is progress. -/
theorem Run.goal_or_fewer (k n : Nat) (hP : P (u n)) (hk : σ (n + k) = (u n).agent) :
    ∃ m, Goal (u m) ∨ (P (u m) ∧ turnsLeft left (u m) < turnsLeft left (u n)) := by
  induction k generalizing n with
  | zero =>
    rcases hrun.progress_or_same hsession hquiet hstep n hP with hprogress | ⟨-, hother, -, -⟩
    · exact hprogress
    · exact absurd hk hother
  | succ k ih =>
    rcases hrun.progress_or_same hsession hquiet hstep n hP with hprogress | ⟨hnext, -, hagent, hleft⟩
    · exact hprogress
    · rw [← hleft]
      exact ih (n + 1) hnext (by rw [hagent, ← hk, Nat.add_right_comm n 1 k]; rfl)

/-- Where every step of SEQ counts down to the goal, a fair schedule reaches it. -/
theorem Run.reaches (hfair : Run.Fair σ u) (n : Nat) (hP : P (u n)) : ∃ m, Goal (u m) := by
  induction hleft : turnsLeft left (u n) using Nat.strong_induction_on generalizing n with
  | _ turns ih =>
    obtain ⟨k, hk⟩ := hfair n (hsession _ hP)
    obtain ⟨m, hgoal | ⟨hnext, hless⟩⟩ := hrun.goal_or_fewer hsession hquiet hstep k n hP hk
    · exact ⟨m, hgoal⟩
    · exact ih _ (hleft ▸ hless) m hnext rfl

end

end Sys2Proof.Machine

namespace Sys2Proof.Machine

/-! ### A session that is to end reaches TERMINATED (R364) -/

/-- The session is on, and CANCEL is set or it is shutting down. -/
def Ending (s : State) : Prop := s.seq.inSession = true ∧ (s.cancel = true ∨ s.seq.state = .shuttingDown)

/-- The steps of SEQ from a position to TERMINATED when CANCEL is set: to the checkpoint, then the release sequence. -/
def SeqPos.stepsToEnd : SeqPos → Nat
  | .strPushWait => 10
  | .strRefillWait => 9
  | .initCheck | .strAnalyze => 8
  | .initCfgWait | .strCount => 7
  | .initBuild | .strSynth => 6
  | .strCk => 5
  | .sdReleaseLocal => 4
  | .sdRelTxWait => 3
  | .sdRelRxWait => 2
  | .sdCloseWait => 1
  | .idle | .terminated | .diagWgen | .diagAnalyze | .diagSynth => 0

/-- Every row of the table of R263 from a session leads towards its end, but that of the push. -/
theorem rows_towardsEnd : ∀ row ∈ seqTransitions, row.1.inSession = true → row.2 ≠ .strPushWait →
    row.2 = .terminated ∨ (row.2.inSession = true ∧ row.2.stepsToEnd < row.1.stepsToEnd ∧
      (row.1.state = .shuttingDown → row.2.state = .shuttingDown)) := by decide

/-- A push is issued by a checkpoint that finds CANCEL clear. -/
theorem SeqEffect.cancel_of_push {s t : State} (h : SeqEffect s t) (henabled : SeqEnabled s) (ht : t.seq = .strPushWait) :
    s.seq = .strCk ∧ s.cancel = false := by
  obtain ⟨hidle, hterminated, hready⟩ := henabled
  cases h with
  | rests hs => exact absurd hs (not_or.mpr ⟨hidle, hterminated⟩)
  | waits hawaits hresp => exact absurd hresp (hready hawaits)
  | pushes hs hcancel => exact ⟨hs, hcancel⟩
  | checkFails | checked | configureFails | configured | dividesByZero | built | cancelled | pushFails | refills
  | refillFails | publishes | analyzes | counts | synthesizes | releases | releasesLocal | releasedTx | releasedRx
  | closed | diagWindow | diagSpectrum | diagBlock => cases ht

theorem SeqEffect.ending {s t : State} (h : SeqEffect s t) (henabled : SeqEnabled s) (hs : Ending s) :
    t.seq = .terminated ∨ (Ending t ∧ t.seq.stepsToEnd < s.seq.stepsToEnd) := by
  obtain ⟨hsession, hending⟩ := hs
  obtain ⟨-, hstays⟩ | hrow := h.stays_or_moves
  · exact absurd henabled hstays
  have hcancel : t.cancel = s.cancel := by rw [h.frame]
  have hpush : t.seq ≠ .strPushWait := by
    intro ht
    obtain ⟨hck, hclear⟩ := h.cancel_of_push henabled ht
    rw [hck, hclear] at hending
    exact absurd hending (by decide)
  exact (rows_towardsEnd _ hrow hsession hpush).imp id fun ⟨hon, hless, hdown⟩ =>
    ⟨⟨hon, hending.imp hcancel.trans hdown⟩, hless⟩

theorem Ending.of_quiet {s t : State} (hs : Ending s) (h : Quiet s t) : Ending t := by
  obtain ⟨hsession, hending⟩ := hs
  rw [Ending, h.seq]
  refine ⟨hsession, hending.imp (fun hcancel => ?_) id⟩
  rcases h.cancel with hsame | ⟨hset, -⟩
  · exact hsame.trans hcancel
  · exact hset

theorem Run.reaches_terminated {σ : Nat → Event} {u : Nat → State} (hrun : Run σ u) (hfair : Run.Fair σ u)
    (h0 : Ending (u 0)) : ∃ m, (u m).seq = .terminated :=
  hrun.reaches (left := SeqPos.stepsToEnd) (Goal := fun s => s.seq = .terminated) (fun _ hs => hs.1)
    (fun _ _ => Ending.of_quiet) (fun _ _ hs henabled heffect => .inr (heffect.ending henabled hs)) hfair 0 h0

/-! ### A session that is not to end goes on (R364) -/

/-- The answer on the port is negative. -/
def AnsweredNegative (s : State) : Prop := ∃ r, s.xresp = some r ∧ r.toInt < 0

/-- The session is in STREAMING, CANCEL is clear, and the host's program does not set it. -/
def Streaming (s : State) : Prop :=
  s.seq.state = .streaming ∧ s.cancel = false ∧ ∀ b, HostOp.access b ∈ s.program → decodeBus b ≠ .cancel

/-- The steps of SEQ from a position of STREAMING to the end of its COUNT. -/
def SeqPos.stepsToCount : SeqPos → Nat
  | .strSynth => 6
  | .strCk => 5
  | .strPushWait => 4
  | .strRefillWait => 3
  | .strAnalyze => 2
  | .strCount => 1
  | .idle | .initCheck | .initCfgWait | .initBuild | .sdReleaseLocal | .sdRelTxWait | .sdRelRxWait | .sdCloseWait
  | .terminated | .diagWgen | .diagAnalyze | .diagSynth => 0

theorem Streaming.of_quiet {s t : State} (hs : Streaming s) (h : Quiet s t) : Streaming t := by
  obtain ⟨hstate, hclear, hprogram⟩ := hs
  rw [Streaming, h.seq]
  refine ⟨hstate, ?_, fun b hb => hprogram b (h.program hb)⟩
  rcases h.cancel with hsame | ⟨-, b, hb, hcancel⟩
  · exact hsame.trans hclear
  · exact absurd hcancel (hprogram b hb)

/-- Without a negative answer SEQ goes on through the cycle, and COUNT counts it. -/
theorem SeqEffect.streaming {s t : State} (h : SeqEffect s t) (henabled : SeqEnabled s) (hs : Streaming s) :
    AnsweredNegative s ∨ (Streaming t ∧ (t.cycleCount = s.cycleCount + 1 ∨
      (t.cycleCount = s.cycleCount ∧ t.seq.stepsToCount < s.seq.stepsToCount))) := by
  obtain ⟨hidle, hterminated, hready⟩ := henabled
  obtain ⟨hstate, hclear, hprogram⟩ := hs
  cases h with
  | rests hs => exact absurd hs (not_or.mpr ⟨hidle, hterminated⟩)
  | waits hawaits hresp => exact absurd hresp (hready hawaits)
  | cancelled _ hcancel => exact absurd (hclear.symm.trans hcancel) (by decide)
  | pushFails r _ hresp hr | refillFails r _ hresp hr => exact .inl ⟨r, hresp, respNegative_true.mp hr⟩
  | counts hs => exact .inr ⟨⟨rfl, hclear, hprogram⟩, .inl rfl⟩
  | pushes hs | refills _ hs | publishes _ hs | analyzes hs | synthesizes hs =>
    refine .inr ⟨⟨rfl, hclear, hprogram⟩, .inr ⟨rfl, ?_⟩⟩
    rw [hs]
    exact Nat.lt_add_one _
  | checkFails hs | checked hs | configureFails _ hs | configured _ hs | dividesByZero hs | built hs | releases hs
  | releasesLocal hs | releasedTx _ hs | releasedRx _ hs | closed _ hs | diagWindow hs | diagSpectrum hs | diagBlock hs =>
    rw [hs] at hstate
    exact absurd hstate (by decide)

theorem SeqPos.inSession_of_streaming {p : SeqPos} (h : p.state = .streaming) : p.inSession = true := by
  rw [SeqPos.inSession, h]
  rfl

section
variable {σ : Nat → Event} {u : Nat → State} (hrun : Run σ u)
include hrun

/-- Every state of the run is in STREAMING, or a negative answer has come. -/
theorem Run.streaming_or_negative (h0 : Streaming (u 0)) (n : Nat) :
    Streaming (u n) ∨ ∃ m ≤ n, AnsweredNegative (u m) := by
  induction n with
  | zero => exact .inl h0
  | succ n ih =>
    rcases ih with hs | ⟨m, hm, hnegative⟩
    · rcases hrun.turn_cases n (SeqPos.inSession_of_streaming hs.1) with ⟨henabled, heffect⟩ | ⟨hq, -⟩ | ⟨hq, -⟩
      · rcases heffect.streaming henabled hs with hnegative | ⟨hnext, -⟩
        · exact .inr ⟨n, n.le_succ, hnegative⟩
        · exact .inl hnext
      · exact .inl (hs.of_quiet hq)
      · exact .inl (hs.of_quiet hq)
    · exact .inr ⟨m, hm.trans n.le_succ, hnegative⟩

variable (hfair : Run.Fair σ u)
include hfair

/-- The cycle that is on is counted, or a negative answer comes. -/
theorem Run.counts_cycle (n : Nat) (hs : Streaming (u n)) :
    ∃ m, (Streaming (u m) ∧ (u m).cycleCount = (u n).cycleCount + 1) ∨ AnsweredNegative (u m) := by
  refine hrun.reaches (left := SeqPos.stepsToCount) (P := fun t => Streaming t ∧ t.cycleCount = (u n).cycleCount)
    (Goal := fun t => (Streaming t ∧ t.cycleCount = (u n).cycleCount + 1) ∨ AnsweredNegative t)
    (fun _ ht => SeqPos.inSession_of_streaming ht.1.1) ?quiet ?step hfair n ⟨hs, rfl⟩
  case quiet =>
    rintro s t ⟨hstreaming, hcount⟩ hq
    exact ⟨hstreaming.of_quiet hq, hq.cycleCount.trans hcount⟩
  case step =>
    rintro s t ⟨hstreaming, hcount⟩ henabled heffect
    rw [← hcount]
    rcases heffect.streaming henabled hstreaming with hnegative | ⟨hnext, hcounted | ⟨hsame, hless⟩⟩
    · exact .inl (.inr hnegative)
    · exact .inr (.inl (.inl ⟨hnext, hcounted⟩))
    · exact .inr (.inr ⟨⟨hnext, hsame⟩, hless⟩)

theorem Run.counts_cycles (h0 : Streaming (u 0)) (c : Nat) :
    ∃ n, (Streaming (u n) ∧ (u n).cycleCount = (u 0).cycleCount + BitVec.ofNat 64 c) ∨ AnsweredNegative (u n) := by
  induction c with
  | zero => exact ⟨0, .inl ⟨h0, (BitVec.add_zero _).symm⟩⟩
  | succ c ih =>
    obtain ⟨n, ⟨hs, hcount⟩ | hnegative⟩ := ih
    · obtain ⟨m, ⟨hnext, hcounted⟩ | hnegative⟩ := hrun.counts_cycle hfair n hs
      · refine ⟨m, .inl ⟨hnext, ?_⟩⟩
        rw [hcounted, hcount, BitVec.add_assoc, BitVec.ofNat_add]
        rfl
      · exact ⟨m, .inr hnegative⟩
    · exact ⟨n, .inr hnegative⟩

end

/-- Settles O55: every step of SEQ in a session that is to end counts down to TERMINATED (`SeqEffect.ending`), and in one that
is not, to its next COUNT (`SeqEffect.streaming`); between them the fair schedule gives XPORT its turn (`Run.reaches`). -/
theorem progressOfSessions : Obligations.ProgressOfSessions := by
  unfold Obligations.ProgressOfSessions
  refine ⟨?ends, ?goesOn⟩
  case ends =>
    intro s σ hi hsession hending hreset hfair
    obtain ⟨u, hrun, rfl, hunder⟩ := hi.exists_run hreset
    obtain ⟨n, hn⟩ := hrun.reaches_terminated (hrun.fair_of_fair hunder hfair) ⟨hsession, hending⟩
    exact ⟨n, u n, hunder n, hn⟩
  case goesOn =>
    intro s σ hi hstate hclear hreset hprogram
    obtain ⟨u, hrun, rfl, hunder⟩ := hi.exists_run hreset
    have h0 : Streaming (u 0) := ⟨hstate, hclear, hprogram⟩
    refine ⟨fun n => ⟨u n, hunder n, ?stays⟩, fun hfair c => ?counts⟩
    case stays =>
      exact (hrun.streaming_or_negative h0 n).imp And.left fun ⟨m, hm, r, hr⟩ => ⟨m, u m, r, hm, hunder m, hr⟩
    case counts =>
      obtain ⟨n, hn⟩ := hrun.counts_cycles (hrun.fair_of_fair hunder hfair) h0 c
      exact ⟨n, u n, hunder n, hn.imp And.right id⟩

end Sys2Proof.Machine
